-- ==== Sys2Proof/Word.lean ====
section
/-!
DEFINITION. The values the block moves: command words, numbers of the datapath, and the
records that cross its interfaces. Plain data only; arithmetic on them is in
Machine/Numeric.lean.
-/

namespace Sys2Proof

/-- A command word or a timestamp: delivered whole, 64 bits (R54, R70). -/
abbrev Word := BitVec 64

/-- A payload byte (R36). -/
abbrev Byte := BitVec 8

/-- A real number of the datapath, written down exactly as plain data (R13 to R15).
The reference semantics is exact real arithmetic, whose results leave the rationals, so a
value is a term over the rationals and over named reals: `rat` for a rational, `const` for any
other real number the instance names (R6: a tone, a filter tap, the analyzer scale, a value of
RC_KERNEL), and one constructor for each operation of R13, R14 whose result is not rational.
`Val.toReal` (Machine/Reals.lean) says which real number a term is. A numeric format whose values
are rational (every fixed-point format and every finite floating-point value) uses `rat` alone,
with `negZero` beside it where it has a negative zero (R16). (log 2) -/
inductive Val where
  /-- A rational number. -/
  | rat (q : ℚ)
  /-- The negative zero of an IEEE-754 realisation: the number 0, and not `rat 0` as data (R16). -/
  | negZero
  /-- The `n`-th real number the instance names; which one it is, `Params.constant` says (R6). -/
  | const (n : Nat)
  /-- The sum of two numbers. -/
  | add (a b : Val)
  /-- The product of two numbers. -/
  | mul (a b : Val)
  /-- The non-negative square root (R13, the modulus of a complex value). -/
  | sqrt (a : Val)
  /-- `cos (2π t)`, `t` in turns (R13, `exp(jθ)`). -/
  | cosTurn (t : Val)
  /-- `sin (2π t)`, `t` in turns (R13, `exp(jθ)`). -/
  | sinTurn (t : Val)
  /-- `arg (re + j im) / π`, in half turns, so in `(-1, 1]` (R14, R111). -/
  | angle (re im : Val)
deriving DecidableEq, Repr, Inhabited

/-- A complex value: a pair of reals (R13). -/
structure CVal where
  re : Val
  im : Val
deriving DecidableEq, Repr, Inhabited

/-- The four runtime configuration keys, in key order (R22, R23): the contents of the
staging registers and of the active registers. The widths are the registers'; `offset` is
read as two's complement (s32), the others as unsigned (u32), all in Hz. -/
structure ChannelConfig where
  offset : BitVec 32
  inputRate : BitVec 32
  rfBandwidth : BitVec 32
  fmDeviation : BitVec 32
deriving DecidableEq, Repr, Inhabited

/-- One scope record: the ten fields of R186, in that order. -/
structure ScopeRecord where
  iq : CVal
  pw : Val
  fm : Val
  filt0 : Val
  filt1 : Val
  diff : Val
  curSample : Bool
  lastBit : Bool
  bitStrobe : Bool
  gotSOP : Bool
deriving DecidableEq, Repr, Inhabited

/-- A packet event: the 64-bit timestamp and the payload bytes in order received
(R53, R56, R158). -/
structure Packet where
  ts : Word
  bytes : List Byte
deriving DecidableEq, Repr, Inhabited

end Sys2Proof
end

