-- ==== Sys2Proof/Syntax.lean ====
section
/-!
DEFINITION. The commands of the block, one constructor per row of spec/opcode_table.json
(R76). Operands are the fields of the command's format (R72) at their own widths; how a field
is read as a number is in Machine/Operands.lean (R73 to R75).
-/

namespace Sys2Proof

/-- A decoded command (R76, R78). -/
inductive Instr where
  /-- RESET, format N (R220). -/
  | reset
  /-- SET_OFFSET, format V: stages key 0 (R170). -/
  | setOffset (value : BitVec 32)
  /-- SET_INPUT_RATE, format V: stages key 1 (R170). -/
  | setInputRate (value : BitVec 32)
  /-- SET_RF_BW, format V: stages key 2 (R170). -/
  | setRfBw (value : BitVec 32)
  /-- SET_FM_DEV, format V: stages key 3 (R170). -/
  | setFmDev (value : BitVec 32)
  /-- APPLY, format A (R171). -/
  | apply (force : Bool) (mask : BitVec 4)
  /-- SAMPLE, format S (R95). -/
  | sample (i q : BitVec 24)
deriving DecidableEq, Repr, Inhabited

end Sys2Proof
end

