-- ==== Sys2Proof/Decode.lean ====
section
/-!
DEFINITION. The command decoder (R70 to R80), total on 64-bit words and refusing illegal ones
by name, and the encoder written from the same format tables.
-/

namespace Sys2Proof

/-- Why a word is `Illegal` (R78 to R80). Both causes raise the same fault (R203). -/
inductive DecodeError where
  /-- Opcode 0x00 or 0x08 to 0xFF (R80). -/
  | unassignedOpcode (op : BitVec 8)
  /-- An assigned opcode with a reserved bit set (R79). -/
  | reservedBitSet (op : BitVec 8)
deriving DecidableEq, Repr

/-- `op = w[63:56]` (R71). -/
def opField (w : Word) : BitVec 8 := w.extractLsb' 56 8

/-- Bits 55:0 of a format N word, all reserved (R72). -/
def reservedN (w : Word) : BitVec 56 := w.extractLsb' 0 56

/-- Bits 55:32 of a format V word, reserved (R72). -/
def reservedV (w : Word) : BitVec 24 := w.extractLsb' 32 24

/-- `value = w[31:0]` of format V (R72). -/
def valueField (w : Word) : BitVec 32 := w.extractLsb' 0 32

/-- Bits 55:9 of a format A word, reserved (R72). -/
def reservedAHigh (w : Word) : BitVec 47 := w.extractLsb' 9 47

/-- Bits 7:4 of a format A word, reserved (R72). -/
def reservedALow (w : Word) : BitVec 4 := w.extractLsb' 4 4

/-- `force = w[8]` of format A (R72). -/
def forceField (w : Word) : Bool := w.getLsbD 8

/-- `mask = w[3:0]` of format A (R72). -/
def maskField (w : Word) : BitVec 4 := w.extractLsb' 0 4

/-- Bits 55:48 of a format S word, reserved (R72). -/
def reservedS (w : Word) : BitVec 8 := w.extractLsb' 48 8

/-- `I = w[47:24]` of format S (R72). -/
def iField (w : Word) : BitVec 24 := w.extractLsb' 24 24

/-- `Q = w[23:0]` of format S (R72). -/
def qField (w : Word) : BitVec 24 := w.extractLsb' 0 24

/-- A format V word's command, if its reserved bits are zero. -/
def decodeV (w : Word) (k : BitVec 32 → Instr) : Except DecodeError Instr :=
  if reservedV w = 0 then .ok (k (valueField w)) else .error (.reservedBitSet (opField w))

/-- The decoder of R78: every word is one of the seven commands or illegal, by name. -/
def decode (w : Word) : Except DecodeError Instr :=
  if opField w = 0x01#8 then
    if reservedN w = 0 then .ok .reset else .error (.reservedBitSet (opField w))
  else if opField w = 0x02#8 then decodeV w .setOffset
  else if opField w = 0x03#8 then decodeV w .setInputRate
  else if opField w = 0x04#8 then decodeV w .setRfBw
  else if opField w = 0x05#8 then decodeV w .setFmDev
  else if opField w = 0x06#8 then
    if reservedAHigh w = 0 ∧ reservedALow w = 0 then .ok (.apply (forceField w) (maskField w))
    else .error (.reservedBitSet (opField w))
  else if opField w = 0x07#8 then
    if reservedS w = 0 then .ok (.sample (iField w) (qField w))
    else .error (.reservedBitSet (opField w))
  else .error (.unassignedOpcode (opField w))

/-- The instruction read from a word numbered as spec/opcode_table.json numbers it: commands are
one whole 64-bit word (R70), bits above `nbits` are zero, and longer ones do not exist. -/
def decodeTableWord (nbits w : Nat) : Option Instr :=
  if nbits ≤ 64 then (decode (BitVec.ofNat 64 (w % 2 ^ nbits))).toOption else none

/-- The word of a command, from the formats of R72 and the opcodes of R76. -/
def encode : Instr → Word
  | .reset => 0x01#8 ++ 0#56
  | .setOffset v => 0x02#8 ++ 0#24 ++ v
  | .setInputRate v => 0x03#8 ++ 0#24 ++ v
  | .setRfBw v => 0x04#8 ++ 0#24 ++ v
  | .setFmDev v => 0x05#8 ++ 0#24 ++ v
  | .apply force mask => 0x06#8 ++ 0#47 ++ BitVec.ofBool force ++ 0#4 ++ mask
  | .sample i q => 0x07#8 ++ 0#8 ++ i ++ q

/-- One row of the match and mask table (R77). -/
structure OpcodeRow where
  mnemonic : String
  matchBits : Word
  maskBits : Word
deriving DecidableEq, Repr

/-- The match and mask table (R77): `w &&& mask = match` identifies the command. -/
def opcodeTable : List OpcodeRow :=
  [ ⟨"RESET", 0x0100000000000000#64, 0xFFFFFFFFFFFFFFFF#64⟩,
    ⟨"SET_OFFSET", 0x0200000000000000#64, 0xFFFFFFFF00000000#64⟩,
    ⟨"SET_INPUT_RATE", 0x0300000000000000#64, 0xFFFFFFFF00000000#64⟩,
    ⟨"SET_RF_BW", 0x0400000000000000#64, 0xFFFFFFFF00000000#64⟩,
    ⟨"SET_FM_DEV", 0x0500000000000000#64, 0xFFFFFFFF00000000#64⟩,
    ⟨"APPLY", 0x0600000000000000#64, 0xFFFFFFFFFFFFFEF0#64⟩,
    ⟨"SAMPLE", 0x0700000000000000#64, 0xFFFF000000000000#64⟩ ]

/-- The table's name of a command (R76). -/
def Instr.mnemonic : Instr → String
  | .reset => "RESET"
  | .setOffset _ => "SET_OFFSET"
  | .setInputRate _ => "SET_INPUT_RATE"
  | .setRfBw _ => "SET_RF_BW"
  | .setFmDev _ => "SET_FM_DEV"
  | .apply _ _ => "APPLY"
  | .sample _ _ => "SAMPLE"

/-- A row identifies a word (R77). -/
def OpcodeRow.identifies (r : OpcodeRow) (w : Word) : Bool := w &&& r.maskBits == r.matchBits

/-- Two rows overlap if some word matches both: they agree on every bit both masks cover. -/
def OpcodeRow.overlaps (r t : OpcodeRow) : Bool :=
  (r.matchBits ^^^ t.matchBits) &&& (r.maskBits &&& t.maskBits) == 0

end Sys2Proof
end

