-- ==== Sys2Proof/Machine/Numeric.lean ====
section
/-!
DEFINITION. Exact arithmetic on the numbers of the datapath (R13, R14), and the exact-arithmetic
bodies of the numeric stages: the reference of NUM (R15). A result that is rational is folded to
`Val.rat`, so that what is rational stays computable; any other result is the term of the
operation. Which real number a value is: Machine/Reals.lean; that each operation here gives the right
one: Laws/Numeric.lean.
-/

namespace Sys2Proof

/-- An integer as a number of the datapath (R75: no scaling). -/
def Val.ofInt (z : Int) : Val := .rat z

def Val.plus : Val → Val → Val
  | .rat p, .rat q => .rat (p + q)
  | a, b => .add a b

def Val.times : Val → Val → Val
  | .rat p, .rat q => .rat (p * q)
  | a, b => .mul a b

def Val.neg (a : Val) : Val := Val.times (.rat (-1)) a

def Val.minus (a b : Val) : Val := Val.plus a (Val.neg b)

/-- The sum of a list, from the left, starting at 0. -/
def Val.sum (l : List Val) : Val := l.foldl Val.plus (.rat 0)

/-- `⌊√n⌋`, one bit at a time from bit `k - 1` down, added to `r`. -/
def isqrtFrom (n : Nat) : Nat → Nat → Nat
  | 0, r => r
  | k + 1, r => if (r + 2 ^ k) * (r + 2 ^ k) ≤ n then isqrtFrom n k (r + 2 ^ k) else isqrtFrom n k r

/-- `⌊√n⌋`. -/
def isqrt (n : Nat) : Nat := isqrtFrom n (n.log2 / 2 + 1) 0

/-- The non-negative square root (R13): a rational where the argument is the square of one. -/
def Val.root : Val → Val
  | .rat q =>
    let r : ℚ := (isqrt q.num.toNat : ℚ) / (isqrt q.den : ℚ)
    if r * r = q then .rat r else .sqrt (.rat q)
  | a => .sqrt a

/-- `cos (2π t)`, with its rational values at quarter turns (R13). -/
def Val.cosT : Val → Val
  | .rat t =>
    if Int.fract t = 0 then .rat 1
    else if Int.fract t = 1 / 4 then .rat 0
    else if Int.fract t = 1 / 2 then .rat (-1)
    else if Int.fract t = 3 / 4 then .rat 0
    else .cosTurn (.rat t)
  | t => .cosTurn t

/-- `sin (2π t)`, with its rational values at quarter turns (R13). -/
def Val.sinT : Val → Val
  | .rat t =>
    if Int.fract t = 0 then .rat 0
    else if Int.fract t = 1 / 4 then .rat 1
    else if Int.fract t = 1 / 2 then .rat 0
    else if Int.fract t = 3 / 4 then .rat (-1)
    else .sinTurn (.rat t)
  | t => .sinTurn t

/-- `arg (re + j im) / π` in `(-1, 1]`, with its rational values on the axes and the diagonals:
`arg 0 = 0`, and `+π` on the negative real axis (R14). -/
def Val.argHalfTurns : Val → Val → Val
  | .rat a, .rat b =>
    if b = 0 then (if 0 ≤ a then .rat 0 else .rat 1)
    else if a = 0 then (if 0 < b then .rat (1 / 2) else .rat (-1 / 2))
    else if a = b then (if 0 < a then .rat (1 / 4) else .rat (-3 / 4))
    else if a = -b then (if 0 < a then .rat (-1 / 4) else .rat (3 / 4))
    else .angle (.rat a) (.rat b)
  | a, b => .angle a b

/-- `I + j·Q` for integers (R75). -/
def CVal.ofInts (i q : Int) : CVal := ⟨.ofInt i, .ofInt q⟩

def CVal.plus (z w : CVal) : CVal := ⟨z.re.plus w.re, z.im.plus w.im⟩

/-- `(a + jb)·(c + jd) = (ac - bd) + j(ad + bc)` (R13). -/
def CVal.times (z w : CVal) : CVal :=
  ⟨(z.re.times w.re).minus (z.im.times w.im), (z.re.times w.im).plus (z.im.times w.re)⟩

/-- `conj (a + jb) = a - jb` (R13). -/
def CVal.conj (z : CVal) : CVal := ⟨z.re, z.im.neg⟩

/-- `|a + jb|^2 = a^2 + b^2` (R13). -/
def CVal.normSq (z : CVal) : Val := (z.re.times z.re).plus (z.im.times z.im)

/-- `|a + jb| = sqrt (a^2 + b^2)` (R13). -/
def CVal.modulus (z : CVal) : Val := z.normSq.root

/-- A complex value times a real one. -/
def CVal.scale (z : CVal) (a : Val) : CVal := ⟨z.re.times a, z.im.times a⟩

/-- `exp (j·2π·t)`, `t` in turns (R13). -/
def CVal.expTurn (t : Val) : CVal := ⟨t.cosT, t.sinT⟩

/-- The sum of a list, from the left, starting at 0. -/
def CVal.sum (l : List CVal) : CVal := l.foldl CVal.plus ⟨.rat 0, .rat 0⟩

/-- A table entry `exp (j·2π·f·n / rate)` (R28, R120). -/
def toneEntry (f : Val) (rate n : Nat) : CVal := CVal.expTurn (f.times (.rat ((n : ℚ) / rate)))

/-- MIX in exact arithmetic: `x · exp (j·2π·ncoAcc / inputRate)` (R96). -/
def exactMix (x : CVal) (acc rate : Nat) : CVal := x.times (CVal.expTurn (.rat ((acc : ℚ) / rate)))

/-- DISC in exact arithmetic: `(arg dz / π) · discScale` (R111). -/
def exactDisc (dz : CVal) (scale : Val) : Val := (Val.argHalfTurns dz.re dz.im).times scale

/-- The slot CORR reads for tone entry `i`: `(corrIdx - i) mod L` (R10, R121, R123). -/
def ringSlot (corrIdx i len : Nat) : Nat := (((corrIdx : Int) - (i : Int)) % (len : Int)).toNat

/-- CORR in exact arithmetic: `Σ_{i<L} toneRef[i] · ring[(corrIdx - i) mod L]` (R121, R123), `L` the
length of the table; a slot that is not there reads 0 (log 18). -/
def exactCorr (toneRef : List CVal) (ring : List Val) (corrIdx : Nat) : CVal :=
  CVal.sum (toneRef.zipIdx.map fun p =>
    p.1.scale (ring.getD (ringSlot corrIdx p.2 toneRef.length) (.rat 0)))

/-- LPF in exact arithmetic: `Σ_a h[a] · hist[a]` (R130). -/
def exactLpf (taps hist : List Val) : Val := Val.sum (List.zipWith Val.times taps hist)

end Sys2Proof
end

