-- ==== Sys2Proof/Machine/Reals.lean ====
section
/-!
DEFINITION. Which real number a value of the datapath is (R13, R14), over the real numbers an
instance names, and the truncation of R189 on real numbers. Noncomputable, since the reals are;
nothing `exec` runs evaluates them.
-/

namespace Sys2Proof

/-- The real number a value is, `const n` being the `n`-th of the reals `ρ` (R13, R14; log 2). -/
noncomputable def Val.toReal (ρ : Nat → ℝ) : Val → ℝ
  | .rat q => (q : ℝ)
  | .negZero => 0
  | .const n => ρ n
  | .add a b => a.toReal ρ + b.toReal ρ
  | .mul a b => a.toReal ρ * b.toReal ρ
  | .sqrt a => Real.sqrt (a.toReal ρ)
  | .cosTurn t => Real.cos (2 * Real.pi * t.toReal ρ)
  | .sinTurn t => Real.sin (2 * Real.pi * t.toReal ρ)
  | .angle re im => Complex.arg ⟨re.toReal ρ, im.toReal ρ⟩ / Real.pi

/-- The complex number a complex value is (R13). -/
noncomputable def CVal.toComplex (ρ : Nat → ℝ) (z : CVal) : ℂ := ⟨z.re.toReal ρ, z.im.toReal ρ⟩

/-- `trunc x`, rounding toward zero (R189). -/
noncomputable def truncReal (x : ℝ) : ℤ := if 0 ≤ x then ⌊x⌋ else ⌈x⌉

end Sys2Proof
end

