-- ==== Sys2Proof/Config.lean ====
section
/-!
DEFINITION. What an instance of the block fixes for its life (the elaboration parameters of
R6, D7) and the values the spec leaves open. Every one of them is a field of `Params`;
`Config.params`, the instance the machine of the fixed names is, is uninterpreted
(log 1): nothing can evaluate it, so what is proved of that machine holds for every instance.
-/

namespace Sys2Proof

/-- The type of RC_KERNEL and of `rcFn` (R6, R101): the pair `rcKernelCfg`, the history, newest
first, and the distance `d` of the output instant in input periods. -/
abbrev RcKernel := BitVec 32 × BitVec 32 → List CVal → ℚ → CVal

/-- NUM, the numeric realisation of the datapath (R15): a record of total functions, one per stage,
each of its stage's operands and parameters alone. -/
structure Num where
  /-- MIX (R96): input sample, `ncoAcc`, `cfg.inputRate`. -/
  mixFn : CVal → Nat → Nat → CVal
  /-- RESAMPLE (R101): `rcKernelCfg`, `rcHist`, `d`. -/
  rcFn : RcKernel
  /-- DISC (R110): `dz`, `discScale`. -/
  discFn : CVal → Val → Val
  /-- CORR (R121): `toneRefk`, `ring`, the advanced `corrIdx`. -/
  corrFn : List CVal → List Val → Nat → CVal
  /-- LPF (R130): `LPF_TAPS`, `lpfHistk`. -/
  lpfFn : List Val → List Val → Val
deriving Inhabited

/-- The comparison `v >= 0` of an instance (R16, R141, and the maximum of R113), over the reals `ρ`
it names. It is EXACT in every instance (R15: "The control path … is exact integer logic in every
instance"): 1 on a number above 0, 1 on a tie (DEDUCED, log 21), a negative zero too (R16), 0 on a
number below 0.
`IsNumber` are the values the instance computes with: every rational, a negative zero, the results
of its stage functions, and the sums and products of all these. That is every value a SAMPLE
compares. The reference computes with every value (Machine/Reference.lean); for a format whose
numbers are rational see `Comparison.rational`. On a value that is no number of the instance nothing
is said. DESIGN CHOICE (log 3), safe: exact reals have no computable comparison, so an instance
carries one. -/
structure Comparison (ρ : Nat → ℝ) (num : Num) where
  geZeroFn : Val → Bool
  IsNumber : Val → Prop
  rat_isNumber : ∀ q, IsNumber (.rat q)
  negZero_isNumber : IsNumber .negZero
  plus_isNumber : ∀ a b, IsNumber a → IsNumber b → IsNumber (a.plus b)
  times_isNumber : ∀ a b, IsNumber a → IsNumber b → IsNumber (a.times b)
  rcFn_isNumber : ∀ cfg hist d,
    IsNumber (num.rcFn cfg hist d).re ∧ IsNumber (num.rcFn cfg hist d).im
  discFn_isNumber : ∀ dz scale, IsNumber (num.discFn dz scale)
  lpfFn_isNumber : ∀ taps hist, IsNumber (num.lpfFn taps hist)
  geZero_iff : ∀ v, IsNumber v → (geZeroFn v = true ↔ 0 ≤ v.toReal ρ)

/-- The truncation `trunc` of R189, toward zero, EXACT on every product of a number of the instance
(`IsNumber`) and ANALYZER_SCALE, which is all it is applied to. DESIGN CHOICE (log 3), safe. -/
structure Truncation (ρ : Nat → ℝ) (IsNumber : Val → Prop) (scale : Val) where
  truncFn : Val → Int
  trunc_eq : ∀ v, IsNumber v →
    truncFn (v.times scale) = truncReal ((v.times scale).toReal ρ)

/-- The elements that hold no value after RESET and at power-on (R40, 93 I13): staging and
active configuration, derived configuration, and the slots of the tap buffers. No rule reads
one before writing it. The model gives each a value that nothing is known of. DESIGN CHOICE
(log 6). -/
structure Unspecified where
  stg : ChannelConfig
  cfg : ChannelConfig
  ncoStep : BitVec 32
  discScale : Val
  rcKernelCfg : BitVec 32 × BitVec 32
  toneRef0 : Nat → CVal
  toneRef1 : Nat → CVal
  scopeSlot : Nat → ScopeRecord
  anaSlot : Nat → BitVec 16
deriving Inhabited

/-- One admitted set of elaboration parameters (R6, R7), with the open values beside it. The
fields are such that every value of `Params` is an admitted set and every admitted set is
one (`elaborate` in Machine/Elaborate.lean says so from the numbers of R6): the internal rate
is the product of `baud` and `L`, so `INTERNAL_RATE mod BAUD = 0`; `L` is `corrLenPred + 1`,
so `1 <= L <= 65535`. DESIGN CHOICE (log 5), safe. -/
structure Params where
  /-- The real numbers the instance names: `Val.const n` is `constant n`. With them TONE0, TONE1,
  LPF_TAPS, ANALYZER_SCALE and the values of RC_KERNEL are any real numbers (R6; Laws/RealParams.lean
  proves it). -/
  constant : Nat → ℝ
  /-- BAUD, symbols/s. -/
  baud : ℕ+
  /-- The correlation length `L`, less one. -/
  corrLenPred : Fin 65535
  /-- TONE0, Hz. -/
  tone0 : Val
  /-- TONE1, Hz. -/
  tone1 : Val
  /-- SYNC_PATTERN. -/
  syncPattern : BitVec 16
  /-- `h[0]` of LPF_TAPS: there is at least one tap. -/
  lpfTap0 : Val
  /-- `h[1], h[2], …` of LPF_TAPS. -/
  lpfTapsRest : List Val
  /-- RC_HIST. -/
  rcHistLen : ℕ+
  /-- RC_KERNEL, read by the reference instance of NUM alone. -/
  rcKernel : RcKernel
  /-- LEVEL_N. -/
  levelN : ℕ+
  /-- SCOPE_BATCH. -/
  scopeBatch : ℕ+
  /-- ANALYZER_BATCH. -/
  analyzerBatch : ℕ+
  /-- ANALYZER_SCALE. -/
  analyzerScale : Val
  /-- NUM. -/
  num : Num
  /-- The comparison of R16, exact on the instance's numbers. -/
  compare : Comparison constant num
  /-- The truncation of R189, exact on what it is applied to. -/
  truncate : Truncation constant compare.IsNumber analyzerScale
  /-- The value of each element that R40 leaves unspecified. -/
  unspecified : Unspecified
  /-- `draw TS()` (R12, R158): the value the timestamp input presents at the n-th draw. A FREE
  VALUE (log 9): no monotonicity, no relation to anything (R212). -/
  timestamp : Nat → Word

/-- `L`, the correlation length (R6, R7). -/
def Params.corrLen (P : Params) : Nat := P.corrLenPred.val + 1

/-- INTERNAL_RATE, Hz: `BAUD · L` (R6, R7). -/
def Params.internalRate (P : Params) : Nat := P.baud * P.corrLen

/-- LPF_TAPS (R6). -/
def Params.lpfTaps (P : Params) : List Val := P.lpfTap0 :: P.lpfTapsRest

/-- LPF_N (R6). -/
def Params.lpfN (P : Params) : Nat := P.lpfTapsRest.length + 1

/-- SYNC_WINDOW, bits (R6): the source gives it. -/
def syncWindow : Nat := 17

/-- PAYLOAD_LEN, bytes (R6): the source gives it. -/
def payloadLen : Nat := 8

/-! ### Formats whose numbers are rational -/

/-- The value is made of rationals and negative zeros by sums and products. -/
def Val.isRational : Val → Bool
  | .rat _ => true
  | .negZero => true
  | .add a b => a.isRational && b.isRational
  | .mul a b => a.isRational && b.isRational
  | _ => false

/-- Its value, where it is; 0 elsewhere. -/
def Val.ratValue : Val → ℚ
  | .rat q => q
  | .add a b => a.ratValue + b.ratValue
  | .mul a b => a.ratValue * b.ratValue
  | _ => 0

/-- Truncation of a rational toward zero. -/
def truncRat (q : ℚ) : ℤ := q.num.tdiv q.den

theorem Val.toReal_of_isRational (ρ : Nat → ℝ) (v : Val) (h : v.isRational = true) :
    v.toReal ρ = (v.ratValue : ℝ) := by
  induction v with
  | rat | negZero => simp [Val.toReal, Val.ratValue]
  | add a b iha ihb | mul a b iha ihb =>
    simp only [Val.isRational, Bool.and_eq_true] at h
    simp [Val.toReal, Val.ratValue, iha h.1, ihb h.2]
  | _ => simp [Val.isRational] at h

theorem Val.isRational_plus {a b : Val} (ha : a.isRational = true) (hb : b.isRational = true) :
    (a.plus b).isRational = true := by
  cases a <;> cases b <;> simp_all [Val.plus, Val.isRational]

theorem Val.isRational_times {a b : Val} (ha : a.isRational = true) (hb : b.isRational = true) :
    (a.times b).isRational = true := by
  cases a <;> cases b <;> simp_all [Val.times, Val.isRational]

theorem truncReal_rat (q : ℚ) : truncReal (q : ℝ) = truncRat q := by
  simp only [truncReal, truncRat, Rat.cast_nonneg, Rat.floor_cast, Rat.ceil_cast]
  split_ifs with h
  · rw [Rat.floor_def', Int.tdiv_eq_ediv_of_nonneg (Rat.num_nonneg.mpr h)]
  · have hn : q.num < 0 := Rat.num_neg.mpr (not_le.mp h)
    rw [Rat.ceil_def', show q.num.tdiv q.den = -((-q.num).tdiv q.den) by
      rw [Int.neg_tdiv, neg_neg], Int.tdiv_eq_ediv_of_nonneg (by omega)]

/-- The comparison of an instance whose stage functions answer rational numbers, as in every
fixed-point and finite floating-point format: computed on the rationals. -/
def Comparison.rational (ρ : Nat → ℝ) (num : Num)
    (hrc : ∀ cfg hist d,
      (num.rcFn cfg hist d).re.isRational = true ∧ (num.rcFn cfg hist d).im.isRational = true)
    (hdisc : ∀ dz scale, (num.discFn dz scale).isRational = true)
    (hlpf : ∀ taps hist, (num.lpfFn taps hist).isRational = true) : Comparison ρ num where
  geZeroFn v := decide (0 ≤ v.ratValue)
  IsNumber v := v.isRational = true
  rat_isNumber _ := rfl
  negZero_isNumber := rfl
  plus_isNumber _ _ := Val.isRational_plus
  times_isNumber _ _ := Val.isRational_times
  rcFn_isNumber := hrc
  discFn_isNumber := hdisc
  lpfFn_isNumber := hlpf
  geZero_iff v h := by simp [Val.toReal_of_isRational ρ v h]

/-- The truncation of such an instance, at a rational scale. -/
def Truncation.rational (ρ : Nat → ℝ) (scale : Val) (h : scale.isRational = true) :
    Truncation ρ (fun v => v.isRational = true) scale where
  truncFn v := truncRat v.ratValue
  trunc_eq v hv := by
    rw [Val.toReal_of_isRational ρ _ (Val.isRational_times hv h), truncReal_rat]

/-- A parameter set R7 admits, with nothing else to be said for it. It is here only because Lean
takes an uninterpreted constant of a type that is known to have an element. -/
def Params.trivial : Params where
  constant _ := 0
  baud := 1
  corrLenPred := 0
  tone0 := .rat 0
  tone1 := .rat 0
  syncPattern := 0
  lpfTap0 := .rat 0
  lpfTapsRest := []
  rcHistLen := 1
  rcKernel _ _ _ := ⟨.rat 0, .rat 0⟩
  levelN := 1
  scopeBatch := 1
  analyzerBatch := 1
  analyzerScale := .rat 0
  num :=
    { mixFn := fun _ _ _ => ⟨.rat 0, .rat 0⟩
      rcFn := fun _ _ _ => ⟨.rat 0, .rat 0⟩
      discFn := fun _ _ => .rat 0
      corrFn := fun _ _ _ => ⟨.rat 0, .rat 0⟩
      lpfFn := fun _ _ => .rat 0 }
  compare :=
    Comparison.rational _ _ (fun _ _ _ => ⟨rfl, rfl⟩) (fun _ _ => rfl) (fun _ _ => rfl)
  truncate := Truncation.rational _ _ rfl
  unspecified := default
  timestamp _ := 0

/-! ### The instance -/

/-- An instance, whichever it is. -/
structure Config.Choice where
  params : Params := Params.trivial
deriving Inhabited

/-- Which instance it is: OPEN (R6, 92 section 2). An uninterpreted constant: no value of it can be
computed or proved (log 1). -/
opaque Config.choice : Config.Choice

/-- The instance that the machine of the fixed names is. -/
def Config.params : Params := Config.choice.params

end Sys2Proof
end

