-- ==== Sys2Proof/Machine/State.lean ====
section
/-!
DEFINITION. The state of the block (10_state.md), one structure per numbered group of state
elements, as plain data, and the state at power-on (R40, R221).

Registers loaded from command words are bit vectors of the registers' widths. Counters, indices
and phases are numbers (R10); that they stay inside the widths of R22 to R38 is part of the
invariant of Safety.lean (log 7). Arrays are lists whose lengths the invariant fixes (R51).
-/

namespace Sys2Proof.Machine

/-- Staging registers and their valid bits (R22): bit `k` of `valid` belongs to key `k`. -/
structure Staging where
  value : ChannelConfig
  valid : BitVec 4
deriving DecidableEq, Repr

/-- Derived configuration (R25 to R28): values APPLY recomputes from the active configuration. -/
structure Derived where
  /-- `ncoStep` (u32), `(-cfg.offset) mod cfg.inputRate` (R25). -/
  ncoStep : Nat
  /-- `discScale` (real), `INTERNAL_RATE / (2 · cfg.fmDeviation)` (R26). -/
  discScale : Val
  /-- `rcKernelCfg`, the pair the rate converter's filter was last built for (R27). -/
  rcKernelCfg : BitVec 32 × BitVec 32
  /-- `toneRef0[0..L-1]` (R28). -/
  toneRef0 : List CVal
  /-- `toneRef1[0..L-1]` (R28). -/
  toneRef1 : List CVal
deriving DecidableEq, Repr

/-- Rate-converter state (R30). -/
structure RateConv where
  /-- `rcHist[0..RC_HIST-1]`, `rcHist[0]` the newest mixed sample. -/
  hist : List CVal
  /-- `rcAcc` (s64), the output-timing accumulator. -/
  acc : Int
deriving DecidableEq, Repr

/-- Level-meter state (R32). -/
structure LevelMeter where
  /-- `levelHist[0..LEVEL_N-1]`. -/
  hist : List Val
  /-- `levelIdx` (u16), the next slot to write. -/
  idx : Nat
  /-- `levelAvg`. -/
  avg : Val
  /-- `levelPeak`. -/
  peak : Val
deriving DecidableEq, Repr

/-- Correlator state (R33). -/
structure Correlator where
  /-- `ring[0..L-1]`, the discriminator samples. -/
  ring : List Val
  /-- `corrIdx` (u16), the write index. -/
  idx : Nat
  /-- `corrCnt` (u16), the fill counter. -/
  cnt : Nat
  /-- `mag0`. -/
  mag0 : Val
  /-- `mag1`. -/
  mag1 : Val
deriving DecidableEq, Repr

/-- Smoothing-filter state (R34). -/
structure Filters where
  /-- `lpfHist0[0..LPF_N-1]`, index 0 the newest input. -/
  hist0 : List Val
  /-- `lpfHist1[0..LPF_N-1]`. -/
  hist1 : List Val
  /-- `filt0`. -/
  filt0 : Val
  /-- `filt1`. -/
  filt1 : Val
deriving DecidableEq, Repr

/-- Bit-synchroniser state (R35). -/
structure BitSync where
  /-- `diff`, the last decision variable. -/
  diff : Val
  /-- `curSample`, the last decision bit. -/
  curSample : Bool
  /-- `samplePrev`, the decision bit of the previous correlator update. -/
  samplePrev : Bool
  /-- `syncCount` (s32), the countdown to the next bit boundary in correlator updates. -/
  syncCount : Int
  /-- `lastBit`, the last emitted bit. -/
  lastBit : Bool
  /-- `bitStrobe`: the current internal sample emitted a bit. -/
  bitStrobe : Bool
deriving DecidableEq, Repr

/-- Frame-assembler state (R36). -/
structure Framer where
  /-- `gotSOP`: false SEARCHING, true RECEIVING. -/
  gotSOP : Bool
  /-- `bits` (u32), the bit accumulator, LSB first. -/
  bits : BitVec 32
  /-- `bitCount` (u8). -/
  bitCount : Nat
  /-- `bytes[0..PAYLOAD_LEN-1]`. -/
  bytes : List Byte
  /-- `byteCount` (u8). -/
  byteCount : Nat
deriving DecidableEq, Repr

/-- Scope tap (R37). -/
structure ScopeTap where
  /-- `scopeBuf[0..SCOPE_BATCH-1]`. -/
  buf : List ScopeRecord
  /-- `scopeCnt` (u32). -/
  cnt : Nat
deriving DecidableEq, Repr

/-- Analyzer tap (R37). -/
structure AnalyzerTap where
  /-- `anaBuf[0..ANALYZER_BATCH-1]`, s16 each. -/
  buf : List (BitVec 16)
  /-- `anaCnt` (u32). -/
  cnt : Nat
deriving DecidableEq, Repr

/-- Status registers (R38), always visible on the status output. -/
structure Status where
  /-- `fault`. -/
  fault : Bool
  /-- `faultCode` (u8), the codes of R201. -/
  code : BitVec 8
deriving DecidableEq, Repr

/-- The whole block, and what stands at its ports. -/
structure State where
  /-- Staging registers (R22). -/
  stg : Staging
  /-- Active configuration (R23). -/
  cfg : ChannelConfig
  /-- `configured` (R24). -/
  configured : Bool
  /-- Derived configuration (R25 to R28). -/
  derived : Derived
  /-- `ncoAcc` (u32), the NCO phase in units of `1/cfg.inputRate` of a cycle (R29). -/
  ncoAcc : Nat
  /-- Rate converter (R30). -/
  rc : RateConv
  /-- `discPrev`, the previous internal sample (R31). -/
  discPrev : CVal
  /-- Level meter (R32). -/
  level : LevelMeter
  /-- Correlator (R33). -/
  corr : Correlator
  /-- Smoothing filters (R34). -/
  lpf : Filters
  /-- Bit synchroniser (R35). -/
  sync : BitSync
  /-- Frame assembler (R36). -/
  frame : Framer
  /-- Scope tap (R37). -/
  scope : ScopeTap
  /-- Analyzer tap (R37). -/
  ana : AnalyzerTap
  /-- Status (R38). -/
  status : Status
  /-- The command stream: words delivered and not yet taken, the next first (R5, R21, R217;
  log 8). -/
  commands : List Word
  /-- How many timestamps have been drawn: the model's own counter (log 9). -/
  tsDraws : Nat
  /-- Output trace of the packet port, oldest first (R12, R58). -/
  packetOut : List Packet
  /-- Output trace of the scope port: whole batches, oldest first (R12, R58). -/
  scopeOut : List (List ScopeRecord)
  /-- Output trace of the analyzer port: whole batches, oldest first (R12, R58). -/
  analyzerOut : List (List (BitVec 16))
deriving DecidableEq, Repr

/-- Why a step stops. The block's own faults (R201) are not stops: they are state (R205). -/
inductive Fault where
  /-- Raised by SAMPLE in a state with `configured = 1` and `cfg.inputRate = 0`: R204 calls the
  mixer's `mod cfg.inputRate` and the rate converter's timing undefined there, and APPLY lets no
  run reach it (log 11). Safe. -/
  | inputRateZero
deriving DecidableEq, Repr

/-- Why a command has no meaning. -/
inductive Refusal where
  /-- Raised by an arm of `exec` whose instruction is not modelled yet; no arm is. Safe. -/
  | notModelled (mnemonic : String)
deriving DecidableEq, Repr

/-- The value of a real element at reset where the spec gives 0 (R40). -/
def zeroVal : Val := .rat 0

/-- The value of a complex element at reset where the spec gives `0 + j0` (R40). -/
def zeroCVal : CVal := ⟨.rat 0, .rat 0⟩

/-- The state of an instance at power-on (R40, R221): every value the spec gives, and for the
elements R40 leaves unspecified the instance's uninterpreted ones (log 6). Nothing has been
delivered, drawn or emitted. -/
def State.powerOn (P : Params) : State where
  stg := { value := P.unspecified.stg, valid := 0 }
  cfg := P.unspecified.cfg
  configured := false
  derived :=
    { ncoStep := P.unspecified.ncoStep.toNat
      discScale := P.unspecified.discScale
      rcKernelCfg := P.unspecified.rcKernelCfg
      toneRef0 := (List.range P.corrLen).map P.unspecified.toneRef0
      toneRef1 := (List.range P.corrLen).map P.unspecified.toneRef1 }
  ncoAcc := 0
  rc := { hist := List.replicate P.rcHistLen zeroCVal, acc := P.internalRate }
  discPrev := zeroCVal
  level := { hist := List.replicate P.levelN zeroVal, idx := 0, avg := zeroVal, peak := zeroVal }
  corr := { ring := List.replicate P.corrLen zeroVal, idx := 0, cnt := 0,
            mag0 := zeroVal, mag1 := zeroVal }
  lpf := { hist0 := List.replicate P.lpfN zeroVal, hist1 := List.replicate P.lpfN zeroVal,
           filt0 := zeroVal, filt1 := zeroVal }
  sync := { diff := zeroVal, curSample := false, samplePrev := false, syncCount := 0,
            lastBit := false, bitStrobe := false }
  frame := { gotSOP := false, bits := 0, bitCount := 0,
             bytes := List.replicate payloadLen 0, byteCount := 0 }
  scope := { buf := (List.range P.scopeBatch).map P.unspecified.scopeSlot, cnt := 0 }
  ana := { buf := (List.range P.analyzerBatch).map P.unspecified.anaSlot, cnt := 0 }
  status := { fault := false, code := 0 }
  commands := []
  tsDraws := 0
  packetOut := []
  scopeOut := []
  analyzerOut := []

/-- The machine right after reset. -/
def State.reset : State := State.powerOn Config.params

end Sys2Proof.Machine
end

