-- ==== Sys2Proof/Machine/Ops.lean ====
section
/-!
DEFINITION. The shared operations over the state: taking a fault (R205), ignoring commands while
faulted (R206), returning the pipeline to its reset values (R175, R220), and emitting events
(R12). There is no return from a fault (R209); RESET (Machine/Reset.lean) is the recovery.
-/

namespace Sys2Proof.Machine

/-- What a command answers. -/
abbrev Result := Host.Outcome State Fault Refusal

/-- The fault codes of R201. -/
inductive FaultCode where
  | none
  | illegalCommand
  | notConfigured
  | configInvalid
deriving DecidableEq, Repr

/-- The value `faultCode` takes (R201). -/
def FaultCode.code : FaultCode → BitVec 8
  | .none => 0
  | .illegalCommand => 1
  | .notConfigured => 2
  | .configInvalid => 3

/-- Fault entry (R205): `fault <- 1`, `faultCode <- code`, and nothing else. The command ends. -/
def raiseFault (c : FaultCode) (s : State) : State :=
  { s with status := { fault := true, code := c.code } }

/-- While `fault = 1` a command other than RESET is ignored: it writes nothing, emits nothing and
raises nothing (R206). -/
def unlessFaulted (s : State) (k : Result) : Result :=
  if s.status.fault then .next s else k

/-- An illegal word: ignored while faulted, else `ILLEGAL_COMMAND` (R80, R203, R207). -/
def illegalWord (s : State) : Result := unlessFaulted s (.next (raiseFault .illegalCommand s))

/-- Rate-converter timing restart (R30, R103): `rcAcc <- INTERNAL_RATE`. -/
def restartTiming (P : Params) (s : State) : State :=
  { s with rc := { s.rc with acc := P.internalRate } }

/-- The tap counts go to 0, which discards a partial batch without emitting it; the slots keep
what they hold (R37, R175; log 13). -/
def discardBatches (s : State) : State :=
  { s with scope := { s.scope with cnt := 0 }, ana := { s.ana with cnt := 0 } }

/-- All pipeline and tap state back to its reset values: the part RESET and a forced APPLY have in
common (R40, R175, R220, R222). -/
def resetPipeline (P : Params) (s : State) : State :=
  discardBatches
    { s with
      ncoAcc := 0
      rc := { hist := List.replicate P.rcHistLen zeroCVal, acc := P.internalRate }
      discPrev := zeroCVal
      level :=
        { hist := List.replicate P.levelN zeroVal, idx := 0, avg := zeroVal, peak := zeroVal }
      corr :=
        { ring := List.replicate P.corrLen zeroVal, idx := 0, cnt := 0,
          mag0 := zeroVal, mag1 := zeroVal }
      lpf :=
        { hist0 := List.replicate P.lpfN zeroVal, hist1 := List.replicate P.lpfN zeroVal,
          filt0 := zeroVal, filt1 := zeroVal }
      sync :=
        { diff := zeroVal, curSample := false, samplePrev := false, syncCount := 0,
          lastBit := false, bitStrobe := false }
      frame :=
        { gotSOP := false, bits := 0, bitCount := 0,
          bytes := List.replicate payloadLen 0, byteCount := 0 } }

/-- `emit Packet(ts, bytes)` (R12, R159): always succeeds. -/
def emitPacket (p : Packet) (s : State) : State := { s with packetOut := s.packetOut ++ [p] }

/-- `emit ScopeBatch(records)` (R12, R192): always succeeds. -/
def emitScope (b : List ScopeRecord) (s : State) : State := { s with scopeOut := s.scopeOut ++ [b] }

/-- `emit AnalyzerBatch(values)` (R12, R192): always succeeds. -/
def emitAnalyzer (b : List (BitVec 16)) (s : State) : State :=
  { s with analyzerOut := s.analyzerOut ++ [b] }

/-- A history register: the newest element enters at index 0, the oldest leaves (R99, R130). -/
def pushNewest {α : Type} (a : α) (l : List α) : List α := (a :: l).take l.length

end Sys2Proof.Machine
end

