-- ==== Sys2Proof/Machine/Operands.lean ====
section
/-!
DEFINITION. How the operands of the formats are read (R73 to R75), and the configuration keys
they select (R22, R74).
-/

namespace Sys2Proof.Machine

/-- The four configuration keys (R22, R74): key 0 offset, 1 inputRate, 2 rfBandwidth,
3 fmDeviation. -/
inductive Key where
  | offset
  | inputRate
  | rfBandwidth
  | fmDeviation
deriving DecidableEq, Repr

/-- The key's number: its bit in `mask` and in `stgValid`, and its SET opcode less 0x02
(R22, R74, R76). -/
def Key.index : Key → Nat
  | .offset => 0
  | .inputRate => 1
  | .rfBandwidth => 2
  | .fmDeviation => 3

/-- Format V for key 0: `sext_32` (R73). -/
def signedHz (v : BitVec 32) : Int := v.toInt

/-- Format V for keys 1 to 3: `zext_32` (R73). -/
def unsignedHz (v : BitVec 32) : Nat := v.toNat

/-- `mask[k]` of format A (R74). -/
def maskHas (mask : BitVec 4) (k : Key) : Bool := mask.getLsbD k.index

/-- The register of a key. -/
def getKey (c : ChannelConfig) : Key → BitVec 32
  | .offset => c.offset
  | .inputRate => c.inputRate
  | .rfBandwidth => c.rfBandwidth
  | .fmDeviation => c.fmDeviation

/-- `c[k] <- v`. -/
def putKey (c : ChannelConfig) (v : BitVec 32) : Key → ChannelConfig
  | .offset => { c with offset := v }
  | .inputRate => { c with inputRate := v }
  | .rfBandwidth => { c with rfBandwidth := v }
  | .fmDeviation => { c with fmDeviation := v }

/-- Format S (R75): `x = I + j·Q`, each `sext_24`, exact integers, no scaling. -/
def inputSample (i q : BitVec 24) : CVal := CVal.ofInts i.toInt q.toInt

end Sys2Proof.Machine
end

