-- ==== Sys2Proof/Machine/Flags.lean ====
section
/-!
DEFINITION. The one-bit state elements of R39 and the tests that decide them.
-/

namespace Sys2Proof.Machine

/-- `stgValid[k] <- 1` (R22, R170). -/
def setValid (valid : BitVec 4) (k : Key) : BitVec 4 := valid ||| BitVec.twoPow 4 k.index

/-- `stgValid = 0b1111` (R174). -/
def allStaged (valid : BitVec 4) : Bool := valid == 0b1111#4

/-- The decision bit: 1 exactly when `diff >= 0`; a tie goes to symbol 1, a negative zero is one
(R16, R141). Exact in every instance (`Comparison.geZero_iff`). -/
def decisionBit (P : Params) (diff : Val) : Bool := P.compare.geZeroFn diff

/-- An edge: the decision differs from the previous one (R142). -/
def isEdge (sample prev : Bool) : Bool := sample != prev

/-- The sync window matches: `bits[16:0] = zext_17(SYNC_PATTERN)`, so the newest bit is 0
(R153, R160). -/
def syncMatches (P : Params) (bits : BitVec 32) : Bool :=
  bits.extractLsb' 0 syncWindow == P.syncPattern.setWidth syncWindow

/-- A configuration no APPLY may leave active: a zero rate or a zero deviation (R204). -/
def configUnusable (c : ChannelConfig) : Bool := c.inputRate == 0 || c.fmDeviation == 0

/-- `bitStrobe <- 0`, at the start of each internal sample (R39, R104). -/
def clearStrobe (s : State) : State := { s with sync := { s.sync with bitStrobe := false } }

end Sys2Proof.Machine
end

