-- ==== Sys2Proof/Machine/Discriminator.lean ====
section
/-!
DEFINITION. DISC and LEVEL, the FM discriminator and the level meter (41_discriminator.md).
-/

namespace Sys2Proof.Machine

/-- `dz = conj(discPrev) · ci` (R110). -/
def phaseProduct (prev ci : CVal) : CVal := prev.conj.times ci

/-- The instantaneous frequency `fm = discFn(dz, discScale)` (R110, R111). -/
def discFreq (P : Params) (s : State) (ci : CVal) : Val :=
  P.num.discFn (phaseProduct s.discPrev ci) s.derived.discScale

/-- The power estimate `pw = |ci|^2` (R112). -/
def powerEstimate (ci : CVal) : Val := ci.normSq

/-- `discPrev <- ci` (R110). -/
def storePrev (ci : CVal) (s : State) : State := { s with discPrev := ci }

/-- `max(a, b)` (R113): exact in every instance, since the comparison is (R15, log 3). -/
def maxVal (P : Params) (a b : Val) : Val := if P.compare.geZeroFn (b.minus a) then b else a

/-- LEVEL on the meter's own state (R113); exact in every instance (log 4). -/
def levelUpdate (P : Params) (pw : Val) (m : LevelMeter) : LevelMeter where
  hist := m.hist.set m.idx pw
  idx := (m.idx + 1) % P.levelN
  avg := (Val.sum (m.hist.set m.idx pw)).times (.rat (1 / (P.levelN : ℕ)))
  peak := maxVal P m.peak pw

/-- LEVEL (R113). -/
def levelStage (P : Params) (pw : Val) (s : State) : State :=
  { s with level := levelUpdate P pw s.level }

end Sys2Proof.Machine
end

