-- ==== Sys2Proof/Machine/Taps.lean ====
section
/-!
DEFINITION. The diagnostic taps SCOPE and ANALYZER (46_diagnostic_taps.md).
-/

namespace Sys2Proof.Machine

/-- `clamp(x, lo, hi) = min(max(x, lo), hi)` (R189). -/
def clamp (x lo hi : Int) : Int := min (max x lo) hi

/-- The s16 analyzer value `clamp(trunc(fm · ANALYZER_SCALE), -32768, 32767)` (R189); `trunc` is
exact in every instance (`Truncation.trunc_eq`). -/
def analyzerValue (P : Params) (fm : Val) : BitVec 16 :=
  BitVec.ofInt 16 (clamp (P.truncate.truncFn (fm.times P.analyzerScale)) (-32768) 32767)

/-- ANALYZER (R189, R190): buffer one value; a full buffer is emitted and starts again. -/
def analyzerStage (P : Params) (fm : Val) (s : State) : State :=
  let buf := s.ana.buf.set s.ana.cnt (analyzerValue P fm)
  if s.ana.cnt + 1 = P.analyzerBatch then
    emitAnalyzer buf { s with ana := { buf := buf, cnt := 0 } }
  else { s with ana := { buf := buf, cnt := s.ana.cnt + 1 } }

/-- The record of one internal sample (R186): each field its value at the end of `process`. -/
def scopeRecord (ci : CVal) (pw fm : Val) (s : State) : ScopeRecord where
  iq := ci
  pw := pw
  fm := fm
  filt0 := s.lpf.filt0
  filt1 := s.lpf.filt1
  diff := s.sync.diff
  curSample := s.sync.curSample
  lastBit := s.sync.lastBit
  bitStrobe := s.sync.bitStrobe
  gotSOP := s.frame.gotSOP

/-- SCOPE (R187, R188): record the sample; a full buffer is emitted and starts again. -/
def scopeStage (P : Params) (ci : CVal) (pw fm : Val) (s : State) : State :=
  let buf := s.scope.buf.set s.scope.cnt (scopeRecord ci pw fm s)
  if s.scope.cnt + 1 = P.scopeBatch then
    emitScope buf { s with scope := { buf := buf, cnt := 0 } }
  else { s with scope := { buf := buf, cnt := s.scope.cnt + 1 } }

end Sys2Proof.Machine
end

