-- ==== Sys2Proof/Machine/Correlator.lean ====
section
/-!
DEFINITION. TONEBUILD, CORR and LPF (42_correlator_filters.md).
-/

namespace Sys2Proof.Machine

/-- One tone table: `toneRef[n] = exp(j·2π·f·n / INTERNAL_RATE)` for `n < L` (R28, R120). -/
def toneTable (P : Params) (f : Val) : List CVal :=
  (List.range P.corrLen).map (toneEntry f P.internalRate)

/-- TONEBUILD fills both tables (R120). -/
def toneBuild (P : Params) (d : Derived) : Derived :=
  { d with toneRef0 := toneTable P P.tone0, toneRef1 := toneTable P P.tone1 }

/-- CORR step 1 (R122): write at the old index, advance it modulo `L`, count up to `L`. -/
def ringPush (P : Params) (fm : Val) (c : Correlator) : Correlator :=
  { c with
    ring := c.ring.set c.idx fm
    idx := (c.idx + 1) % P.corrLen
    cnt := min (c.cnt + 1) P.corrLen }

/-- CORR steps 2 and 3 (R123, R124): both magnitudes over the full window, with the advanced
index, then the counter goes down by one. The modulus is exact in every instance (log 4). -/
def correlate (P : Params) (d : Derived) (c : Correlator) : Correlator :=
  { c with
    mag0 := (P.num.corrFn d.toneRef0 c.ring c.idx).modulus
    mag1 := (P.num.corrFn d.toneRef1 c.ring c.idx).modulus
    cnt := c.cnt - 1 }

/-- The ring is full after step 1, so this internal sample is a correlator update (R121, R124). -/
def isUpdate (P : Params) (fm : Val) (c : Correlator) : Bool :=
  decide (P.corrLen ≤ (ringPush P fm c).cnt)

/-- CORR on the correlator's own state (R121). -/
def corrUpdate (P : Params) (d : Derived) (fm : Val) (c : Correlator) : Correlator :=
  if isUpdate P fm c then correlate P d (ringPush P fm c) else ringPush P fm c

/-- CORR (R121). -/
def corrStage (P : Params) (fm : Val) (s : State) : State :=
  { s with corr := corrUpdate P s.derived fm s.corr }

/-- LPF on the filters' own state (R130): both histories take their magnitude, both outputs are
computed with the same taps. -/
def lpfUpdate (P : Params) (mag0 mag1 : Val) (f : Filters) : Filters where
  hist0 := pushNewest mag0 f.hist0
  hist1 := pushNewest mag1 f.hist1
  filt0 := P.num.lpfFn P.lpfTaps (pushNewest mag0 f.hist0)
  filt1 := P.num.lpfFn P.lpfTaps (pushNewest mag1 f.hist1)

/-- LPF (R130). -/
def lpfStage (P : Params) (s : State) : State :=
  { s with lpf := lpfUpdate P s.corr.mag0 s.corr.mag1 s.lpf }

end Sys2Proof.Machine
end

