-- ==== Sys2Proof/Machine/Framer.lean ====
section
/-!
DEFINITION. FRAME and EMIT, the frame assembler and packet emitter (44_frame_assembler.md).
-/

namespace Sys2Proof.Machine

/-- Shift-in (R151): the bit is OR-ed into `bits` at position `bitCount`, which goes up by one. -/
def shiftIn (bit : Bool) (f : Framer) : Framer :=
  { f with
    bits := f.bits ||| ((BitVec.ofBool bit).setWidth 32 <<< f.bitCount)
    bitCount := f.bitCount + 1 }

/-- SEARCHING, after the shift-in (R152 to R154): test the window once it has 17 bits; a match
enters RECEIVING with everything cleared, a mismatch drops the oldest bit. -/
def searchStep (P : Params) (f : Framer) : Framer :=
  if syncWindow ≤ f.bitCount then
    if syncMatches P f.bits then
      { f with gotSOP := true, bits := 0, bitCount := 0, byteCount := 0 }
    else { f with bits := f.bits >>> 1, bitCount := f.bitCount - 1 }
  else f

/-- A byte boundary: RECEIVING, and 8 bits after the shift-in (R155). -/
def atByteBoundary (f : Framer) : Bool := f.gotSOP && f.bitCount == 8

/-- The packet is complete: a byte boundary with all bytes stored (R157). -/
def isComplete (f : Framer) : Bool := atByteBoundary f && f.byteCount == payloadLen

/-- The byte formed at a boundary, its first received bit in bit 0 (R52, R155). -/
def formedByte (f : Framer) : Byte := f.bits.extractLsb' 0 8

/-- Store (R156), and clear the accumulator (R155). -/
def storeByte (f : Framer) : Framer :=
  { f with
    bytes := f.bytes.set f.byteCount (formedByte f)
    byteCount := f.byteCount + 1
    bits := 0
    bitCount := 0 }

/-- After completion (R157): the ninth byte is discarded and a new search starts empty. -/
def completeFrame (f : Framer) : Framer :=
  { f with gotSOP := false, byteCount := 0, bits := 0, bitCount := 0 }

/-- FRAME on the assembler's own state (R150). -/
def frameUpdate (P : Params) (bit : Bool) (f : Framer) : Framer :=
  let g := shiftIn bit f
  if g.gotSOP then
    if isComplete g then completeFrame g
    else if atByteBoundary g then storeByte g
    else g
  else searchStep P g

/-- `draw TS()` (R12, R158): the value presented now; the draw is counted. -/
def drawTimestamp (P : Params) (s : State) : Word × State :=
  (P.timestamp s.tsDraws, { s with tsDraws := s.tsDraws + 1 })

/-- EMIT (R158): timestamp and push one packet holding the bytes in order received. -/
def emitStage (P : Params) (s : State) : State :=
  let drawn := drawTimestamp P s
  emitPacket { ts := drawn.1, bytes := s.frame.bytes } drawn.2

/-- FRAME (R150): the packet, if this bit completes one, carries the bytes stored before it. -/
def frameStage (P : Params) (bit : Bool) (s : State) : State :=
  let emitted := if isComplete (shiftIn bit s.frame) then emitStage P s else s
  { emitted with frame := frameUpdate P bit s.frame }

end Sys2Proof.Machine
end

