-- ==== Sys2Proof/Machine/BitSync.lean ====
section
/-!
DEFINITION. BITSYNC, the bit synchroniser (43_bit_sync.md).
-/

namespace Sys2Proof.Machine

/-- `diff = filt1 - filt0` (R141). -/
def decisionDiff (f : Filters) : Val := f.filt1.minus f.filt0

/-- A bit boundary: no edge, and the countdown, down by one, is at or below 0 (R142). -/
def isBoundary (sample : Bool) (b : BitSync) : Bool :=
  !isEdge sample b.samplePrev && decide (b.syncCount - 1 ≤ 0)

/-- The countdown after the update (R142): `L div 2` on an edge, `L` on a boundary, else down by
one. -/
def nextCount (P : Params) (sample : Bool) (b : BitSync) : Int :=
  if isEdge sample b.samplePrev then (P.corrLen / 2 : ℕ)
  else if isBoundary sample b then P.corrLen
  else b.syncCount - 1

/-- BITSYNC on the synchroniser's own state (R140 to R144). -/
def syncUpdate (P : Params) (diff : Val) (b : BitSync) : BitSync :=
  let sample := decisionBit P diff
  { diff := diff
    curSample := sample
    samplePrev := sample
    syncCount := nextCount P sample b
    lastBit := if isBoundary sample b then sample else b.lastBit
    bitStrobe := if isBoundary sample b then true else b.bitStrobe }

/-- BITSYNC (R140): at a bit boundary the decision bit goes to the frame assembler in the same
step (R144). -/
def bitSyncStage (P : Params) (s : State) : State :=
  let diff := decisionDiff s.lpf
  let sample := decisionBit P diff
  let synced := { s with sync := syncUpdate P diff s.sync }
  if isBoundary sample s.sync then frameStage P sample synced else synced

end Sys2Proof.Machine
end

