-- ==== Sys2Proof/Machine/FrontEnd.lean ====
section
/-!
DEFINITION. The per-internal-sample pipeline, MIX, RESAMPLE and the SAMPLE command
(40_front_end.md).
-/

namespace Sys2Proof.Machine

/-- The stages that run on correlator updates only (R104, R124). -/
def onUpdate (P : Params) (s : State) : State := bitSyncStage P (lpfStage P s)

/-- `process(ci)`: the remaining stages on one internal sample, in the order of R104. -/
def process (P : Params) (ci : CVal) (s : State) : State :=
  let fm := discFreq P s ci
  let pw := powerEstimate ci
  let tapped := analyzerStage P fm (levelStage P pw (storePrev ci (clearStrobe s)))
  let correlated := corrStage P fm tapped
  let decided := if isUpdate P fm tapped.corr then onUpdate P correlated else correlated
  scopeStage P ci pw fm decided

/-- MIX, the mixed sample (R96): the phase is used before it is advanced. -/
def mixed (P : Params) (x : CVal) (s : State) : CVal :=
  P.num.mixFn x s.ncoAcc (unsignedHz s.cfg.inputRate)

/-- MIX, the phase (R96): `ncoAcc <- (ncoAcc + ncoStep) mod cfg.inputRate`. -/
def advancePhase (s : State) : State :=
  { s with ncoAcc := (s.ncoAcc + s.derived.ncoStep) % unsignedHz s.cfg.inputRate }

/-- RESAMPLE, history update (R99). -/
def pushMixed (m : CVal) (s : State) : State :=
  { s with rc := { s.rc with hist := pushNewest m s.rc.hist } }

/-- RESAMPLE, `rcAcc <- rcAcc - Fo` (R100). -/
def consumeInput (P : Params) (s : State) : State :=
  { s with rc := { s.rc with acc := s.rc.acc - P.internalRate } }

/-- `d = (-rcAcc) / Fo`, an exact rational (R100). -/
def outputDelay (P : Params) (s : State) : ℚ := (-s.rc.acc : ℤ) / (P.internalRate : ℚ)

/-- One output of RESAMPLE (R100, R101): its value, the pipeline on it, `rcAcc <- rcAcc + Fi`. -/
def resampleOne (P : Params) (s : State) : State :=
  let ci := P.num.rcFn s.derived.rcKernelCfg s.rc.hist (outputDelay P s)
  let done := process P ci s
  { done with rc := { done.rc with acc := done.rc.acc + unsignedHz done.cfg.inputRate } }

/-- `while rcAcc <= 0` (R100), at most `n` times round. -/
def resampleLoop (P : Params) : Nat → State → State
  | 0, s => s
  | n + 1, s => if s.rc.acc ≤ 0 then resampleLoop P n (resampleOne P s) else s

/-- How often the loop of R100 goes round from `acc` at rate `fi >= 1`: until `acc` plus that many
times `fi` is above 0 (log 12). -/
def loopBound (acc : Int) (fi : Nat) : Nat := if acc ≤ 0 then (-acc).toNat / fi + 1 else 0

/-- RESAMPLE (R99 to R101). -/
def resample (P : Params) (m : CVal) (s : State) : State :=
  let ready := consumeInput P (pushMixed m s)
  resampleLoop P (loopBound ready.rc.acc (unsignedHz ready.cfg.inputRate)) ready

/-- SAMPLE's effect on a configured block (R95): MIX, then RESAMPLE, which runs `process` once per
internal sample. -/
def feed (P : Params) (x : CVal) (s : State) : State := resample P (mixed P x s) (advancePhase s)

/-- SAMPLE on the instance `P` (R95, R98, R206). -/
def sampleOn (P : Params) (i q : BitVec 24) (s : State) : Result :=
  unlessFaulted s <|
    if s.configured then
      if s.cfg.inputRate = 0 then .fault .inputRateZero
      else .next (feed P (inputSample i q) s)
    else .next (raiseFault .notConfigured s)

/-- SAMPLE (R95). -/
def execSample (i q : BitVec 24) (s : State) : Result := sampleOn Config.params i q s

end Sys2Proof.Machine
end

