-- ==== Sys2Proof/Machine/Configure.lean ====
section
/-!
DEFINITION. The configuration commands SET and APPLY (45_configuration.md).
-/

namespace Sys2Proof.Machine

/-- SET on one key (R170): `stg[k] <- value`, `stgValid[k] <- 1`. -/
def stageKey (k : Key) (v : BitVec 32) (s : State) : State :=
  { s with stg := { value := putKey s.stg.value v k, valid := setValid s.stg.valid k } }

/-- SET (R170): ignored while faulted; no other condition, and no value is refused. -/
def setOn (k : Key) (v : BitVec 32) (s : State) : Result :=
  unlessFaulted s (.next (stageKey k v s))

/-- SET_OFFSET (R170): key 0. -/
def execSetOffset (v : BitVec 32) (s : State) : Result := setOn .offset v s

/-- SET_INPUT_RATE (R170): key 1. -/
def execSetInputRate (v : BitVec 32) (s : State) : Result := setOn .inputRate v s

/-- SET_RF_BW (R170): key 2. -/
def execSetRfBw (v : BitVec 32) (s : State) : Result := setOn .rfBandwidth v s

/-- SET_FM_DEV (R170): key 3. -/
def execSetFmDev (v : BitVec 32) (s : State) : Result := setOn .fmDeviation v s

/-- One key of the new configuration of a non-forced APPLY (R172). -/
def selectKey (mask : BitVec 4) (stg cfg : ChannelConfig) (k : Key) : BitVec 32 :=
  if maskHas mask k then getKey stg k else getKey cfg k

/-- The new configuration of a non-forced APPLY (R172): the active one with the masked keys taken
from staging. -/
def selectConfig (mask : BitVec 4) (stg cfg : ChannelConfig) : ChannelConfig where
  offset := selectKey mask stg cfg .offset
  inputRate := selectKey mask stg cfg .inputRate
  rfBandwidth := selectKey mask stg cfg .rfBandwidth
  fmDeviation := selectKey mask stg cfg .fmDeviation

/-- A changed key (R177): masked, and its new value differs from the active one. -/
def isChanged (mask : BitVec 4) (new cfg : ChannelConfig) (k : Key) : Bool :=
  maskHas mask k && getKey new k != getKey cfg k

/-- `ncoStep = (-cfg.offset) mod cfg.inputRate` (R25). -/
def ncoStepOf (c : ChannelConfig) : Nat :=
  ((-signedHz c.offset) % (unsignedHz c.inputRate : Int)).toNat

/-- `discScale = INTERNAL_RATE / (2 · cfg.fmDeviation)` (R26). -/
def discScaleOf (P : Params) (c : ChannelConfig) : Val :=
  .rat ((P.internalRate : ℚ) / (2 * (unsignedHz c.fmDeviation : ℚ)))

/-- `rcKernelCfg = (cfg.inputRate, cfg.rfBandwidth)` (R27). -/
def rcKernelOf (c : ChannelConfig) : BitVec 32 × BitVec 32 := (c.inputRate, c.rfBandwidth)

/-- `ncoStep` recomputed from the active configuration (R25). -/
def rebuildStep (s : State) : State :=
  { s with derived := { s.derived with ncoStep := ncoStepOf s.cfg } }

/-- `discScale` recomputed (R26, R117). -/
def rebuildScale (P : Params) (s : State) : State :=
  { s with derived := { s.derived with discScale := discScaleOf P s.cfg } }

/-- `rcKernelCfg` rebuilt (R27, R103). -/
def rebuildKernel (s : State) : State :=
  { s with derived := { s.derived with rcKernelCfg := rcKernelOf s.cfg } }

/-- The tone tables rebuilt (R120). -/
def rebuildTones (P : Params) (s : State) : State := { s with derived := toneBuild P s.derived }

/-- The effect of a changed offset (R176): the step; the phase is kept. -/
def offsetEffect (s : State) : State := rebuildStep s

/-- The effect of a changed input rate (R176): the step, the phase to 0, the kernel, a timing
restart; the history is kept. -/
def rateEffect (P : Params) (s : State) : State :=
  restartTiming P (rebuildKernel { rebuildStep s with ncoAcc := 0 })

/-- The effect of a changed bandwidth (R176): the kernel. -/
def bandwidthEffect (s : State) : State := rebuildKernel s

/-- The effect of a changed deviation (R176): the discriminator scale. -/
def deviationEffect (P : Params) (s : State) : State := rebuildScale P s

/-- The effect of one key, if it is changed (R176). -/
def keyEffect (P : Params) (s : State) : Key → State
  | .offset => offsetEffect s
  | .inputRate => rateEffect P s
  | .rfBandwidth => bandwidthEffect s
  | .fmDeviation => deviationEffect P s

/-- KEY_EFFECTS (R176) for the keys `ch` selects, on a state that already holds the new
configuration. -/
def keyEffects (P : Params) (ch : Key → Bool) (s : State) : State :=
  [Key.offset, .inputRate, .rfBandwidth, .fmDeviation].foldl
    (fun t k => if ch k then keyEffect P t k else t) s

/-- FORCE_REBUILD (R175): every derived value recomputed, all pipeline and tap state back to its
reset value; staging, configuration and status kept. -/
def forceRebuild (P : Params) (s : State) : State :=
  resetPipeline P (rebuildTones P (rebuildKernel (rebuildScale P (rebuildStep s))))

/-- A forced APPLY on a block that is not faulted (R171, R174). -/
def applyForced (P : Params) (s : State) : State :=
  if allStaged s.stg.valid then
    if configUnusable s.stg.value then raiseFault .configInvalid s
    else forceRebuild P { s with cfg := s.stg.value, configured := true }
  else raiseFault .notConfigured s

/-- A non-forced APPLY on a block that is not faulted (R171 to R173, R177). The valid bits are not
tested (R172; log 17). -/
def applySelected (P : Params) (mask : BitVec 4) (s : State) : State :=
  if s.configured then
    let new := selectConfig mask s.stg.value s.cfg
    if configUnusable new then raiseFault .configInvalid s
    else keyEffects P (isChanged mask new s.cfg) { s with cfg := new }
  else raiseFault .notConfigured s

/-- APPLY on the instance `P` (R171): every check comes before any write; under force the mask is
ignored (R74, R174). -/
def applyOn (P : Params) (force : Bool) (mask : BitVec 4) (s : State) : Result :=
  unlessFaulted s (.next (if force then applyForced P s else applySelected P mask s))

/-- APPLY (R171). -/
def execApply (force : Bool) (mask : BitVec 4) (s : State) : Result :=
  applyOn Config.params force mask s

end Sys2Proof.Machine
end

