-- ==== Sys2Proof/Machine/Reset.lean ====
section
/-!
DEFINITION. RESET (70_reset_and_hazards.md).
-/

namespace Sys2Proof.Machine

/-- The elements RESET leaves unspecified (R40, R220): each holds again what it holds at power-on,
which nothing is known of (log 6). -/
def forgetConfig (P : Params) (s : State) : State :=
  { s with
    stg := { value := P.unspecified.stg, valid := 0 }
    cfg := P.unspecified.cfg
    configured := false
    derived :=
      { ncoStep := P.unspecified.ncoStep.toNat
        discScale := P.unspecified.discScale
        rcKernelCfg := P.unspecified.rcKernelCfg
        toneRef0 := (List.range P.corrLen).map P.unspecified.toneRef0
        toneRef1 := (List.range P.corrLen).map P.unspecified.toneRef1 }
    scope := { s.scope with buf := (List.range P.scopeBatch).map P.unspecified.scopeSlot }
    ana := { s.ana with buf := (List.range P.analyzerBatch).map P.unspecified.anaSlot } }

/-- `fault <- 0`, `faultCode <- 0` (R220): only RESET does this (R38, R206). -/
def clearStatus (s : State) : State :=
  { s with status := { fault := false, code := FaultCode.none.code } }

/-- RESET on the instance `P` (R220), performed even while faulted. It emits no event and leaves
alone what stands at the ports. -/
def resetOn (P : Params) (s : State) : Result :=
  .next (clearStatus (resetPipeline P (forgetConfig P s)))

/-- RESET (R220). -/
def execReset (s : State) : Result := resetOn Config.params s

end Sys2Proof.Machine
end

