-- ==== Sys2Proof/Machine/Dispatch.lean ====
section
/-!
DEFINITION. The meaning of each command, one arm per constructor of `Instr` (R76).
-/

namespace Sys2Proof.Machine

def exec (i : Instr) (s : State) : Host.Outcome State Fault Refusal :=
  match i with
  | .reset => Sys2Proof.Machine.execReset s
  | .setOffset v => Sys2Proof.Machine.execSetOffset v s
  | .setInputRate v => Sys2Proof.Machine.execSetInputRate v s
  | .setRfBw v => Sys2Proof.Machine.execSetRfBw v s
  | .setFmDev v => Sys2Proof.Machine.execSetFmDev v s
  | .apply force mask => Sys2Proof.Machine.execApply force mask s
  | .sample re im => Sys2Proof.Machine.execSample re im s

end Sys2Proof.Machine
end

