-- ==== Sys2Proof/Machine/Step.lean ====
section
/-!
DEFINITION. One step: the next command of the stream, taken, decoded and performed (R5, R21, R70).
-/

namespace Sys2Proof.Machine

/-- One host command is one atomic step (R5). With no command delivered the block does nothing
(R216). An illegal word is not executed, in whole or in part (R203). -/
def step (s : State) : Host.Outcome State Fault Refusal :=
  match s.commands with
  | [] => .next s
  | w :: rest =>
    match decode w with
    | .ok i => exec i { s with commands := rest }
    | .error _ => illegalWord { s with commands := rest }

/-- `s` with a word delivered as the very next command (log 8). -/
def State.withFetchWord (s : State) (nbits w : Nat) : State :=
  { s with commands := BitVec.ofNat 64 (w % 2 ^ nbits) :: s.commands }

end Sys2Proof.Machine
end

