-- ==== Sys2Proof/WellFormed.lean ====
section
/-!
DEFINITION. Well-formedness. Every term of `Instr` is well formed by its type: an operand has
exactly the width of its field (R72), so no operand can be out of range and no reserved bit can
be set. What can be ill formed is an ASSEMBLY command (R81, R82), whose operands are integers:
one outside its range is refused, never wrapped.
-/

namespace Sys2Proof

/-- A command line of the assembler (R81) or a pseudo-instruction (R82), operands as written. -/
inductive AsmCommand where
  /-- `RESET` -/
  | reset
  /-- `SET.OFFSET <int>` -/
  | setOffset (hz : Int)
  /-- `SET.RATE <uint>` -/
  | setRate (hz : Int)
  /-- `SET.RFBW <uint>` -/
  | setRfBw (hz : Int)
  /-- `SET.FMDEV <uint>` -/
  | setFmDev (hz : Int)
  /-- `APPLY <mask>`: force 0. -/
  | apply (mask : Int)
  /-- `APPLY.FORCE`: force 1, mask 0xF. -/
  | applyForce
  /-- `SAMPLE <i>, <q>` -/
  | sample (i q : Int)
  /-- `CONFIG off, rate, bw, dev` -/
  | config (off rate bw dev : Int)
  /-- `RETUNE off` -/
  | retune (off : Int)
  /-- `SETRATE rate` -/
  | changeRate (rate : Int)
  /-- `SETBW bw` -/
  | changeBw (bw : Int)
  /-- `SETDEV dev` -/
  | changeDev (dev : Int)
deriving DecidableEq, Repr

/-- The range of an `<int>` operand of SET.OFFSET: `-2^31 .. 2^31-1` (R81). -/
def inS32 (v : Int) : Bool := decide (-(2 ^ 31) ≤ v ∧ v < 2 ^ 31)

/-- The range of a `<uint>` operand: `0 .. 2^32-1` (R81). -/
def inU32 (v : Int) : Bool := decide (0 ≤ v ∧ v < 2 ^ 32)

/-- The range of a SAMPLE component: `-2^23 .. 2^23-1` (R81). -/
def inS24 (v : Int) : Bool := decide (-(2 ^ 23) ≤ v ∧ v < 2 ^ 23)

/-- The range of an APPLY mask: `0 .. 15` (R81). -/
def inU4 (v : Int) : Bool := decide (0 ≤ v ∧ v < 16)

/-- Every operand of the command is in its range (R81; a pseudo-instruction's operands are those
of the commands it expands to, R82). -/
def AsmCommand.wellFormed : AsmCommand → Bool
  | .reset => true
  | .setOffset hz => inS32 hz
  | .setRate hz => inU32 hz
  | .setRfBw hz => inU32 hz
  | .setFmDev hz => inU32 hz
  | .apply mask => inU4 mask
  | .applyForce => true
  | .sample i q => inS24 i && inS24 q
  | .config off rate bw dev => inS32 off && inU32 rate && inU32 bw && inU32 dev
  | .retune off => inS32 off
  | .changeRate rate => inU32 rate
  | .changeBw bw => inU32 bw
  | .changeDev dev => inU32 dev

end Sys2Proof
end

