-- ==== Sys2Proof/Machine/Assembler.lean ====
section
/-!
DEFINITION. The assembler of R81 to R83: from a line of text to command words. An operand outside
its range is refused, never wrapped.
-/

namespace Sys2Proof

/-- The commands an assembly command stands for (R81, R82). -/
def AsmCommand.expand : AsmCommand → List Instr
  | .reset => [.reset]
  | .setOffset hz => [.setOffset (BitVec.ofInt 32 hz)]
  | .setRate hz => [.setInputRate (BitVec.ofInt 32 hz)]
  | .setRfBw hz => [.setRfBw (BitVec.ofInt 32 hz)]
  | .setFmDev hz => [.setFmDev (BitVec.ofInt 32 hz)]
  | .apply mask => [.apply false (BitVec.ofInt 4 mask)]
  | .applyForce => [.apply true 0xF]
  | .sample i q => [.sample (BitVec.ofInt 24 i) (BitVec.ofInt 24 q)]
  | .config off rate bw dev =>
    [.setOffset (BitVec.ofInt 32 off), .setInputRate (BitVec.ofInt 32 rate),
      .setRfBw (BitVec.ofInt 32 bw), .setFmDev (BitVec.ofInt 32 dev), .apply true 0xF]
  | .retune off => [.setOffset (BitVec.ofInt 32 off), .apply false 0x1]
  | .changeRate rate => [.setInputRate (BitVec.ofInt 32 rate), .apply false 0x2]
  | .changeBw bw => [.setRfBw (BitVec.ofInt 32 bw), .apply false 0x4]
  | .changeDev dev => [.setFmDev (BitVec.ofInt 32 dev), .apply false 0x8]

/-- The words of an assembly command, if every operand is in range (R81). -/
def assemble (c : AsmCommand) : Option (List Word) :=
  if c.wellFormed then some (c.expand.map encode) else none

/-- The part of a line before its comment (R81: a semicolon starts one). -/
def beforeComment (l : List Char) : List Char := l.takeWhile (· != ';')

/-- A space or a tab (PRESUMED, log 15). -/
def isBlank (c : Char) : Bool := c == ' ' || c == '\t'

/-- A text without the blanks around it. -/
def trim (l : List Char) : List Char := ((l.dropWhile isBlank).reverse.dropWhile isBlank).reverse

/-- The pieces of a text between separators. -/
def pieces (sep : Char) : List Char → List (List Char)
  | [] => [[]]
  | c :: rest =>
    match pieces sep rest with
    | [] => [[c]]
    | p :: ps => if c == sep then [] :: p :: ps else (c :: p) :: ps

/-- A decimal digit's value. -/
def digit? (c : Char) : Option Nat :=
  if '0'.toNat ≤ c.toNat ∧ c.toNat ≤ '9'.toNat then some (c.toNat - '0'.toNat) else none

/-- Decimal digits read after `n`. -/
def digitsFrom (n : Nat) : List Char → Option Nat
  | [] => some n
  | c :: rest =>
    match digit? c with
    | some d => digitsFrom (10 * n + d) rest
    | none => none

/-- `<uint>`: one or more decimal digits, leading zeros allowed (PRESUMED, log 15). -/
def readNat? (l : List Char) : Option Int :=
  if l.isEmpty then none else (digitsFrom 0 l).map Int.ofNat

/-- `<int>`: a `<uint>`, with a minus sign before it or not, so `-0` is 0 (PRESUMED, log 15). -/
def readInt? : List Char → Option Int
  | '-' :: rest => (readNat? rest).map (- ·)
  | l => readNat? l

/-- A key's name in an APPLY mask (R81). -/
def keyName? (l : List Char) : Option Nat :=
  if l = ['o', 'f', 'f', 's', 'e', 't'] then some 0x1
  else if l = ['r', 'a', 't', 'e'] then some 0x2
  else if l = ['r', 'f', 'b', 'w'] then some 0x4
  else if l = ['f', 'm', 'd', 'e', 'v'] then some 0x8
  else none

/-- The mask of a list of key names. R81 does not say whether a name may be repeated, nor whether
blanks may stand around the `+`. DESIGN CHOICE (log 22): both are accepted; a name repeated sets its
bit once, as `offset+offset` is `offset`. -/
def keyNames? : List (List Char) → Option Nat
  | [] => some 0
  | l :: rest =>
    match keyName? (trim l), keyNames? rest with
    | some k, some m => some (k ||| m)
    | _, _ => none

/-- `<mask>`: a number, or key names with `+` between them (R81; repeated names and blanks: log 22). -/
def readMask? (l : List Char) : Option Int :=
  match readNat? l with
  | some m => some m
  | none => (keyNames? (pieces '+' l)).map Int.ofNat

/-- A mnemonic and its operands. -/
def readCommand? (name : List Char) (args : List (List Char)) : Option AsmCommand :=
  match args with
  | [] =>
    if name = ['R', 'E', 'S', 'E', 'T'] then some .reset
    else if name = ['A', 'P', 'P', 'L', 'Y', '.', 'F', 'O', 'R', 'C', 'E'] then some .applyForce
    else none
  | [a] =>
    if name = ['S', 'E', 'T', '.', 'O', 'F', 'F', 'S', 'E', 'T'] then (readInt? a).map .setOffset
    else if name = ['S', 'E', 'T', '.', 'R', 'A', 'T', 'E'] then (readNat? a).map .setRate
    else if name = ['S', 'E', 'T', '.', 'R', 'F', 'B', 'W'] then (readNat? a).map .setRfBw
    else if name = ['S', 'E', 'T', '.', 'F', 'M', 'D', 'E', 'V'] then (readNat? a).map .setFmDev
    else if name = ['A', 'P', 'P', 'L', 'Y'] then (readMask? a).map .apply
    else if name = ['R', 'E', 'T', 'U', 'N', 'E'] then (readInt? a).map .retune
    else if name = ['S', 'E', 'T', 'R', 'A', 'T', 'E'] then (readNat? a).map .changeRate
    else if name = ['S', 'E', 'T', 'B', 'W'] then (readNat? a).map .changeBw
    else if name = ['S', 'E', 'T', 'D', 'E', 'V'] then (readNat? a).map .changeDev
    else none
  | [a, b] =>
    if name = ['S', 'A', 'M', 'P', 'L', 'E'] then
      match readInt? a, readInt? b with
      | some i, some q => some (.sample i q)
      | _, _ => none
    else none
  | [a, b, c, d] =>
    if name = ['C', 'O', 'N', 'F', 'I', 'G'] then
      match readInt? a, readNat? b, readNat? c, readNat? d with
      | some off, some rate, some bw, some dev => some (.config off rate bw dev)
      | _, _, _, _ => none
    else none
  | _ => none

/-- One line of assembly (R81): its words, none for a blank or comment line; `none` where the
assembler refuses it. -/
def assembleLine (line : List Char) : Option (List Word) :=
  let text := trim (beforeComment line)
  if text.isEmpty then some []
  else
    let name := text.takeWhile (!isBlank ·)
    let rest := trim (text.dropWhile (!isBlank ·))
    let args := if rest.isEmpty then [] else (pieces ',' rest).map trim
    (readCommand? name args).bind assemble

end Sys2Proof
end

