-- ==== Sys2Proof/Machine/Reference.lean ====
section
/-!
DEFINITION. The reference instance of NUM: exact real and complex arithmetic (R13 to R15), with the
comparison of R16 and the truncation of R189 on every value. On values written as rationals both
compute, so the test vectors of the spec, whose values are rational, can be evaluated on it.
-/

namespace Sys2Proof

/-- The exact-arithmetic instance of NUM, the reference (R15); its `rcFn` is RC_KERNEL (R101). -/
def Num.exact (kernel : RcKernel) : Num where
  mixFn := exactMix
  rcFn := kernel
  discFn := exactDisc
  corrFn := exactCorr
  lpfFn := exactLpf

/-- The comparison `v >= 0` of the real numbers (R16). -/
noncomputable def exactGeZero (ρ : Nat → ℝ) : Val → Bool
  | .rat q => decide (0 ≤ q)
  | v => decide (0 ≤ v.toReal ρ)

/-- The truncation of the real numbers (R189). -/
noncomputable def exactTrunc (ρ : Nat → ℝ) : Val → Int
  | .rat q => truncRat q
  | v => truncReal (v.toReal ρ)

theorem exactGeZero_iff (ρ : Nat → ℝ) (v : Val) : exactGeZero ρ v = true ↔ 0 ≤ v.toReal ρ := by
  cases v with
  | rat q => simp [exactGeZero, Val.toReal]
  | _ => exact decide_eq_true_iff

theorem exactTrunc_eq (ρ : Nat → ℝ) (v : Val) : exactTrunc ρ v = truncReal (v.toReal ρ) := by
  cases v with
  | rat q => simp [exactTrunc, Val.toReal, truncReal_rat]
  | _ => rfl

/-- The comparison of the reference: every value is a number. It exists over any reals and beside any
stage functions, so that `Comparison` shuts out no instance. -/
noncomputable def Comparison.exact (ρ : Nat → ℝ) (num : Num) : Comparison ρ num where
  geZeroFn := exactGeZero ρ
  IsNumber _ := True
  rat_isNumber _ := trivial
  negZero_isNumber := trivial
  plus_isNumber _ _ _ _ := trivial
  times_isNumber _ _ _ _ := trivial
  rcFn_isNumber _ _ _ := ⟨trivial, trivial⟩
  discFn_isNumber _ _ := trivial
  lpfFn_isNumber _ _ := trivial
  geZero_iff v _ := exactGeZero_iff ρ v

/-- The truncation of the reference; it exists for any numbers and any scale. -/
noncomputable def Truncation.exact (ρ : Nat → ℝ) (IsNumber : Val → Prop) (scale : Val) :
    Truncation ρ IsNumber scale where
  truncFn := exactTrunc ρ
  trunc_eq _ _ := exactTrunc_eq ρ _

/-- The real number a value is in the instance `P` (R13). -/
noncomputable abbrev Params.real (P : Params) (v : Val) : ℝ := v.toReal P.constant

/-- The complex number a complex value is in the instance `P` (R13). -/
noncomputable abbrev Params.complex (P : Params) (z : CVal) : ℂ := z.toComplex P.constant

/-- An instance whose NUM is the reference and which compares every value (R15). A claim about exact
arithmetic takes this as a premise; a claim about another realisation names what it assumes of its
functions. -/
def Params.IsReference (P : Params) : Prop :=
  P.num = Num.exact P.rcKernel ∧ ∀ v, P.compare.IsNumber v

end Sys2Proof
end

