-- ==== Sys2Proof/Machine/Elaborate.lean ====
section
/-!
DEFINITION. Elaboration: the parameter table of R6 as numbers, the admission check of R7 (D32),
and the test instance TI of R8.
-/

namespace Sys2Proof

/-- A parameter set as written, before the check (R6). -/
structure RawParams where
  constant : Nat → ℝ
  internalRate : Nat
  baud : Nat
  tone0 : Val
  tone1 : Val
  syncPattern : Nat
  lpfTaps : List Val
  rcHist : Nat
  rcKernel : RcKernel
  levelN : Nat
  scopeBatch : Nat
  analyzerBatch : Nat
  analyzerScale : Val
  num : Num
  compare : Comparison constant num
  truncate : Truncation constant compare.IsNumber analyzerScale
  unspecified : Unspecified
  timestamp : Nat → Word

/-- The admission check of R7. A BAUD of 0, which R6 does not allow, gives the ratio 0 and fails the
bound on `L`. -/
abbrev RawParams.Admitted (r : RawParams) : Prop :=
  r.internalRate % r.baud = 0 ∧ (1 ≤ r.internalRate / r.baud ∧ r.internalRate / r.baud ≤ 65535) ∧
    r.syncPattern < 2 ^ 16 ∧ 1 ≤ r.lpfTaps.length ∧ 1 ≤ r.rcHist ∧ 1 ≤ r.levelN ∧
    1 ≤ r.scopeBatch ∧ 1 ≤ r.analyzerBatch

/-- A BAUD that gives an `L` of at least 1 is positive. -/
theorem RawParams.Admitted.baud_pos {r : RawParams} (h : r.Admitted) : 0 < r.baud := by
  rcases Nat.eq_zero_or_pos r.baud with h0 | h0
  · have := h.2.1.1
    simp [h0] at this
  · exact h0

/-- The instance built from a parameter set; a set R7 does not admit is refused, and no instance is
built from it (R7, 93 I11). -/
def elaborate (r : RawParams) : Option Params :=
  if h : r.Admitted then
    some
      { constant := r.constant
        baud := ⟨r.baud, h.baud_pos⟩
        corrLenPred := ⟨r.internalRate / r.baud - 1, by have := h.2.1; omega⟩
        tone0 := r.tone0
        tone1 := r.tone1
        syncPattern := BitVec.ofNat 16 r.syncPattern
        lpfTap0 := r.lpfTaps.headD (.rat 0)
        lpfTapsRest := r.lpfTaps.tail
        rcHistLen := ⟨r.rcHist, h.2.2.2.2.1⟩
        rcKernel := r.rcKernel
        levelN := ⟨r.levelN, h.2.2.2.2.2.1⟩
        scopeBatch := ⟨r.scopeBatch, h.2.2.2.2.2.2.1⟩
        analyzerBatch := ⟨r.analyzerBatch, h.2.2.2.2.2.2.2⟩
        analyzerScale := r.analyzerScale
        num := r.num
        compare := r.compare
        truncate := r.truncate
        unspecified := r.unspecified
        timestamp := r.timestamp }
  else none

/-- The parameter set an instance was built from. -/
def Params.raw (P : Params) : RawParams where
  constant := P.constant
  internalRate := P.internalRate
  baud := P.baud
  tone0 := P.tone0
  tone1 := P.tone1
  syncPattern := P.syncPattern.toNat
  lpfTaps := P.lpfTaps
  rcHist := P.rcHistLen
  rcKernel := P.rcKernel
  levelN := P.levelN
  scopeBatch := P.scopeBatch
  analyzerBatch := P.analyzerBatch
  analyzerScale := P.analyzerScale
  num := P.num
  compare := P.compare
  truncate := P.truncate
  unspecified := P.unspecified
  timestamp := P.timestamp

/-- The zero-order hold: TI's RC_KERNEL, for every configuration and every `d` (R8). -/
def zeroOrderHold : RcKernel := fun _ hist _ => hist.headD ⟨.rat 0, .rat 0⟩

/-- The parameter set of TI (R8), over the unspecified values and the timestamp draws, which R8
leaves open. It names no real number but rationals. -/
noncomputable def tiRaw (u : Unspecified) (ts : Nat → Word) : RawParams where
  constant _ := 0
  internalRate := 4800
  baud := 1200
  tone0 := .rat 1200
  tone1 := .rat 2400
  syncPattern := 0x1234
  lpfTaps := [.rat 1]
  rcHist := 1
  rcKernel := zeroOrderHold
  levelN := 4
  scopeBatch := 8
  analyzerBatch := 8
  analyzerScale := .rat 1000
  num := Num.exact zeroOrderHold
  compare := Comparison.exact _ _
  truncate := Truncation.exact _ _ _
  unspecified := u
  timestamp := ts

/-- TI elaborated (R8): `INTERNAL_RATE = 4800`, `BAUD = 1200`, `L = 4`, NUM the reference. -/
noncomputable def tiParams (u : Unspecified) (ts : Nat → Word) : Params where
  constant _ := 0
  baud := 1200
  corrLenPred := 3
  tone0 := .rat 1200
  tone1 := .rat 2400
  syncPattern := 0x1234
  lpfTap0 := .rat 1
  lpfTapsRest := []
  rcHistLen := 1
  rcKernel := zeroOrderHold
  levelN := 4
  scopeBatch := 8
  analyzerBatch := 8
  analyzerScale := .rat 1000
  num := Num.exact zeroOrderHold
  compare := Comparison.exact _ _
  truncate := Truncation.exact _ _ _
  unspecified := u
  timestamp := ts

/-- TI with some unspecified values and some timestamps, for the tests (log 14). -/
noncomputable def ti : Params := tiParams default (fun n => BitVec.ofNat 64 n)

end Sys2Proof
end

