-- ==== Sys2Proof/Machine/HostPort.lean ====
section
/-!
DEFINITION. What the host can do between two commands (R217), and what it can see (R42).
-/

namespace Sys2Proof.Machine

/-- The host sends one command word; words are taken in arrival order (R5, R217). -/
def deliver (w : Word) (s : State) : State := { s with commands := s.commands ++ [w] }

/-- The status output, always visible (R38). -/
def statusOutput (s : State) : Bool × BitVec 8 := (s.status.fault, s.status.code)

/-- The level output: `levelAvg` and `levelPeak`; sampling it has no side effect (R185). -/
def levelOutput (s : State) : Val × Val := (s.level.avg, s.level.peak)

/-- The host drops (or takes) the oldest packet event: no state of the block changes (R159; log 20). -/
def dropPacket (s : State) : State := { s with packetOut := s.packetOut.tail }

/-- The host drops (or takes) the oldest scope batch (R192). -/
def dropScope (s : State) : State := { s with scopeOut := s.scopeOut.tail }

/-- The host drops (or takes) the oldest analyzer batch (R192). -/
def dropAnalyzer (s : State) : State := { s with analyzerOut := s.analyzerOut.tail }

/-- The block without its output traces: what R159 and R192 say does not depend on consumers. -/
def forgetOutputs (s : State) : State :=
  { s with packetOut := [], scopeOut := [], analyzerOut := [] }

/-- The outcome without its output traces. -/
def forgetOutputsOf : Result → Result
  | .next s => .next (forgetOutputs s)
  | .fault f => .fault f
  | .refused r => .refused r

end Sys2Proof.Machine
end

