-- ==== Sys2Proof/Machine/System.lean ====
section
/-!
DEFINITION. The block over any instance's parameters, and a system of instances (R43, R214). The
machine of the fixed names is the instance `Config.params`.
-/

namespace Sys2Proof.Machine

/-- The meaning of a command on the instance `P`. -/
def execOn (P : Params) (i : Instr) (s : State) : Result :=
  match i with
  | .reset => resetOn P s
  | .setOffset v => setOn .offset v s
  | .setInputRate v => setOn .inputRate v s
  | .setRfBw v => setOn .rfBandwidth v s
  | .setFmDev v => setOn .fmDeviation v s
  | .apply force mask => applyOn P force mask s
  | .sample re im => sampleOn P re im s

/-- One step of the instance `P`. -/
def stepOn (P : Params) (s : State) : Result :=
  match s.commands with
  | [] => .next s
  | w :: rest =>
    match decode w with
    | .ok i => execOn P i { s with commands := rest }
    | .error _ => illegalWord { s with commands := rest }

/-- One block of a system: its parameters and its own copy of all the state (R43). -/
structure Block where
  params : Params
  state : State

/-- A system holds any number of instances (R214; log 19). -/
abbrev System := List Block

/-- Instance `n` performs its next command; a block that is not there does nothing. -/
def System.stepAt (sys : System) (n : Nat) : Host.Outcome System Fault Refusal :=
  match sys[n]? with
  | none => .next sys
  | some b =>
    match stepOn b.params b.state with
    | .next s => .next (sys.set n { b with state := s })
    | .fault f => .fault f
    | .refused r => .refused r

end Sys2Proof.Machine
end

