-- ==== Sys2Proof/Safety.lean ====
section
/-!
DEFINITION. What every state the block can reach looks like (R41, with the widths of R22 to R38
and the array sizes of R51), what a safe run is, and
the relations between states that the whole-block claims are stated in.
-/

namespace Sys2Proof.Machine

/-- The status registers hold a legal pair: a fault has one of the codes 1 to 3, no fault has
code 0 (R38, R201). -/
def StatusLegal (t : Status) : Prop :=
  (t.fault = true ∧ 1 ≤ t.code.toNat ∧ t.code.toNat ≤ 3) ∨ (t.fault = false ∧ t.code = 0)

/-- The derived configuration is what the active configuration says (R25 to R28, R62). -/
structure DerivedCurrent (P : Params) (c : ChannelConfig) (d : Derived) : Prop where
  step : d.ncoStep = ncoStepOf c
  scale : d.discScale = discScaleOf P c
  kernel : d.rcKernelCfg = rcKernelOf c
  tone0 : d.toneRef0 = toneTable P P.tone0
  tone1 : d.toneRef1 = toneTable P P.tone1

/-- The internal arrays have the sizes of R51. -/
structure ArraysSized (P : Params) (s : State) : Prop where
  rcHist : s.rc.hist.length = P.rcHistLen
  levelHist : s.level.hist.length = P.levelN
  ring : s.corr.ring.length = P.corrLen
  lpfHist0 : s.lpf.hist0.length = P.lpfN
  lpfHist1 : s.lpf.hist1.length = P.lpfN
  bytes : s.frame.bytes.length = payloadLen
  scopeBuf : s.scope.buf.length = P.scopeBatch
  anaBuf : s.ana.buf.length = P.analyzerBatch
  toneRef0 : s.derived.toneRef0.length = P.corrLen
  toneRef1 : s.derived.toneRef1.length = P.corrLen

/-- The frame assembler between commands (R41): in SEARCHING at most 16 bits are held and no byte,
in RECEIVING at most 7 bits, and the accumulator holds no more than the bits counted. -/
structure FrameLegal (f : Framer) : Prop where
  searching : f.gotSOP = false → f.bitCount ≤ 16 ∧ f.byteCount = 0
  receiving : f.gotSOP = true → f.bitCount ≤ 7
  held : f.bits.toNat < 2 ^ f.bitCount
  stored : f.byteCount ≤ payloadLen

/-- A configured block (R22, R24, R41, R204): all keys staged, a usable configuration, derived
values in step with it, the phase and the timing accumulator in range. -/
structure ConfigLegal (P : Params) (s : State) : Prop where
  staged : allStaged s.stg.valid = true
  usable : configUnusable s.cfg = false
  derived : DerivedCurrent P s.cfg s.derived
  phase : s.ncoAcc < unsignedHz s.cfg.inputRate
  timing : s.rc.acc ≤ max (unsignedHz s.cfg.inputRate) P.internalRate

/-- Every index and counter is in its range (R33, R35, R37, R41). `corrCnt` is below `L` between
commands, since R124 takes one away whenever it reaches `L`. -/
structure CountersInRange (P : Params) (s : State) : Prop where
  timing : 0 < s.rc.acc
  levelIdx : s.level.idx < P.levelN
  corrIdx : s.corr.idx < P.corrLen
  corrCnt : s.corr.cnt < P.corrLen
  syncCount : 0 ≤ s.sync.syncCount ∧ s.sync.syncCount ≤ P.corrLen
  scopeCnt : s.scope.cnt < P.scopeBatch
  anaCnt : s.ana.cnt < P.analyzerBatch

/-- The invariant of R41: it holds at power-on, every command keeps it, and no state in which it
holds makes a command stop. -/
structure Inv (P : Params) (s : State) : Prop where
  status : StatusLegal s.status
  arrays : ArraysSized P s
  counters : CountersInRange P s
  frame : FrameLegal s.frame
  config : s.configured = true → ConfigLegal P s

/-- The states a run of `step` from power-on reaches, the host delivering any words between
commands (R217). -/
inductive Reachable : State → Prop where
  | reset : Reachable State.reset
  | deliver (w : Word) (s : State) : Reachable s → Reachable (deliver w s)
  | step (s t : State) : Reachable s → step s = .next t → Reachable t

/-- A safe run so far: the block has recorded no fault (R38). -/
def Safe (s : State) : Prop := s.status.fault = false

/-- The peak the level meter holds is a number of the instance (R32, `Comparison.IsNumber`): 0 or one of
the powers it has compared. -/
def PeakIsNumber (P : Params) (s : State) : Prop := P.compare.IsNumber s.level.peak

/-- Several commands one after another, up to the first stop (R5, R59). -/
def performAll : List Instr → State → Result
  | [], s => .next s
  | i :: is, s =>
    match exec i s with
    | .next t => performAll is t
    | .fault f => .fault f
    | .refused r => .refused r

/-- `process` on several internal samples, in order (R104). -/
def processAll (P : Params) (cis : List CVal) (s : State) : State :=
  cis.foldl (fun t ci => process P ci t) s

/-- FRAME on several recovered bits, in order (R150). -/
def frameAll (P : Params) (bits : List Bool) (s : State) : State :=
  bits.foldl (fun t b => frameStage P b t) s

/-- A window of recovered bits, oldest first, is the sync word: 17 bits, the first 16 SYNC_PATTERN
from its least significant bit up, the last 0 (R153, R160). -/
def IsSyncWord (P : Params) (w : List Bool) : Prop :=
  w.length = 17 ∧ (∀ i, i < 16 → w[i]? = some (P.syncPattern.getLsbD i)) ∧ w[16]? = some false

/-- The number a list of bits writes, the first the least significant (R52, R163). -/
def lsbFirst : List Bool → Nat
  | [] => 0
  | b :: bs => b.toNat + 2 * lsbFirst bs

/-- Equal but for the taps' own state and the taps' ports (R191). -/
def SameButTaps (s t : State) : Prop :=
  { s with
    level := t.level, scope := t.scope, ana := t.ana,
    scopeOut := t.scopeOut, analyzerOut := t.analyzerOut } = t

/-- Equal in everything some rule may read: they may differ in a staging register whose valid bit
is 0, in `cfg` and the derived values before the first forced APPLY, and in tap slots not written
since the last reset or force (R24, R40, 93 I13). -/
structure SameWhereDefined (P : Params) (s t : State) : Prop where
  rest :
    { s with stg := t.stg, cfg := t.cfg, derived := t.derived, scope := t.scope, ana := t.ana } = t
  valid : s.stg.valid = t.stg.valid
  staged : ∀ k : Key, s.stg.valid.getLsbD k.index = true → getKey s.stg.value k = getKey t.stg.value k
  active : s.configured = true → s.cfg = t.cfg ∧ s.derived = t.derived ∧ allStaged s.stg.valid = true
  scopeCnt : s.scope.cnt = t.scope.cnt
  scopeLen : s.scope.buf.length = P.scopeBatch ∧ t.scope.buf.length = P.scopeBatch
  scopeBuf : s.scope.buf.take s.scope.cnt = t.scope.buf.take t.scope.cnt
  anaCnt : s.ana.cnt = t.ana.cnt
  anaLen : s.ana.buf.length = P.analyzerBatch ∧ t.ana.buf.length = P.analyzerBatch
  anaBuf : s.ana.buf.take s.ana.cnt = t.ana.buf.take t.ana.cnt

/-- `b` is `c` times `a`, as real numbers. -/
def Scaled (ρ : Nat → ℝ) (c : ℝ) (a b : Val) : Prop := b.toReal ρ = c * a.toReal ρ

/-- Two runs whose discriminator scales differ by the factor `c` (R116): everything after the
discriminator that is linear in its output differs by `c`, the decisions, bits, frames and packets
are the same. The level meter and the taps are not compared. -/
structure ScaledDatapath (ρ : Nat → ℝ) (c : ℝ) (s t : State) : Prop where
  status : s.status = t.status
  configured : s.configured = t.configured
  inputRate : s.cfg.inputRate = t.cfg.inputRate
  ncoStep : s.derived.ncoStep = t.derived.ncoStep
  kernel : s.derived.rcKernelCfg = t.derived.rcKernelCfg
  tones : s.derived.toneRef0 = t.derived.toneRef0 ∧ s.derived.toneRef1 = t.derived.toneRef1
  discScale : Scaled ρ c s.derived.discScale t.derived.discScale
  ncoAcc : s.ncoAcc = t.ncoAcc
  rc : s.rc = t.rc
  discPrev : s.discPrev = t.discPrev
  ring : List.Forall₂ (Scaled ρ c) s.corr.ring t.corr.ring
  corrIdx : s.corr.idx = t.corr.idx
  corrCnt : s.corr.cnt = t.corr.cnt
  mag0 : Scaled ρ c s.corr.mag0 t.corr.mag0
  mag1 : Scaled ρ c s.corr.mag1 t.corr.mag1
  hist0 : List.Forall₂ (Scaled ρ c) s.lpf.hist0 t.lpf.hist0
  hist1 : List.Forall₂ (Scaled ρ c) s.lpf.hist1 t.lpf.hist1
  filt0 : Scaled ρ c s.lpf.filt0 t.lpf.filt0
  filt1 : Scaled ρ c s.lpf.filt1 t.lpf.filt1
  diff : Scaled ρ c s.sync.diff t.sync.diff
  decisions : { s.sync with diff := t.sync.diff } = t.sync
  frame : s.frame = t.frame
  tsDraws : s.tsDraws = t.tsDraws
  packets : s.packetOut = t.packetOut

end Sys2Proof.Machine
end

