-- ==== Sys2Proof/Certificates/Slice0/Obligations.lean ====
section
/-!
DEFINITION. The statements for the provers, from the numbered rules of spec/. Each docstring says
which rule a statement formalises. A statement about `exec` is about the instance `Config.params`,
which is uninterpreted; one that takes `P` holds for every instance, and one about exact arithmetic
takes `P.IsReference`.
-/

open Sys2Proof Sys2Proof.Machine

/-! ### Encoding -/

/-- R83: the encoding examples. Each line of assembly assembles to its word, and the word decodes to
the command. -/
def Obligations.SpecExampleWordsDecode : Prop :=
  ∀ e ∈ ([ ("RESET", 0x0100000000000000#64, .reset),
      ("SET.OFFSET -1200", 0x02000000FFFFFB50#64, .setOffset (-1200)),
      ("SET.RATE 4800", 0x03000000000012C0#64, .setInputRate 4800),
      ("SET.RFBW 2400", 0x0400000000000960#64, .setRfBw 2400),
      ("SET.FMDEV 2400", 0x0500000000000960#64, .setFmDev 2400),
      ("APPLY offset", 0x0600000000000001#64, .apply false 0b0001),
      ("APPLY rate+rfbw", 0x0600000000000006#64, .apply false 0b0110),
      ("APPLY.FORCE", 0x060000000000010F#64, .apply true 0b1111),
      ("SAMPLE 1000, 0", 0x07000003E8000000#64, .sample 1000 0),
      ("SAMPLE 0, 1000", 0x07000000000003E8#64, .sample 0 1000),
      ("SAMPLE -1000, 0", 0x0700FFFC18000000#64, .sample (-1000) 0),
      ("SAMPLE 0, -1000", 0x0700000000FFFC18#64, .sample 0 (-1000)) ] :
        List (String × Word × Instr)),
    assembleLine e.1.toList = some [e.2.1] ∧ decode e.2.1 = .ok e.2.2

/-- Decoding the word of a command gives the command back, every operand at every value. -/
def Obligations.DecodeOfEncodeIsTheCommand : Prop :=
  ∀ i : Instr, decode (encode i) = .ok i

/-- A word that decodes is the word of what it decodes to: no bit is ignored (R79). -/
def Obligations.EncodeOfDecodeIsTheWord : Prop :=
  ∀ (w : Word) (i : Instr), decode w = .ok i → encode i = w

/-- R78, in arithmetic on the word as a number: which words are legal, which command each is, and
how its operands read (R73, R75); every other word is illegal. -/
def Obligations.DecodeFollowsTheFormats : Prop :=
  ∀ w : Word,
    let n := w.toNat
    let op := n / 2 ^ 56
    (op = 1 → n % 2 ^ 56 = 0 → decode w = .ok .reset) ∧
    (op = 2 → n / 2 ^ 32 % 2 ^ 24 = 0 →
      ∃ v, decode w = .ok (.setOffset v) ∧ signedHz v = Int.bmod (n : Int) (2 ^ 32)) ∧
    (op = 3 → n / 2 ^ 32 % 2 ^ 24 = 0 →
      ∃ v, decode w = .ok (.setInputRate v) ∧ unsignedHz v = n % 2 ^ 32) ∧
    (op = 4 → n / 2 ^ 32 % 2 ^ 24 = 0 →
      ∃ v, decode w = .ok (.setRfBw v) ∧ unsignedHz v = n % 2 ^ 32) ∧
    (op = 5 → n / 2 ^ 32 % 2 ^ 24 = 0 →
      ∃ v, decode w = .ok (.setFmDev v) ∧ unsignedHz v = n % 2 ^ 32) ∧
    (op = 6 → n / 2 ^ 9 % 2 ^ 47 = 0 → n / 2 ^ 4 % 2 ^ 4 = 0 →
      ∃ mask, decode w = .ok (.apply (decide (n / 2 ^ 8 % 2 = 1)) mask) ∧ mask.toNat = n % 2 ^ 4) ∧
    (op = 7 → n / 2 ^ 48 % 2 ^ 8 = 0 →
      ∃ i q, decode w = .ok (.sample i q) ∧
        inputSample i q = CVal.ofInts (Int.bmod ((n / 2 ^ 24 : ℕ) : Int) (2 ^ 24))
          (Int.bmod (n : Int) (2 ^ 24))) ∧
    (¬(op = 1 ∧ n % 2 ^ 56 = 0) → ¬(2 ≤ op ∧ op ≤ 5 ∧ n / 2 ^ 32 % 2 ^ 24 = 0) →
      ¬(op = 6 ∧ n / 2 ^ 9 % 2 ^ 47 = 0 ∧ n / 2 ^ 4 % 2 ^ 4 = 0) →
      ¬(op = 7 ∧ n / 2 ^ 48 % 2 ^ 8 = 0) → ∃ e, decode w = .error e)

/-- R77: each command is identified by `w & mask = match`. A row identifies a word exactly when the
word decodes to that row's command, so no word matches two rows, and an illegal one none. -/
def Obligations.MatchAndMaskIdentifyTheCommand : Prop :=
  ∀ (r : OpcodeRow) (w : Word), r ∈ opcodeTable →
    (r.identifies w = true ↔ ∃ i, decode w = .ok i ∧ i.mnemonic = r.mnemonic)

/-! ### The step -/

/-- A step runs the decoded command: it takes the next word of the stream, and performs it as one
step; with no command delivered the block does nothing (R5, R216). -/
def Obligations.StepRunsTheDecodedCommand : Prop :=
  ∀ s : State,
    (∀ w rest i, s.commands = w :: rest → decode w = .ok i →
      step s = exec i { s with commands := rest }) ∧
    (∀ w rest e, s.commands = w :: rest → decode w = .error e →
      step s = illegalWord { s with commands := rest }) ∧
    (s.commands = [] → step s = .next s)

/-- R203: opcode 0x00, opcodes 0x08 to 0xFF, and an assigned opcode with a reserved bit set raise
`ILLEGAL_COMMAND`, and the word is not executed, in whole or in part. -/
def Obligations.IllegalWordsRaiseIllegalCommand : Prop :=
  ∀ (s : State) (w : Word) (rest : List Word), s.commands = w :: rest → s.status.fault = false →
    (let n := w.toNat
     let op := n / 2 ^ 56
     op = 0 ∨ 8 ≤ op ∨ (op = 1 ∧ n % 2 ^ 56 ≠ 0) ∨
       (2 ≤ op ∧ op ≤ 5 ∧ n / 2 ^ 32 % 2 ^ 24 ≠ 0) ∨
       (op = 6 ∧ (n / 2 ^ 9 % 2 ^ 47 ≠ 0 ∨ n / 2 ^ 4 % 2 ^ 4 ≠ 0)) ∨
       (op = 7 ∧ n / 2 ^ 48 % 2 ^ 8 ≠ 0)) →
    step s = .next { s with commands := rest, status := { fault := true, code := 1 } }

/-! ### RESET -/

/-- R220: RESET from any state, faulted or not: every value the rule lists, no event, and nothing
else that has a value is touched. Its word is exactly 0x0100000000000000. A second RESET changes
nothing more, wherever the state holds a value. -/
def Obligations.ResetWritesTheResetValues : Prop :=
  (∀ w : Word, decode w = .ok .reset ↔ w = 0x0100000000000000#64) ∧
  ∀ s : State, ∃ t : State, exec .reset s = .next t ∧
    t.stg.valid = 0 ∧ t.configured = false ∧ t.ncoAcc = 0 ∧
    t.rc = { hist := List.replicate Config.params.rcHistLen ⟨.rat 0, .rat 0⟩,
             acc := Config.params.internalRate } ∧
    t.discPrev = ⟨.rat 0, .rat 0⟩ ∧
    t.level = { hist := List.replicate Config.params.levelN (.rat 0), idx := 0,
                avg := .rat 0, peak := .rat 0 } ∧
    t.corr = { ring := List.replicate Config.params.corrLen (.rat 0), idx := 0, cnt := 0,
               mag0 := .rat 0, mag1 := .rat 0 } ∧
    t.lpf = { hist0 := List.replicate Config.params.lpfN (.rat 0),
              hist1 := List.replicate Config.params.lpfN (.rat 0),
              filt0 := .rat 0, filt1 := .rat 0 } ∧
    t.sync = { diff := .rat 0, curSample := false, samplePrev := false, syncCount := 0,
               lastBit := false, bitStrobe := false } ∧
    t.frame = { gotSOP := false, bits := 0, bitCount := 0, bytes := List.replicate 8 0,
                byteCount := 0 } ∧
    t.scope.cnt = 0 ∧ t.ana.cnt = 0 ∧ t.status = { fault := false, code := 0 } ∧
    t.packetOut = s.packetOut ∧ t.scopeOut = s.scopeOut ∧ t.analyzerOut = s.analyzerOut ∧
    t.commands = s.commands ∧ t.tsDraws = s.tsDraws ∧
    ∃ t', exec .reset t = .next t' ∧ SameWhereDefined Config.params t t'

/-- R221: the state after RESET is the state at power-on, but for the ports. For the elements R40
leaves unspecified this is the model's choice (log 6). -/
def Obligations.ResetGivesThePowerOnState : Prop :=
  ∀ s : State, exec .reset s = .next
    { State.reset with
      commands := s.commands, tsDraws := s.tsDraws, packetOut := s.packetOut,
      scopeOut := s.scopeOut, analyzerOut := s.analyzerOut }

/-! ### SET -/

/-- R170: each SET stages its key, sets its valid bit and changes nothing else, whatever the value
and whether or not the block is configured; a faulted block ignores it. -/
def Obligations.SetStagesItsKey : Prop :=
  ∀ (v : BitVec 32) (s : State),
    (s.status.fault = false →
      exec (.setOffset v) s = .next
        { s with stg := { value := { s.stg.value with offset := v }, valid := s.stg.valid ||| 1 } } ∧
      exec (.setInputRate v) s = .next
        { s with stg := { value := { s.stg.value with inputRate := v }, valid := s.stg.valid ||| 2 } } ∧
      exec (.setRfBw v) s = .next
        { s with stg := { value := { s.stg.value with rfBandwidth := v }, valid := s.stg.valid ||| 4 } } ∧
      exec (.setFmDev v) s = .next
        { s with stg := { value := { s.stg.value with fmDeviation := v }, valid := s.stg.valid ||| 8 } }) ∧
    (s.status.fault = true → ∀ i ∈ [Instr.setOffset v, .setInputRate v, .setRfBw v, .setFmDev v],
      exec i s = .next s)

/-! ### APPLY -/

/-- R174, R175: a forced APPLY, in any mask, takes all four keys from staging. With a valid bit 0 it
faults `NOT_CONFIGURED`, with a zero rate or deviation `CONFIG_INVALID`; else it writes the whole
state below. Staging, status and the ports are kept. That the tap slots keep their contents is the
model's choice (log 13): R37 and R40 leave them without a value after a force, and
`ForcedApplyLeavesTheResetState` states the rules without it. -/
def Obligations.ForcedApplyRebuildsEverything : Prop :=
  ∀ (mask : BitVec 4) (s : State), s.status.fault = false →
    (s.stg.valid ≠ 15 →
      exec (.apply true mask) s = .next { s with status := { fault := true, code := 2 } }) ∧
    (s.stg.valid = 15 → s.stg.value.inputRate = 0 ∨ s.stg.value.fmDeviation = 0 →
      exec (.apply true mask) s = .next { s with status := { fault := true, code := 3 } }) ∧
    (s.stg.valid = 15 → s.stg.value.inputRate ≠ 0 → s.stg.value.fmDeviation ≠ 0 →
      exec (.apply true mask) s = .next
        { s with
          cfg := s.stg.value
          configured := true
          derived :=
            { ncoStep := (-s.stg.value.offset.toInt % (s.stg.value.inputRate.toNat : Int)).toNat
              discScale :=
                .rat ((Config.params.internalRate : ℚ) / (2 * s.stg.value.fmDeviation.toNat))
              rcKernelCfg := (s.stg.value.inputRate, s.stg.value.rfBandwidth)
              toneRef0 := (List.range Config.params.corrLen).map
                (toneEntry Config.params.tone0 Config.params.internalRate)
              toneRef1 := (List.range Config.params.corrLen).map
                (toneEntry Config.params.tone1 Config.params.internalRate) }
          ncoAcc := 0
          rc := { hist := List.replicate Config.params.rcHistLen ⟨.rat 0, .rat 0⟩,
                  acc := Config.params.internalRate }
          discPrev := ⟨.rat 0, .rat 0⟩
          level := { hist := List.replicate Config.params.levelN (.rat 0), idx := 0,
                     avg := .rat 0, peak := .rat 0 }
          corr := { ring := List.replicate Config.params.corrLen (.rat 0), idx := 0, cnt := 0,
                    mag0 := .rat 0, mag1 := .rat 0 }
          lpf := { hist0 := List.replicate Config.params.lpfN (.rat 0),
                   hist1 := List.replicate Config.params.lpfN (.rat 0),
                   filt0 := .rat 0, filt1 := .rat 0 }
          sync := { diff := .rat 0, curSample := false, samplePrev := false, syncCount := 0,
                    lastBit := false, bitStrobe := false }
          frame := { gotSOP := false, bits := 0, bitCount := 0, bytes := List.replicate 8 0,
                     byteCount := 0 }
          scope := { s.scope with cnt := 0 }
          ana := { s.ana with cnt := 0 } })

/-- R173, R176, R177: a non-forced APPLY. On a block not configured it faults `NOT_CONFIGURED`. On a
configured one whose new configuration is usable, each key
of the new configuration is the staged one where its mask bit is set and the active one where not;
each changed key has its effect of R176, computed from the new configuration; nothing else
changes. -/
def Obligations.SelectiveApplyCommitsTheMaskedKeys : Prop :=
  ∀ (mask : BitVec 4) (s : State), s.status.fault = false →
    (s.configured = false →
      exec (.apply false mask) s = .next { s with status := { fault := true, code := 2 } }) ∧
    let pick (k : Nat) (staged active : BitVec 32) := if mask.getLsbD k then staged else active
    let offset := pick 0 s.stg.value.offset s.cfg.offset
    let rate := pick 1 s.stg.value.inputRate s.cfg.inputRate
    let bw := pick 2 s.stg.value.rfBandwidth s.cfg.rfBandwidth
    let dev := pick 3 s.stg.value.fmDeviation s.cfg.fmDeviation
    s.configured = true → rate ≠ 0 → dev ≠ 0 →
    exec (.apply false mask) s = .next
      { s with
        cfg := { offset := offset, inputRate := rate, rfBandwidth := bw, fmDeviation := dev }
        derived :=
          { s.derived with
            ncoStep :=
              if offset ≠ s.cfg.offset ∨ rate ≠ s.cfg.inputRate then
                (-offset.toInt % (rate.toNat : Int)).toNat
              else s.derived.ncoStep
            rcKernelCfg :=
              if rate ≠ s.cfg.inputRate ∨ bw ≠ s.cfg.rfBandwidth then (rate, bw)
              else s.derived.rcKernelCfg
            discScale :=
              if dev ≠ s.cfg.fmDeviation then
                .rat ((Config.params.internalRate : ℚ) / (2 * dev.toNat))
              else s.derived.discScale }
        ncoAcc := if rate ≠ s.cfg.inputRate then 0 else s.ncoAcc
        rc :=
          { s.rc with
            acc := if rate ≠ s.cfg.inputRate then Config.params.internalRate else s.rc.acc } }

/-- R172: the selection of a non-forced APPLY. Where it takes effect, each key of the active
configuration is the staged one if its mask bit is set and the active one if not. No APPLY changes a
staging register or a valid bit, and once the block is configured all four are valid: every command
keeps that. -/
def Obligations.NonForcedSelection : Prop :=
  (∀ (mask : BitVec 4) (s t : State), exec (.apply false mask) s = .next t →
    t.status.fault = false →
    ∀ k : Key, getKey t.cfg k =
      if mask.getLsbD k.index then getKey s.stg.value k else getKey s.cfg k) ∧
  (∀ (force : Bool) (mask : BitVec 4) (s t : State), exec (.apply force mask) s = .next t →
    t.stg = s.stg) ∧
  (State.reset.configured = true → State.reset.stg.valid = 15) ∧
  ∀ (i : Instr) (s t : State), (s.configured = true → s.stg.valid = 15) → exec i s = .next t →
    (t.configured = true → t.stg.valid = 15)

/-- A masked key with an equal value has no effect (R177, R178): if every masked key's staged value is
the active one, a non-forced APPLY changes nothing at all. -/
def Obligations.ApplyOfUnchangedKeysChangesNothing : Prop :=
  ∀ (mask : BitVec 4) (s : State), s.status.fault = false → s.configured = true →
    s.cfg.inputRate ≠ 0 → s.cfg.fmDeviation ≠ 0 →
    (∀ k : Key, mask.getLsbD k.index = true → getKey s.stg.value k = getKey s.cfg k) →
    exec (.apply false mask) s = .next s

/-- The same APPLY twice in a row, with no SET between, leaves the state as it was after the
first, forced or not, from every state
(R178). -/
def Obligations.ApplyTwiceIsApplyOnce : Prop :=
  ∀ (force : Bool) (mask : BitVec 4) (s t : State),
    exec (.apply force mask) s = .next t → exec (.apply force mask) t = .next t

/-! ### Faults -/

/-- R202: what raises `NOT_CONFIGURED`, and that RESET and SET do not raise it. -/
def Obligations.NotConfiguredIsRaised : Prop :=
  ∀ s : State, s.status.fault = false →
    (s.configured = false →
      (∀ i q, exec (.sample i q) s = .next { s with status := { fault := true, code := 2 } }) ∧
      (∀ mask, exec (.apply false mask) s = .next { s with status := { fault := true, code := 2 } })) ∧
    (s.stg.valid ≠ 15 →
      ∀ mask, exec (.apply true mask) s = .next { s with status := { fault := true, code := 2 } }) ∧
    (∀ v, ∀ i ∈ [Instr.reset, .setOffset v, .setInputRate v, .setRfBw v, .setFmDev v],
      ∃ t, exec i s = .next t ∧ t.status.fault = false)

/-- R204: an APPLY that would leave `cfg.inputRate = 0` or `cfg.fmDeviation = 0` raises
`CONFIG_INVALID` and changes nothing else; an APPLY whose new configuration has neither is
accepted, whatever its offset and bandwidth. -/
def Obligations.ConfigInvalidIsRaised : Prop :=
  ∀ (force : Bool) (mask : BitVec 4) (s : State), s.status.fault = false →
    (if force then s.stg.valid = 15 else s.configured = true) →
    let rate := if force || mask.getLsbD 1 then s.stg.value.inputRate else s.cfg.inputRate
    let dev := if force || mask.getLsbD 3 then s.stg.value.fmDeviation else s.cfg.fmDeviation
    (rate = 0 ∨ dev = 0 →
      exec (.apply force mask) s = .next { s with status := { fault := true, code := 3 } }) ∧
    (rate ≠ 0 → dev ≠ 0 →
      ∃ t, exec (.apply force mask) s = .next t ∧ t.status.fault = false ∧
        t.cfg.inputRate = rate ∧ t.cfg.fmDeviation = dev ∧
        t.cfg.offset = (if force || mask.getLsbD 0 then s.stg.value.offset else s.cfg.offset) ∧
        t.cfg.rfBandwidth =
          (if force || mask.getLsbD 2 then s.stg.value.rfBandwidth else s.cfg.rfBandwidth))

/-- R205: faults are precise. If a command, legal or not, takes the block from no fault to a fault,
then the state after it is the state before it (the word taken from the stream) with the status
written, and nothing else: no other state, no event. -/
def Obligations.FaultsArePrecise : Prop :=
  ∀ (s t : State), s.status.fault = false → step s = .next t → t.status.fault = true →
    ∃ (w : Word) (rest : List Word) (c : BitVec 8), s.commands = w :: rest ∧ 1 ≤ c.toNat ∧ c.toNat ≤ 3 ∧
      t = { s with commands := rest, status := { fault := true, code := c } }

/-- R206: while `fault = 1` every word but RESET's is ignored, the illegal ones too: it is taken and
nothing else happens; RESET is performed and clears the fault. -/
def Obligations.FaultedBlockIgnoresEverythingButReset : Prop :=
  ∀ (s : State) (w : Word) (rest : List Word), s.status.fault = true → s.commands = w :: rest →
    (decode w ≠ .ok .reset → step s = .next { s with commands := rest }) ∧
    (decode w = .ok .reset →
      step s = exec .reset { s with commands := rest } ∧
        ∃ t, step s = .next t ∧ t.status = { fault := false, code := 0 })

/-- Only RESET clears a fault (R38, R206): whole-machine form. -/
def Obligations.OnlyResetLeavesTheFaultedState : Prop :=
  ∀ s t : State, s.status.fault = true → step s = .next t → t.status ≠ s.status →
    ∃ rest, s.commands = encode .reset :: rest

/-- R207: the checks in their order. The faulted state before decoding; decoding before the
configured or valid-bit check; that before the value check. For SAMPLE the only check after decoding
is `NOT_CONFIGURED`: a configured block performs it with its status as it was. -/
def Obligations.FaultPriority : Prop :=
  ∀ (s : State) (w : Word) (rest : List Word), s.commands = w :: rest →
    let after (c : BitVec 8) : Result :=
      .next { s with commands := rest, status := { fault := true, code := c } }
    (s.status.fault = true → w ≠ encode .reset → step s = .next { s with commands := rest }) ∧
    (s.status.fault = false →
      (∀ e, decode w = .error e → step s = after 1) ∧
      (∀ mask, w = encode (.apply true mask) →
        (s.stg.valid ≠ 15 → step s = after 2) ∧
        (s.stg.valid = 15 → s.stg.value.inputRate = 0 ∨ s.stg.value.fmDeviation = 0 →
          step s = after 3)) ∧
      (∀ mask, w = encode (.apply false mask) →
        (s.configured = false → step s = after 2) ∧
        (s.configured = true → configUnusable (selectConfig mask s.stg.value s.cfg) = true →
          step s = after 3)) ∧
      (∀ i q, w = encode (.sample i q) →
        (s.configured = false → step s = after 2) ∧
        (s.configured = true → s.cfg.inputRate ≠ 0 →
          ∃ t, step s = .next t ∧ t.status = s.status)))

/-! ### SAMPLE, MIX and RESAMPLE -/

/-- R95, R98, R99: SAMPLE. A faulted block ignores it; on a block not configured it faults
`NOT_CONFIGURED` before anything else. On a configured one the input is mixed at the phase before it
is advanced; the mixed sample enters the history; `rcAcc` goes down by `Fo`; then, while
`rcAcc <= 0` (R100), one internal sample is computed with `d = (-rcAcc) / Fo` and run through the
pipeline, and `rcAcc` goes up by `Fi`. The number `k` of internal samples is the least that takes
`rcAcc` above 0, and from a positive `rcAcc` at most `ceil(Fo/Fi)` (R231). With `k = 0` the mixer and
the rate converter still advance. -/
def Obligations.SampleMixesResamplesAndProcesses : Prop :=
  ∀ (i q : BitVec 24) (s : State),
    (s.status.fault = true → exec (.sample i q) s = .next s) ∧
    (s.status.fault = false → s.configured = false →
      exec (.sample i q) s = .next { s with status := { fault := true, code := 2 } }) ∧
    (s.status.fault = false → s.configured = true → s.cfg.inputRate ≠ 0 →
      let P := Config.params
      let fi := s.cfg.inputRate.toNat
      let m := P.num.mixFn (CVal.ofInts i.toInt q.toInt) s.ncoAcc fi
      let ready : State :=
        { s with
          ncoAcc := (s.ncoAcc + s.derived.ncoStep) % fi
          rc := { hist := (m :: s.rc.hist).take s.rc.hist.length, acc := s.rc.acc - P.internalRate } }
      let one (t : State) : State :=
        let d : ℚ := (-t.rc.acc : ℤ) / (P.internalRate : ℚ)
        let u := process P (P.num.rcFn t.derived.rcKernelCfg t.rc.hist d) t
        { u with rc := { u.rc with acc := u.rc.acc + fi } }
      ∃ k : Nat, (∀ j < k, s.rc.acc - P.internalRate + j * fi ≤ 0) ∧
        0 < s.rc.acc - P.internalRate + k * fi ∧
        (0 < s.rc.acc → k ≤ (P.internalRate + fi - 1) / fi) ∧
        exec (.sample i q) s = .next (one^[k] ready))

/-- R104: the order of the stages on one internal sample. -/
def Obligations.ProcessRunsTheStagesInOrder : Prop :=
  ∀ (P : Params) (ci : CVal) (s : State),
    let s0 : State := { s with sync := { s.sync with bitStrobe := false } }
    let fm := P.num.discFn (s0.discPrev.conj.times ci) s0.derived.discScale
    let pw := (ci.re.times ci.re).plus (ci.im.times ci.im)
    let s1 : State := { s0 with discPrev := ci }
    let s2 := levelStage P pw s1
    let s3 := analyzerStage P fm s2
    let s4 := corrStage P fm s3
    let s5 := if isUpdate P fm s3.corr then bitSyncStage P (lpfStage P s4) else s4
    process P ci s = scopeStage P ci pw fm s5

/-- R200, and SAMPLE's frame: no signal value raises a fault, and SAMPLE leaves the staging
registers, the configuration, the derived values, the status and the command stream alone; it only
appends to the output traces. -/
def Obligations.SignalPathNeverFaults : Prop :=
  ∀ (i q : BitVec 24) (s : State), s.status.fault = false → s.configured = true →
    s.cfg.inputRate ≠ 0 →
    ∃ t : State, exec (.sample i q) s = .next t ∧ t.status = s.status ∧ t.stg = s.stg ∧
      t.cfg = s.cfg ∧ t.configured = s.configured ∧ t.derived = s.derived ∧
      t.commands = s.commands ∧ s.packetOut <+: t.packetOut ∧ s.scopeOut <+: t.scopeOut ∧
      s.analyzerOut <+: t.analyzerOut

/-- SAMPLE stops only where R204 calls the mixer and the timing undefined (log 11), and no other
command ever stops. -/
def Obligations.OnlySampleAtZeroRateStops : Prop :=
  ∀ (i : Instr) (s : State),
    (∀ r, exec i s ≠ .refused r) ∧
    (∀ f, exec i s = .fault f ↔
      f = .inputRateZero ∧ (∃ re im, i = .sample re im) ∧ s.status.fault = false ∧
        s.configured = true ∧ s.cfg.inputRate = 0)

/-- R102: the output timing is exact and never drifts. After `n >= 1` SAMPLEs from a timing restart
(`rcAcc = Fo`), the outputs so far are those with `k·Fi <= (n-1)·Fo`, that is
`floor((n-1)·Fo/Fi) + 1` of them, so `rcAcc` is `Fo - n·Fo + (floor((n-1)·Fo/Fi) + 1)·Fi`. -/
def Obligations.OutputTimingNeverDrifts : Prop :=
  ∀ (xs : List (BitVec 24 × BitVec 24)) (s : State), xs ≠ [] → s.status.fault = false →
    s.configured = true → s.cfg.inputRate ≠ 0 → s.rc.acc = Config.params.internalRate →
    ∃ t : State, performAll (xs.map fun x => .sample x.1 x.2) s = .next t ∧
      let fo := Config.params.internalRate
      let fi := s.cfg.inputRate.toNat
      t.rc.acc = (fo : Int) - xs.length * fo + ((xs.length - 1) * fo / fi + 1 : ℕ) * fi

/-- R96: in exact arithmetic MIX multiplies the input by `exp(j·2π·ncoAcc / cfg.inputRate)`, which
for the n-th input after a phase reset is `exp(-j·2π·cfg.offset·n / cfg.inputRate)`, `n` counted from
0; then `ncoAcc` goes to `(ncoAcc + ncoStep) mod cfg.inputRate`, the phase of input `n + 1`. -/
def Obligations.MixerShiftsByMinusOffset : Prop :=
  ∀ (P : Params) (x : CVal) (s : State) (n : Nat), P.IsReference →
    let rate := s.cfg.inputRate.toNat
    rate ≠ 0 → s.derived.ncoStep = (-s.cfg.offset.toInt % (rate : Int)).toNat →
    s.ncoAcc = n * s.derived.ncoStep % rate →
    P.complex (mixed P x s) =
        P.complex x * Complex.exp (2 * Real.pi * (s.ncoAcc / rate) * Complex.I) ∧
      P.complex (mixed P x s) =
        P.complex x *
          Complex.exp (-(2 * Real.pi * (s.cfg.offset.toInt * n / rate)) * Complex.I) ∧
      (advancePhase s).ncoAcc = (s.ncoAcc + s.derived.ncoStep) % rate ∧
      (advancePhase s).ncoAcc = (n + 1) * s.derived.ncoStep % rate

/-! ### Discriminator and level meter -/

/-- R111: in exact arithmetic `fm = (arg(conj(discPrev)·ci) / π) · discScale`, with
`discScale = INTERNAL_RATE / (2·cfg.fmDeviation)`, so a phase step of `2π·f/INTERNAL_RATE` radians
from a non-zero sample gives `fm = f/cfg.fmDeviation`. -/
def Obligations.DiscriminatorMeasuresFrequency : Prop :=
  ∀ (P : Params) (s : State) (ci : CVal), P.IsReference →
    s.derived.discScale = discScaleOf P s.cfg → s.cfg.fmDeviation ≠ 0 →
    P.real (discFreq P s ci) =
        Complex.arg ((starRingEnd ℂ) (P.complex s.discPrev) * P.complex ci) / Real.pi *
          (P.internalRate / (2 * s.cfg.fmDeviation.toNat)) ∧
      ∀ f : ℝ, P.complex s.discPrev ≠ 0 → |2 * f| < P.internalRate →
        P.complex ci =
          P.complex s.discPrev * Complex.exp (2 * Real.pi * f / P.internalRate * Complex.I) →
        P.real (discFreq P s ci) = f / s.cfg.fmDeviation.toNat

/-- R114: the discriminator's corner cases in exact arithmetic: a zero previous sample or a zero
sample gives 0 (and the next one after a zero sample gives 0 again), a phase step of exactly π gives
`+discScale`. -/
def Obligations.DiscriminatorCornerCases : Prop :=
  ∀ (P : Params) (s : State) (ci next : CVal), P.IsReference →
    (P.complex s.discPrev = 0 → P.real (discFreq P s ci) = 0) ∧
    (P.complex ci = 0 →
      P.real (discFreq P s ci) = 0 ∧ P.real (discFreq P (storePrev ci s) next) = 0) ∧
    (∀ a : ℝ, 0 < a → P.complex s.discPrev ≠ 0 → P.complex ci = -(a : ℂ) * P.complex s.discPrev →
      P.real (discFreq P s ci) = P.real s.derived.discScale)

/-- R115: scale invariance of DISC in exact arithmetic: multiplying the sample and the previous
sample by the same `a > 0` leaves `fm` as it was and multiplies the power by `a²`. -/
def Obligations.DiscriminatorIsScaleInvariant : Prop :=
  ∀ (P : Params) (s t : State) (ci cj : CVal) (a : ℝ), P.IsReference → 0 < a →
    t.derived.discScale = s.derived.discScale →
    P.complex t.discPrev = (a : ℂ) * P.complex s.discPrev → P.complex cj = (a : ℂ) * P.complex ci →
    P.real (discFreq P t cj) = P.real (discFreq P s ci) ∧
      P.real (powerEstimate cj) = a ^ 2 * P.real (powerEstimate ci)

/-- R113, in every instance: LEVEL writes the power at `levelIdx`, advances the index modulo `LEVEL_N`,
takes the mean of all `LEVEL_N` slots and the maximum so far. R15 lists the level meter among the
stages a NUM realises: that the mean and the maximum are exact in an instance other than the reference
is the model's choice (log 4, DESIGN CHOICE; log 3 for the comparison). The peak is a number of the instance
at power-on and every command keeps it one; `levelPeak` only rises, but for RESET and a forced
APPLY. -/
def Obligations.LevelMeterAveragesAndPeaks : Prop :=
  ∀ P : Params,
    (∀ (pw : Val) (s : State), s.level.hist.length = P.levelN → s.level.idx < P.levelN →
      let m := (levelStage P pw s).level
      m.hist = s.level.hist.set s.level.idx pw ∧ m.idx = (s.level.idx + 1) % P.levelN ∧
        P.real m.avg * (P.levelN : ℕ) = (m.hist.map P.real).sum ∧
        (PeakIsNumber P s → P.compare.IsNumber pw →
          P.real m.peak = max (P.real s.level.peak) (P.real pw))) ∧
    PeakIsNumber P (State.powerOn P) ∧
    ∀ (i : Instr) (s t : State), PeakIsNumber P s → execOn P i s = .next t →
      PeakIsNumber P t ∧
        (i ≠ .reset → (∀ mask, i ≠ .apply true mask) → P.real s.level.peak ≤ P.real t.level.peak)

/-! ### Diagnostic taps -/

/-- R189: the analyzer value is the scaled discriminator sample, truncated toward zero and clamped
to s16, and it goes into the buffer, which is emitted and starts again when it is full. That the
product `fm · ANALYZER_SCALE` is exact in an instance other than the reference is the model's choice
(log 4, DESIGN CHOICE), and so is the form in which its truncation is exact in every instance, on the
numbers of the instance, of which every discriminator sample is one (log 3, DESIGN CHOICE). -/
def Obligations.AnalyzerTruncatesAndSaturates : Prop :=
  ∀ (P : Params) (fm : Val) (s : State),
    (analyzerValue P fm).toInt =
        min (max (P.truncate.truncFn (fm.times P.analyzerScale)) (-32768)) 32767 ∧
      (∀ ci, P.compare.IsNumber (discFreq P s ci)) ∧
      (P.compare.IsNumber fm → P.truncate.truncFn (fm.times P.analyzerScale) =
        if 0 ≤ P.real fm * P.real P.analyzerScale then ⌊P.real fm * P.real P.analyzerScale⌋
        else ⌈P.real fm * P.real P.analyzerScale⌉) ∧
      analyzerStage P fm s =
        if s.ana.cnt + 1 = P.analyzerBatch then
          { s with
            ana := { buf := s.ana.buf.set s.ana.cnt (analyzerValue P fm), cnt := 0 }
            analyzerOut := s.analyzerOut ++ [s.ana.buf.set s.ana.cnt (analyzerValue P fm)] }
        else
          { s with
            ana := { buf := s.ana.buf.set s.ana.cnt (analyzerValue P fm), cnt := s.ana.cnt + 1 } }

/-- R190: an AnalyzerBatch is emitted on every `ANALYZER_BATCH`-th internal sample, holds the values
of the last `ANALYZER_BATCH` internal samples, oldest first. No partial batch is emitted: RESET and a
forced APPLY discard it. -/
def Obligations.AnalyzerBatchHoldsTheLastValues : Prop :=
  (∀ (P : Params) (s t : State), (resetOn P s = .next t ∨
      (∃ mask, applyOn P true mask s = .next t ∧ t.status.fault = false)) →
    t.ana.cnt = 0 ∧ t.analyzerOut = s.analyzerOut) ∧
  ∀ (P : Params) (cis : List CVal) (s : State), s.ana.cnt = 0 →
    s.ana.buf.length = P.analyzerBatch →
    (cis.length < P.analyzerBatch →
      (processAll P cis s).analyzerOut = s.analyzerOut ∧ (processAll P cis s).ana.cnt = cis.length) ∧
    (cis.length = P.analyzerBatch →
      (processAll P cis s).ana.cnt = 0 ∧
      ∃ batch, (processAll P cis s).analyzerOut = s.analyzerOut ++ [batch] ∧
        batch.length = cis.length ∧
        ∀ j ci, cis[j]? = some ci →
          batch[j]? = some (analyzerValue P (discFreq P (processAll P (cis.take j) s) ci)))

/-- R188 (and the fields of R186): a ScopeBatch is emitted on every `SCOPE_BATCH`-th internal sample,
holds exactly the records of the last `SCOPE_BATCH` internal samples, oldest first. No partial batch
is emitted: RESET and a forced APPLY discard it. Each field of a record is its value at the end of that sample's `process`. -/
def Obligations.ScopeBatchHoldsTheLastRecords : Prop :=
  (∀ (P : Params) (s t : State), (resetOn P s = .next t ∨
      (∃ mask, applyOn P true mask s = .next t ∧ t.status.fault = false)) →
    t.scope.cnt = 0 ∧ t.scopeOut = s.scopeOut) ∧
  ∀ (P : Params) (cis : List CVal) (s : State), s.scope.cnt = 0 →
    s.scope.buf.length = P.scopeBatch →
    (cis.length < P.scopeBatch →
      (processAll P cis s).scopeOut = s.scopeOut ∧ (processAll P cis s).scope.cnt = cis.length) ∧
    (cis.length = P.scopeBatch →
      (processAll P cis s).scope.cnt = 0 ∧
      ∃ batch, (processAll P cis s).scopeOut = s.scopeOut ++ [batch] ∧ batch.length = cis.length ∧
        ∀ j ci, cis[j]? = some ci →
          let before := processAll P (cis.take j) s
          let after := processAll P (cis.take (j + 1)) s
          batch[j]? = some
            { iq := ci, pw := ci.normSq, fm := discFreq P before ci, filt0 := after.lpf.filt0,
              filt1 := after.lpf.filt1, diff := after.sync.diff,
              curSample := after.sync.curSample, lastBit := after.sync.lastBit,
              bitStrobe := after.sync.bitStrobe, gotSOP := after.frame.gotSOP })

/-- R191: no tap writes state that another stage reads. Two instances that differ only in LEVEL_N,
SCOPE_BATCH, ANALYZER_BATCH and ANALYZER_SCALE (with its truncation), in states that differ only in the taps, perform any
command alike: the states after it again differ only in the taps, so the packets are the same. -/
def Obligations.TapsDoNotInterfere : Prop :=
  ∀ (P : Params) (levelN scopeBatch analyzerBatch : ℕ+) (scale : Val)
    (tr : Truncation P.constant P.compare.IsNumber scale) (i : Instr) (s t s' : State),
    let Q : Params :=
      { P with
        levelN := levelN, scopeBatch := scopeBatch, analyzerBatch := analyzerBatch,
        analyzerScale := scale, truncate := tr }
    SameButTaps (State.powerOn P) (State.powerOn Q) ∧
    (SameButTaps s t → execOn P i s = .next s' →
      ∃ t', execOn Q i t = .next t' ∧ SameButTaps s' t' ∧ s'.packetOut = t'.packetOut)

/-! ### Correlator and filters -/

/-- R120: every tone table entry is `exp(j·2π·TONEk·n / INTERNAL_RATE)`, `n < L`, of magnitude 1. R28
says so of the exact NUM instance; that the tables are exact in every other instance too is the
model's choice (log 4, DESIGN CHOICE). -/
def Obligations.ToneTablesHoldUnitPhasors : Prop :=
  ∀ (P : Params) (d : Derived) (n : Nat), n < P.corrLen →
    (toneBuild P d).toneRef0.length = P.corrLen ∧ (toneBuild P d).toneRef1.length = P.corrLen ∧
    ∃ a b, (toneBuild P d).toneRef0[n]? = some a ∧ (toneBuild P d).toneRef1[n]? = some b ∧
      P.complex a = Complex.exp (2 * Real.pi * P.real P.tone0 * n / P.internalRate * Complex.I) ∧
      P.complex b = Complex.exp (2 * Real.pi * P.real P.tone1 * n / P.internalRate * Complex.I) ∧
      ‖P.complex a‖ = 1 ∧ ‖P.complex b‖ = 1

/-- R121, R122, R124: one correlator step, in every state. The sample is written at the old index, the
index advances modulo `L`, the fill counter goes up, saturating at `L`; if it is then `L`, both
magnitudes are computed with the advanced index and the counter goes down by one, else the
magnitudes stay. Below `L` before, the counter is below `L` after, and the saturation changes
nothing. -/
def Obligations.CorrelatorStep : Prop :=
  ∀ (P : Params) (fm : Val) (s : State),
    let ring := s.corr.ring.set s.corr.idx fm
    let idx := (s.corr.idx + 1) % P.corrLen
    let cnt := min (s.corr.cnt + 1) P.corrLen
    (corrStage P fm s).corr =
        (if P.corrLen ≤ cnt then
          { ring := ring, idx := idx, cnt := cnt - 1
            mag0 := (P.num.corrFn s.derived.toneRef0 ring idx).modulus
            mag1 := (P.num.corrFn s.derived.toneRef1 ring idx).modulus }
        else
          { ring := ring, idx := idx, cnt := cnt, mag0 := s.corr.mag0, mag1 := s.corr.mag1 }) ∧
      (isUpdate P fm s.corr = true ↔ P.corrLen ≤ cnt) ∧
      (s.corr.cnt < P.corrLen →
        cnt = s.corr.cnt + 1 ∧ (corrStage P fm s).corr.cnt < P.corrLen)

/-- R123: in exact arithmetic, with `x a` the sample of age `a` in the window (age 0 at slot
`corrIdx - 1`, age `L-1` at slot `corrIdx`), `toneRefk[0]` multiplies the oldest sample and
`toneRefk[i]`, `i >= 1`, the sample of age `i - 1`; the magnitude is the Euclidean modulus. -/
def Obligations.CorrelatorPairsLiterally : Prop :=
  ∀ (P : Params) (tone : List CVal) (ring : List Val) (idx : Nat), P.IsReference →
    tone.length = P.corrLen → ring.length = P.corrLen → idx < P.corrLen →
    let x (age : Nat) : ℂ :=
      ((P.real (ring.getD ((idx + P.corrLen - 1 - age) % P.corrLen) (.rat 0)) : ℝ) : ℂ)
    let ref (n : Nat) : ℂ := P.complex (tone.getD n ⟨.rat 0, .rat 0⟩)
    let c : ℂ := ref 0 * x (P.corrLen - 1) + ∑ i ∈ Finset.Ico 1 P.corrLen, ref i * x (i - 1)
    P.complex (P.num.corrFn tone ring idx) = c ∧ P.real (P.num.corrFn tone ring idx).modulus = ‖c‖

/-- R125: after a reset or force (`corrCnt = 0`) the first `L - 1` internal samples are not correlator
updates, and every later one is. -/
def Obligations.UpdatesStartWhenTheRingIsFull : Prop :=
  ∀ (P : Params) (cis : List CVal) (fm : Val) (s : State), s.corr.cnt = 0 →
    (isUpdate P fm (processAll P cis s).corr = true ↔ P.corrLen ≤ cis.length + 1)

/-- R127: the matched-filter law, in exact arithmetic. With both tones on different DFT bins in
`[1, L/2]` and the window a real sinusoid at the bin of tone 1 of amplitude `a > 0` and phase `θ`
at the oldest sample, the magnitude for tone 0 is 0 and that for tone 1 is `a·L/2`, or
`a·L·|cos θ|` at bin `L/2`. The same holds with the tones swapped: the statement is for any two
tones `f0`, `f1`. -/
def Obligations.MatchedFilterLaw : Prop :=
  ∀ (P : Params) (f0 f1 : Val) (b0 b1 : Nat) (ring : List Val) (idx : Nat) (a θ : ℝ),
    P.IsReference → ring.length = P.corrLen → idx < P.corrLen → 0 < a →
    P.real f0 * P.corrLen = b0 * P.internalRate → P.real f1 * P.corrLen = b1 * P.internalRate →
    1 ≤ b0 → 2 * b0 ≤ P.corrLen → 1 ≤ b1 → 2 * b1 ≤ P.corrLen → b0 ≠ b1 →
    (∀ t < P.corrLen, P.real (ring.getD ((idx + t) % P.corrLen) (.rat 0)) =
      a * Real.cos (2 * Real.pi * P.real f1 * t / P.internalRate + θ)) →
    P.real (P.num.corrFn (toneTable P f0) ring idx).modulus = 0 ∧
      P.real (P.num.corrFn (toneTable P f1) ring idx).modulus =
        if 2 * b1 < P.corrLen then a * P.corrLen / 2 else a * P.corrLen * |Real.cos θ|

/-- R130: LPF shifts each magnitude into its history, newest first, and in exact arithmetic each
output is `Σ h[a] · lpfHist[a]`, both with the same taps. -/
def Obligations.SmoothingFiltersAreFir : Prop :=
  ∀ (P : Params) (s : State), P.IsReference → s.lpf.hist0.length = P.lpfN →
    s.lpf.hist1.length = P.lpfN →
    let f := (lpfStage P s).lpf
    f.hist0 = s.corr.mag0 :: s.lpf.hist0.dropLast ∧ f.hist1 = s.corr.mag1 :: s.lpf.hist1.dropLast ∧
      P.real f.filt0 = ∑ a ∈ Finset.range P.lpfN,
        P.real (P.lpfTaps.getD a (.rat 0)) * P.real (f.hist0.getD a (.rat 0)) ∧
      P.real f.filt1 = ∑ a ∈ Finset.range P.lpfN,
        P.real (P.lpfTaps.getD a (.rat 0)) * P.real (f.hist1.getD a (.rat 0))

/-- R104, R124: only correlator updates run the filters, the bit synchroniser and the frame
assembler. On an internal sample that is none, they hold their values, `bitStrobe` is 0, and no
packet is emitted. -/
def Obligations.OnlyUpdatesReachTheDecision : Prop :=
  ∀ (P : Params) (ci : CVal) (s : State), isUpdate P (discFreq P s ci) s.corr = false →
    (process P ci s).lpf = s.lpf ∧ (process P ci s).sync = { s.sync with bitStrobe := false } ∧
      (process P ci s).frame = s.frame ∧ (process P ci s).packetOut = s.packetOut ∧
      (process P ci s).tsDraws = s.tsDraws

/-! ### Bit synchroniser -/

/-- R141 to R144: the decision, the edge and the countdown, `samplePrev` on every update, and bit
emission. The decision is 1 exactly when `filt1 - filt0 >= 0`, in every instance: the filter outputs
are numbers of it (`DecisionIsExactInEveryInstance`). That a tie decides 1 in an instance other than
the reference is the model's reading (log 21, DEDUCED), since 93 I17 leaves it to that instance's
comparison. -/
def Obligations.BitSynchroniserStep : Prop :=
  ∀ (P : Params) (s : State),
    let d := s.lpf.filt1.minus s.lpf.filt0
    let bit := decisionBit P d
    (P.compare.IsNumber s.lpf.filt0 → P.compare.IsNumber s.lpf.filt1 →
      (bit = true ↔ 0 ≤ P.real s.lpf.filt1 - P.real s.lpf.filt0)) ∧
    (bit ≠ s.sync.samplePrev →
      bitSyncStage P s =
        { s with sync := { s.sync with diff := d, curSample := bit, samplePrev := bit,
                                       syncCount := (P.corrLen / 2 : ℕ) } }) ∧
    (bit = s.sync.samplePrev → 1 < s.sync.syncCount →
      bitSyncStage P s =
        { s with sync := { s.sync with diff := d, curSample := bit, samplePrev := bit,
                                       syncCount := s.sync.syncCount - 1 } }) ∧
    (bit = s.sync.samplePrev → s.sync.syncCount ≤ 1 →
      bitSyncStage P s =
        frameStage P bit
          { s with sync := { diff := d, curSample := bit, samplePrev := bit,
                             syncCount := P.corrLen, lastBit := bit, bitStrobe := true } })

/-- R147: the bit-interval law, along a run of the block: internal samples `ci 0, ci 1, …`, each
processed from the correlator and the synchroniser the one before it left (the front end may change
the rest between two). A bit is emitted at a sample that leaves `bitStrobe = 1`; an edge is a decision
that differs from `samplePrev`. If bits are emitted at `u < v` with none between: with no edge
between, `v - u = L`; otherwise, `e` the last edge before `v`, `v = e + max(L div 2, 1)`; so the
interval is at least `max(L div 2, 1) + 1`, and with a single edge between at most
`L + max(L div 2, 1)`. From a sample that emits a bit on, every internal sample is a correlator update
(R125), so the distance counts updates. -/
def Obligations.BitIntervalLaw : Prop :=
  ∀ (P : Params) (ci : ℕ → CVal) (s : ℕ → State) (u v : ℕ),
    (∀ n, (s (n + 1)).corr = (process P (ci n) (s n)).corr ∧
      (s (n + 1)).sync = (process P (ci n) (s n)).sync) → u < v →
    let emits (n : ℕ) : Prop := (s (n + 1)).sync.bitStrobe = true
    let edge (n : ℕ) : Prop := (s (n + 1)).sync.curSample ≠ (s n).sync.samplePrev
    emits u → emits v → (∀ n, u < n → n < v → ¬emits n) →
    (∀ n, u ≤ n → isUpdate P (discFreq P (s n) (ci n)) (s n).corr = true) ∧
    ((∀ n, u < n → n < v → ¬edge n) → v - u = P.corrLen) ∧
    (∀ e, u < e → e < v → edge e → (∀ n, e < n → n < v → ¬edge n) →
      v = e + max (P.corrLen / 2) 1 ∧ max (P.corrLen / 2) 1 + 1 ≤ v - u ∧
        ((∀ n, u < n → n < e → ¬edge n) → v - u ≤ P.corrLen + max (P.corrLen / 2) 1))

/-! ### Frame assembler -/

/-- R153, R154, R160, R161: from an empty search, a bitstream in which no window of 17 bits is the
sync word leaves the assembler searching, holding its last 16 bits (or all, if fewer), first bit
least significant; and the first window that is the sync word, at any bit offset, starts the frame
with everything cleared. No packet is emitted in either case. -/
def Obligations.SlidingSearchFindsTheSyncWord : Prop :=
  ∀ (P : Params) (ws : List Bool) (b : Bool) (s : State), s.frame.gotSOP = false →
    s.frame.bits = 0 → s.frame.bitCount = 0 →
    (∀ k, ¬IsSyncWord P ((ws.drop k).take 17)) →
    ((frameAll P ws s).frame =
        { s.frame with
          bits := BitVec.ofNat 32 (lsbFirst (ws.drop (ws.length - 16)))
          bitCount := min ws.length 16 } ∧
      (frameAll P ws s).packetOut = s.packetOut) ∧
    (IsSyncWord P (((ws ++ [b]).drop (ws.length - 16)).take 17) →
      (frameAll P (ws ++ [b]) s).frame =
          { s.frame with gotSOP := true, bits := 0, bitCount := 0, byteCount := 0 } ∧
        (frameAll P (ws ++ [b]) s).packetOut = s.packetOut)

/-- R163: the packet content law. After a match the next 72 bits make exactly one packet, emitted on
bit 72 and not before, with the timestamp presented then and `bytes[k]` the number that bits
`8k+1` to `8k+8` write, the first the least significant, `k = 0..7`; the ninth byte is discarded and
the assembler searches again with an empty window. That the timestamp is the value of draw number
`tsDraws`, and that each draw is counted, is the model's form of the free value of R158 (log 9, DESIGN
CHOICE). -/
def Obligations.PacketHoldsTheEightBytes : Prop :=
  ∀ (P : Params) (ws : List Bool) (s : State), s.frame.gotSOP = true → s.frame.bits = 0 →
    s.frame.bitCount = 0 → s.frame.byteCount = 0 → s.frame.bytes.length = 8 →
    (ws.length < 72 → (frameAll P ws s).packetOut = s.packetOut ∧
      (frameAll P ws s).frame.gotSOP = true) ∧
    (ws.length = 72 →
      (frameAll P ws s).packetOut = s.packetOut ++
        [{ ts := P.timestamp s.tsDraws
           bytes := (List.range 8).map fun k => BitVec.ofNat 8 (lsbFirst ((ws.drop (8 * k)).take 8)) }] ∧
      (frameAll P ws s).tsDraws = s.tsDraws + 1 ∧ (frameAll P ws s).frame.gotSOP = false ∧
      (frameAll P ws s).frame.bits = 0 ∧ (frameAll P ws s).frame.bitCount = 0 ∧
      (frameAll P ws s).frame.byteCount = 0)

/-! ### Whole-block claims -/

/-- The invariant of R41 holds at power-on. -/
def Obligations.ResetMeetsTheInvariant : Prop := Inv Config.params State.reset

/-- Every step keeps the invariant of R41. -/
def Obligations.StepKeepsTheInvariant : Prop :=
  ∀ s t : State, Inv Config.params s → step s = .next t → Inv Config.params t

/-- Every command completes (R231): in a state with the invariant, a step has a next state. -/
def Obligations.EveryCommandCompletes : Prop :=
  ∀ s : State, Inv Config.params s → ∃ t, step s = .next t

/-- The elements R40 leaves unspecified are never read (R24, R40): two instances that differ only in
the values those elements hold, in states that differ only where no value is defined, perform any
command alike, so no event and no status depends on them (log 6). -/
def Obligations.UnspecifiedElementsAreNeverRead : Prop :=
  ∀ (P : Params) (u : Unspecified) (i : Instr) (s t s' : State),
    let Q : Params := { P with unspecified := u }
    SameWhereDefined P (State.powerOn P) (State.powerOn Q) ∧
    (SameWhereDefined P s t → execOn P i s = .next s' →
      ∃ t', execOn Q i t = .next t' ∧ SameWhereDefined P s' t' ∧ s'.status = t'.status ∧
        s'.packetOut = t'.packetOut ∧ s'.scopeOut = t'.scopeOut ∧ s'.analyzerOut = t'.analyzerOut)

/-- R116: deviation invariance of the decisions, in exact arithmetic. Two states whose discriminator
scales differ by a factor `c > 0`, and whose later stages differ by it accordingly, take any SAMPLE
to states that again do: the same decision bits, recovered bits, frames and packets. -/
def Obligations.DecisionsIgnoreTheDeviation : Prop :=
  ∀ (P : Params) (c : ℝ) (i q : BitVec 24) (s t s' : State), P.IsReference → 0 < c →
    ScaledDatapath P.constant c s t → sampleOn P i q s = .next s' →
    ∃ t', sampleOn P i q t = .next t' ∧ ScaledDatapath P.constant c s' t'

/-- R159, R192: no output port applies backpressure. Whatever has been emitted, taken or dropped, the
block's state and its new events are the same: what a command does, outputs aside, does not depend
on the output traces. -/
def Obligations.ConsumersDoNotMatter : Prop :=
  ∀ (i : Instr) (s : State),
    forgetOutputsOf (exec i s) = forgetOutputsOf (exec i (forgetOutputs s)) ∧
    ∀ t t', exec i s = .next t → exec i (forgetOutputs s) = .next t' →
      t.packetOut = s.packetOut ++ t'.packetOut ∧ t.scopeOut = s.scopeOut ++ t'.scopeOut ∧
        t.analyzerOut = s.analyzerOut ++ t'.analyzerOut

/-- Instances share nothing (R43, R214): a step of one block of a system leaves every other block as
it was, and depends on no other block. -/
def Obligations.InstancesShareNothing : Prop :=
  ∀ (sys sys' : System) (n : Nat), System.stepAt sys n = .next sys' →
    (∀ m, m ≠ n → sys'[m]? = sys[m]?) ∧
    (∀ b, sys[n]? = some b →
      ∃ s', stepOn b.params b.state = .next s' ∧ sys'[n]? = some { b with state := s' })

/-! ### Boot, elaboration, assembler -/

/-- R224: the boot sequence. From power-on, the four SETs in any order with a non-zero rate and
deviation, then a forced APPLY, leave the block configured with those values and no fault; with a
zero rate or deviation the APPLY faults `CONFIG_INVALID`. -/
def Obligations.BootSequenceConfigures : Prop :=
  ∀ (off rate bw dev : BitVec 32) (mask : BitVec 4) (sets : List Instr),
    sets.Perm [.setOffset off, .setInputRate rate, .setRfBw bw, .setFmDev dev] →
    ∃ t, performAll (sets ++ [.apply true mask]) State.reset = .next t ∧
      (rate ≠ 0 → dev ≠ 0 →
        t.configured = true ∧ t.status = { fault := false, code := 0 } ∧
        t.cfg = { offset := off, inputRate := rate, rfBandwidth := bw, fmDeviation := dev }) ∧
      (rate = 0 ∨ dev = 0 → t.configured = false ∧ t.status = { fault := true, code := 3 })

/-- R7: the elaboration check. An instance is built exactly from the sets that pass it, it is the
instance of that set, and every instance arises. -/
def Obligations.ElaborationAdmitsExactlyTheCheckedSets : Prop :=
  (∀ r : RawParams, (∃ P, elaborate r = some P) ↔
    r.internalRate % r.baud = 0 ∧ 1 ≤ r.internalRate / r.baud ∧ r.internalRate / r.baud ≤ 65535 ∧
      r.syncPattern < 2 ^ 16 ∧ r.lpfTaps ≠ [] ∧ 0 < r.rcHist ∧ 0 < r.levelN ∧ 0 < r.scopeBatch ∧
      0 < r.analyzerBatch) ∧
  (∀ (r : RawParams) (P : Params), elaborate r = some P → P.raw = r) ∧
  ∀ P : Params, elaborate P.raw = some P

/-- R8: the parameter set of TI is admitted, with `L = 4`, and gives the instance TI, whose NUM is
exact arithmetic. -/
def Obligations.TestInstanceElaborates : Prop :=
  ∀ (u : Unspecified) (ts : Nat → Word),
    elaborate (tiRaw u ts) = some (tiParams u ts) ∧ (tiParams u ts).corrLen = 4 ∧
      (tiParams u ts).internalRate = 4800 ∧ (tiParams u ts).IsReference

/-- R81: the assembler. An operand in its range assembles to the word that decodes to exactly that
number; one outside is refused, never wrapped. -/
def Obligations.AssemblerNeverWraps : Prop :=
  (∀ hz : Int,
    (-(2 ^ 31) ≤ hz ∧ hz < 2 ^ 31 →
      ∃ w v, assemble (.setOffset hz) = some [w] ∧ decode w = .ok (.setOffset v) ∧ signedHz v = hz) ∧
    (¬(-(2 ^ 31) ≤ hz ∧ hz < 2 ^ 31) → assemble (.setOffset hz) = none)) ∧
  (∀ hz : Int,
    (0 ≤ hz ∧ hz < 2 ^ 32 →
      (∃ w v, assemble (.setRate hz) = some [w] ∧ decode w = .ok (.setInputRate v) ∧
        (unsignedHz v : Int) = hz) ∧
      (∃ w v, assemble (.setRfBw hz) = some [w] ∧ decode w = .ok (.setRfBw v) ∧
        (unsignedHz v : Int) = hz) ∧
      (∃ w v, assemble (.setFmDev hz) = some [w] ∧ decode w = .ok (.setFmDev v) ∧
        (unsignedHz v : Int) = hz)) ∧
    (¬(0 ≤ hz ∧ hz < 2 ^ 32) →
      assemble (.setRate hz) = none ∧ assemble (.setRfBw hz) = none ∧
        assemble (.setFmDev hz) = none)) ∧
  (∀ m : Int,
    (0 ≤ m ∧ m < 16 →
      ∃ w v, assemble (.apply m) = some [w] ∧ decode w = .ok (.apply false v) ∧ (v.toNat : Int) = m) ∧
    (¬(0 ≤ m ∧ m < 16) → assemble (.apply m) = none)) ∧
  (∀ i q : Int,
    (-(2 ^ 23) ≤ i ∧ i < 2 ^ 23 ∧ -(2 ^ 23) ≤ q ∧ q < 2 ^ 23 →
      ∃ w a b, assemble (.sample i q) = some [w] ∧ decode w = .ok (.sample a b) ∧
        inputSample a b = CVal.ofInts i q) ∧
    (¬(-(2 ^ 23) ≤ i ∧ i < 2 ^ 23 ∧ -(2 ^ 23) ≤ q ∧ q < 2 ^ 23) → assemble (.sample i q) = none))

/-- R82: each pseudo-instruction assembles to the words of the commands it expands to, and is refused
where one of them is. -/
def Obligations.PseudoInstructionsExpand : Prop :=
  ∀ off rate bw dev : Int,
    let both (a b : Option (List Word)) : Option (List Word) :=
      a.bind fun x => b.map fun y => x ++ y
    assemble (.config off rate bw dev) =
        both (assemble (.setOffset off)) (both (assemble (.setRate rate))
          (both (assemble (.setRfBw bw)) (both (assemble (.setFmDev dev)) (assemble .applyForce)))) ∧
      assemble (.retune off) = both (assemble (.setOffset off)) (assemble (.apply 1)) ∧
      assemble (.changeRate rate) = both (assemble (.setRate rate)) (assemble (.apply 2)) ∧
      assemble (.changeBw bw) = both (assemble (.setRfBw bw)) (assemble (.apply 4)) ∧
      assemble (.changeDev dev) = both (assemble (.setFmDev dev)) (assemble (.apply 8))

/-! ### Exactness in every instance, and the forced APPLY by the rules alone -/

/-- R141, with R15 and R16: the decision is exact in every instance, whatever its NUM. At every
correlator update `curSample` is 1 exactly when the real number `filt1 - filt0` is at least 0, so a tie
gives 1; and a difference that is a negative zero gives 1. That a tie decides 1 in an instance other
than the reference is the model's reading of R15, R16 and R141 (log 21, DEDUCED), since 93 I17 leaves it
to that instance's comparison. -/
def Obligations.DecisionIsExactInEveryInstance : Prop :=
  ∀ (P : Params) (ci : CVal) (s : State),
    (isUpdate P (discFreq P s ci) s.corr = true →
      let t := process P ci s
      t.sync.diff = t.lpf.filt1.minus t.lpf.filt0 ∧
        P.real t.sync.diff = P.real t.lpf.filt1 - P.real t.lpf.filt0 ∧
        (t.sync.curSample = true ↔ 0 ≤ P.real t.lpf.filt1 - P.real t.lpf.filt0)) ∧
    decisionBit P .negZero = true

/-- R174, R175: a forced APPLY, by the rules alone: what it checks, every value FORCE_REBUILD writes,
and what it keeps. Of the tap slots, which R37 and R40 leave without a value after a force, it says
nothing. -/
def Obligations.ForcedApplyLeavesTheResetState : Prop :=
  ∀ (mask : BitVec 4) (s : State), s.status.fault = false →
    (s.stg.valid ≠ 15 →
      exec (.apply true mask) s = .next { s with status := { fault := true, code := 2 } }) ∧
    (s.stg.valid = 15 → s.stg.value.inputRate = 0 ∨ s.stg.value.fmDeviation = 0 →
      exec (.apply true mask) s = .next { s with status := { fault := true, code := 3 } }) ∧
    (s.stg.valid = 15 → s.stg.value.inputRate ≠ 0 → s.stg.value.fmDeviation ≠ 0 →
      ∃ t r : State, exec (.apply true mask) s = .next t ∧ exec .reset s = .next r ∧
        t.cfg = s.stg.value ∧ t.configured = true ∧ DerivedCurrent Config.params t.cfg t.derived ∧
        t.ncoAcc = r.ncoAcc ∧ t.rc = r.rc ∧ t.discPrev = r.discPrev ∧ t.level = r.level ∧
        t.corr = r.corr ∧ t.lpf = r.lpf ∧ t.sync = r.sync ∧ t.frame = r.frame ∧
        t.scope.cnt = 0 ∧ t.ana.cnt = 0 ∧
        t.stg = s.stg ∧ t.status = s.status ∧ t.commands = s.commands ∧
        t.tsDraws = s.tsDraws ∧ t.packetOut = s.packetOut ∧ t.scopeOut = s.scopeOut ∧
        t.analyzerOut = s.analyzerOut)
end

