-- ==== Sys2Proof/Laws/State.lean ====
section
/-!
SUPPORT. The small lemmas of State: for each update of the state, what every field is after it, one
equation per field, all true by `rfl` (simp takes each conjunct as a rule of its own). Later proofs
cite these and never unfold a record update.
-/

namespace Sys2Proof.Machine

/-- Fault entry writes the status registers only (R205). -/
@[simp] theorem raiseFault_fields (c : FaultCode) (s : State) :
    (raiseFault c s).stg = s.stg ∧ (raiseFault c s).cfg = s.cfg ∧
    (raiseFault c s).configured = s.configured ∧ (raiseFault c s).derived = s.derived ∧
    (raiseFault c s).ncoAcc = s.ncoAcc ∧ (raiseFault c s).rc = s.rc ∧
    (raiseFault c s).discPrev = s.discPrev ∧ (raiseFault c s).level = s.level ∧
    (raiseFault c s).corr = s.corr ∧ (raiseFault c s).lpf = s.lpf ∧
    (raiseFault c s).sync = s.sync ∧ (raiseFault c s).frame = s.frame ∧
    (raiseFault c s).scope = s.scope ∧ (raiseFault c s).ana = s.ana ∧
    (raiseFault c s).status = { fault := true, code := c.code } ∧
    (raiseFault c s).commands = s.commands ∧ (raiseFault c s).tsDraws = s.tsDraws ∧
    (raiseFault c s).packetOut = s.packetOut ∧ (raiseFault c s).scopeOut = s.scopeOut ∧
    (raiseFault c s).analyzerOut = s.analyzerOut :=
  ⟨rfl, rfl, rfl, rfl, rfl, rfl, rfl, rfl, rfl, rfl, rfl, rfl, rfl, rfl, rfl, rfl, rfl, rfl, rfl, rfl⟩

/-- A timing restart writes `rcAcc` only (R103). -/
@[simp] theorem restartTiming_fields (P : Params) (s : State) :
    (restartTiming P s).stg = s.stg ∧ (restartTiming P s).cfg = s.cfg ∧
    (restartTiming P s).configured = s.configured ∧ (restartTiming P s).derived = s.derived ∧
    (restartTiming P s).ncoAcc = s.ncoAcc ∧
    (restartTiming P s).rc = { s.rc with acc := P.internalRate } ∧
    (restartTiming P s).discPrev = s.discPrev ∧ (restartTiming P s).level = s.level ∧
    (restartTiming P s).corr = s.corr ∧ (restartTiming P s).lpf = s.lpf ∧
    (restartTiming P s).sync = s.sync ∧ (restartTiming P s).frame = s.frame ∧
    (restartTiming P s).scope = s.scope ∧ (restartTiming P s).ana = s.ana ∧
    (restartTiming P s).status = s.status ∧ (restartTiming P s).commands = s.commands ∧
    (restartTiming P s).tsDraws = s.tsDraws ∧ (restartTiming P s).packetOut = s.packetOut ∧
    (restartTiming P s).scopeOut = s.scopeOut ∧ (restartTiming P s).analyzerOut = s.analyzerOut :=
  ⟨rfl, rfl, rfl, rfl, rfl, rfl, rfl, rfl, rfl, rfl, rfl, rfl, rfl, rfl, rfl, rfl, rfl, rfl, rfl, rfl⟩

/-- Discarding partial batches writes the tap counts only (R37). -/
@[simp] theorem discardBatches_fields (s : State) :
    (discardBatches s).stg = s.stg ∧ (discardBatches s).cfg = s.cfg ∧
    (discardBatches s).configured = s.configured ∧ (discardBatches s).derived = s.derived ∧
    (discardBatches s).ncoAcc = s.ncoAcc ∧ (discardBatches s).rc = s.rc ∧
    (discardBatches s).discPrev = s.discPrev ∧ (discardBatches s).level = s.level ∧
    (discardBatches s).corr = s.corr ∧ (discardBatches s).lpf = s.lpf ∧
    (discardBatches s).sync = s.sync ∧ (discardBatches s).frame = s.frame ∧
    (discardBatches s).scope = { s.scope with cnt := 0 } ∧
    (discardBatches s).ana = { s.ana with cnt := 0 } ∧ (discardBatches s).status = s.status ∧
    (discardBatches s).commands = s.commands ∧ (discardBatches s).tsDraws = s.tsDraws ∧
    (discardBatches s).packetOut = s.packetOut ∧ (discardBatches s).scopeOut = s.scopeOut ∧
    (discardBatches s).analyzerOut = s.analyzerOut :=
  ⟨rfl, rfl, rfl, rfl, rfl, rfl, rfl, rfl, rfl, rfl, rfl, rfl, rfl, rfl, rfl, rfl, rfl, rfl, rfl, rfl⟩

/-- Emitting a packet appends to its port only (R159). -/
@[simp] theorem emitPacket_fields (p : Packet) (s : State) :
    (emitPacket p s).stg = s.stg ∧ (emitPacket p s).cfg = s.cfg ∧
    (emitPacket p s).configured = s.configured ∧ (emitPacket p s).derived = s.derived ∧
    (emitPacket p s).ncoAcc = s.ncoAcc ∧ (emitPacket p s).rc = s.rc ∧
    (emitPacket p s).discPrev = s.discPrev ∧ (emitPacket p s).level = s.level ∧
    (emitPacket p s).corr = s.corr ∧ (emitPacket p s).lpf = s.lpf ∧
    (emitPacket p s).sync = s.sync ∧ (emitPacket p s).frame = s.frame ∧
    (emitPacket p s).scope = s.scope ∧ (emitPacket p s).ana = s.ana ∧
    (emitPacket p s).status = s.status ∧ (emitPacket p s).commands = s.commands ∧
    (emitPacket p s).tsDraws = s.tsDraws ∧ (emitPacket p s).packetOut = s.packetOut ++ [p] ∧
    (emitPacket p s).scopeOut = s.scopeOut ∧ (emitPacket p s).analyzerOut = s.analyzerOut :=
  ⟨rfl, rfl, rfl, rfl, rfl, rfl, rfl, rfl, rfl, rfl, rfl, rfl, rfl, rfl, rfl, rfl, rfl, rfl, rfl, rfl⟩

/-- Emitting a scope batch appends to its port only (R192). -/
@[simp] theorem emitScope_fields (b : List ScopeRecord) (s : State) :
    (emitScope b s).stg = s.stg ∧ (emitScope b s).cfg = s.cfg ∧
    (emitScope b s).configured = s.configured ∧ (emitScope b s).derived = s.derived ∧
    (emitScope b s).ncoAcc = s.ncoAcc ∧ (emitScope b s).rc = s.rc ∧
    (emitScope b s).discPrev = s.discPrev ∧ (emitScope b s).level = s.level ∧
    (emitScope b s).corr = s.corr ∧ (emitScope b s).lpf = s.lpf ∧ (emitScope b s).sync = s.sync ∧
    (emitScope b s).frame = s.frame ∧ (emitScope b s).scope = s.scope ∧
    (emitScope b s).ana = s.ana ∧ (emitScope b s).status = s.status ∧
    (emitScope b s).commands = s.commands ∧ (emitScope b s).tsDraws = s.tsDraws ∧
    (emitScope b s).packetOut = s.packetOut ∧ (emitScope b s).scopeOut = s.scopeOut ++ [b] ∧
    (emitScope b s).analyzerOut = s.analyzerOut :=
  ⟨rfl, rfl, rfl, rfl, rfl, rfl, rfl, rfl, rfl, rfl, rfl, rfl, rfl, rfl, rfl, rfl, rfl, rfl, rfl, rfl⟩

/-- Emitting an analyzer batch appends to its port only (R192). -/
@[simp] theorem emitAnalyzer_fields (b : List (BitVec 16)) (s : State) :
    (emitAnalyzer b s).stg = s.stg ∧ (emitAnalyzer b s).cfg = s.cfg ∧
    (emitAnalyzer b s).configured = s.configured ∧ (emitAnalyzer b s).derived = s.derived ∧
    (emitAnalyzer b s).ncoAcc = s.ncoAcc ∧ (emitAnalyzer b s).rc = s.rc ∧
    (emitAnalyzer b s).discPrev = s.discPrev ∧ (emitAnalyzer b s).level = s.level ∧
    (emitAnalyzer b s).corr = s.corr ∧ (emitAnalyzer b s).lpf = s.lpf ∧
    (emitAnalyzer b s).sync = s.sync ∧ (emitAnalyzer b s).frame = s.frame ∧
    (emitAnalyzer b s).scope = s.scope ∧ (emitAnalyzer b s).ana = s.ana ∧
    (emitAnalyzer b s).status = s.status ∧ (emitAnalyzer b s).commands = s.commands ∧
    (emitAnalyzer b s).tsDraws = s.tsDraws ∧ (emitAnalyzer b s).packetOut = s.packetOut ∧
    (emitAnalyzer b s).scopeOut = s.scopeOut ∧
    (emitAnalyzer b s).analyzerOut = s.analyzerOut ++ [b] :=
  ⟨rfl, rfl, rfl, rfl, rfl, rfl, rfl, rfl, rfl, rfl, rfl, rfl, rfl, rfl, rfl, rfl, rfl, rfl, rfl, rfl⟩

/-- Only `bitStrobe` is cleared at the start of an internal sample (R104). -/
@[simp] theorem clearStrobe_fields (s : State) :
    (clearStrobe s).stg = s.stg ∧ (clearStrobe s).cfg = s.cfg ∧
    (clearStrobe s).configured = s.configured ∧ (clearStrobe s).derived = s.derived ∧
    (clearStrobe s).ncoAcc = s.ncoAcc ∧ (clearStrobe s).rc = s.rc ∧
    (clearStrobe s).discPrev = s.discPrev ∧ (clearStrobe s).level = s.level ∧
    (clearStrobe s).corr = s.corr ∧ (clearStrobe s).lpf = s.lpf ∧
    (clearStrobe s).sync = { s.sync with bitStrobe := false } ∧ (clearStrobe s).frame = s.frame ∧
    (clearStrobe s).scope = s.scope ∧ (clearStrobe s).ana = s.ana ∧
    (clearStrobe s).status = s.status ∧ (clearStrobe s).commands = s.commands ∧
    (clearStrobe s).tsDraws = s.tsDraws ∧ (clearStrobe s).packetOut = s.packetOut ∧
    (clearStrobe s).scopeOut = s.scopeOut ∧ (clearStrobe s).analyzerOut = s.analyzerOut :=
  ⟨rfl, rfl, rfl, rfl, rfl, rfl, rfl, rfl, rfl, rfl, rfl, rfl, rfl, rfl, rfl, rfl, rfl, rfl, rfl, rfl⟩

/-- DISC writes `discPrev` only (R110). -/
@[simp] theorem storePrev_fields (ci : CVal) (s : State) :
    (storePrev ci s).stg = s.stg ∧ (storePrev ci s).cfg = s.cfg ∧
    (storePrev ci s).configured = s.configured ∧ (storePrev ci s).derived = s.derived ∧
    (storePrev ci s).ncoAcc = s.ncoAcc ∧ (storePrev ci s).rc = s.rc ∧
    (storePrev ci s).discPrev = ci ∧ (storePrev ci s).level = s.level ∧
    (storePrev ci s).corr = s.corr ∧ (storePrev ci s).lpf = s.lpf ∧
    (storePrev ci s).sync = s.sync ∧ (storePrev ci s).frame = s.frame ∧
    (storePrev ci s).scope = s.scope ∧ (storePrev ci s).ana = s.ana ∧
    (storePrev ci s).status = s.status ∧ (storePrev ci s).commands = s.commands ∧
    (storePrev ci s).tsDraws = s.tsDraws ∧ (storePrev ci s).packetOut = s.packetOut ∧
    (storePrev ci s).scopeOut = s.scopeOut ∧ (storePrev ci s).analyzerOut = s.analyzerOut :=
  ⟨rfl, rfl, rfl, rfl, rfl, rfl, rfl, rfl, rfl, rfl, rfl, rfl, rfl, rfl, rfl, rfl, rfl, rfl, rfl, rfl⟩

/-- LEVEL writes the level meter only (R113, R191). -/
@[simp] theorem levelStage_fields (P : Params) (pw : Val) (s : State) :
    (levelStage P pw s).stg = s.stg ∧ (levelStage P pw s).cfg = s.cfg ∧
    (levelStage P pw s).configured = s.configured ∧ (levelStage P pw s).derived = s.derived ∧
    (levelStage P pw s).ncoAcc = s.ncoAcc ∧ (levelStage P pw s).rc = s.rc ∧
    (levelStage P pw s).discPrev = s.discPrev ∧
    (levelStage P pw s).level = levelUpdate P pw s.level ∧ (levelStage P pw s).corr = s.corr ∧
    (levelStage P pw s).lpf = s.lpf ∧ (levelStage P pw s).sync = s.sync ∧
    (levelStage P pw s).frame = s.frame ∧ (levelStage P pw s).scope = s.scope ∧
    (levelStage P pw s).ana = s.ana ∧ (levelStage P pw s).status = s.status ∧
    (levelStage P pw s).commands = s.commands ∧ (levelStage P pw s).tsDraws = s.tsDraws ∧
    (levelStage P pw s).packetOut = s.packetOut ∧ (levelStage P pw s).scopeOut = s.scopeOut ∧
    (levelStage P pw s).analyzerOut = s.analyzerOut :=
  ⟨rfl, rfl, rfl, rfl, rfl, rfl, rfl, rfl, rfl, rfl, rfl, rfl, rfl, rfl, rfl, rfl, rfl, rfl, rfl, rfl⟩

/-- CORR writes the correlator only (R121). -/
@[simp] theorem corrStage_fields (P : Params) (fm : Val) (s : State) :
    (corrStage P fm s).stg = s.stg ∧ (corrStage P fm s).cfg = s.cfg ∧
    (corrStage P fm s).configured = s.configured ∧ (corrStage P fm s).derived = s.derived ∧
    (corrStage P fm s).ncoAcc = s.ncoAcc ∧ (corrStage P fm s).rc = s.rc ∧
    (corrStage P fm s).discPrev = s.discPrev ∧ (corrStage P fm s).level = s.level ∧
    (corrStage P fm s).corr = corrUpdate P s.derived fm s.corr ∧ (corrStage P fm s).lpf = s.lpf ∧
    (corrStage P fm s).sync = s.sync ∧ (corrStage P fm s).frame = s.frame ∧
    (corrStage P fm s).scope = s.scope ∧ (corrStage P fm s).ana = s.ana ∧
    (corrStage P fm s).status = s.status ∧ (corrStage P fm s).commands = s.commands ∧
    (corrStage P fm s).tsDraws = s.tsDraws ∧ (corrStage P fm s).packetOut = s.packetOut ∧
    (corrStage P fm s).scopeOut = s.scopeOut ∧ (corrStage P fm s).analyzerOut = s.analyzerOut :=
  ⟨rfl, rfl, rfl, rfl, rfl, rfl, rfl, rfl, rfl, rfl, rfl, rfl, rfl, rfl, rfl, rfl, rfl, rfl, rfl, rfl⟩

/-- LPF writes the filters only (R130). -/
@[simp] theorem lpfStage_fields (P : Params) (s : State) :
    (lpfStage P s).stg = s.stg ∧ (lpfStage P s).cfg = s.cfg ∧
    (lpfStage P s).configured = s.configured ∧ (lpfStage P s).derived = s.derived ∧
    (lpfStage P s).ncoAcc = s.ncoAcc ∧ (lpfStage P s).rc = s.rc ∧
    (lpfStage P s).discPrev = s.discPrev ∧ (lpfStage P s).level = s.level ∧
    (lpfStage P s).corr = s.corr ∧
    (lpfStage P s).lpf = lpfUpdate P s.corr.mag0 s.corr.mag1 s.lpf ∧
    (lpfStage P s).sync = s.sync ∧ (lpfStage P s).frame = s.frame ∧
    (lpfStage P s).scope = s.scope ∧ (lpfStage P s).ana = s.ana ∧
    (lpfStage P s).status = s.status ∧ (lpfStage P s).commands = s.commands ∧
    (lpfStage P s).tsDraws = s.tsDraws ∧ (lpfStage P s).packetOut = s.packetOut ∧
    (lpfStage P s).scopeOut = s.scopeOut ∧ (lpfStage P s).analyzerOut = s.analyzerOut :=
  ⟨rfl, rfl, rfl, rfl, rfl, rfl, rfl, rfl, rfl, rfl, rfl, rfl, rfl, rfl, rfl, rfl, rfl, rfl, rfl, rfl⟩

/-- MIX writes `ncoAcc` only (R96). -/
@[simp] theorem advancePhase_fields (s : State) :
    (advancePhase s).stg = s.stg ∧ (advancePhase s).cfg = s.cfg ∧
    (advancePhase s).configured = s.configured ∧ (advancePhase s).derived = s.derived ∧
    (advancePhase s).ncoAcc = (s.ncoAcc + s.derived.ncoStep) % unsignedHz s.cfg.inputRate ∧
    (advancePhase s).rc = s.rc ∧ (advancePhase s).discPrev = s.discPrev ∧
    (advancePhase s).level = s.level ∧ (advancePhase s).corr = s.corr ∧
    (advancePhase s).lpf = s.lpf ∧ (advancePhase s).sync = s.sync ∧
    (advancePhase s).frame = s.frame ∧ (advancePhase s).scope = s.scope ∧
    (advancePhase s).ana = s.ana ∧ (advancePhase s).status = s.status ∧
    (advancePhase s).commands = s.commands ∧ (advancePhase s).tsDraws = s.tsDraws ∧
    (advancePhase s).packetOut = s.packetOut ∧ (advancePhase s).scopeOut = s.scopeOut ∧
    (advancePhase s).analyzerOut = s.analyzerOut :=
  ⟨rfl, rfl, rfl, rfl, rfl, rfl, rfl, rfl, rfl, rfl, rfl, rfl, rfl, rfl, rfl, rfl, rfl, rfl, rfl, rfl⟩

/-- The history update writes `rcHist` only (R99). -/
@[simp] theorem pushMixed_fields (m : CVal) (s : State) :
    (pushMixed m s).stg = s.stg ∧ (pushMixed m s).cfg = s.cfg ∧
    (pushMixed m s).configured = s.configured ∧ (pushMixed m s).derived = s.derived ∧
    (pushMixed m s).ncoAcc = s.ncoAcc ∧
    (pushMixed m s).rc = { s.rc with hist := pushNewest m s.rc.hist } ∧
    (pushMixed m s).discPrev = s.discPrev ∧ (pushMixed m s).level = s.level ∧
    (pushMixed m s).corr = s.corr ∧ (pushMixed m s).lpf = s.lpf ∧ (pushMixed m s).sync = s.sync ∧
    (pushMixed m s).frame = s.frame ∧ (pushMixed m s).scope = s.scope ∧
    (pushMixed m s).ana = s.ana ∧ (pushMixed m s).status = s.status ∧
    (pushMixed m s).commands = s.commands ∧ (pushMixed m s).tsDraws = s.tsDraws ∧
    (pushMixed m s).packetOut = s.packetOut ∧ (pushMixed m s).scopeOut = s.scopeOut ∧
    (pushMixed m s).analyzerOut = s.analyzerOut :=
  ⟨rfl, rfl, rfl, rfl, rfl, rfl, rfl, rfl, rfl, rfl, rfl, rfl, rfl, rfl, rfl, rfl, rfl, rfl, rfl, rfl⟩

/-- Taking an input writes `rcAcc` only (R100). -/
@[simp] theorem consumeInput_fields (P : Params) (s : State) :
    (consumeInput P s).stg = s.stg ∧ (consumeInput P s).cfg = s.cfg ∧
    (consumeInput P s).configured = s.configured ∧ (consumeInput P s).derived = s.derived ∧
    (consumeInput P s).ncoAcc = s.ncoAcc ∧
    (consumeInput P s).rc = { s.rc with acc := s.rc.acc - P.internalRate } ∧
    (consumeInput P s).discPrev = s.discPrev ∧ (consumeInput P s).level = s.level ∧
    (consumeInput P s).corr = s.corr ∧ (consumeInput P s).lpf = s.lpf ∧
    (consumeInput P s).sync = s.sync ∧ (consumeInput P s).frame = s.frame ∧
    (consumeInput P s).scope = s.scope ∧ (consumeInput P s).ana = s.ana ∧
    (consumeInput P s).status = s.status ∧ (consumeInput P s).commands = s.commands ∧
    (consumeInput P s).tsDraws = s.tsDraws ∧ (consumeInput P s).packetOut = s.packetOut ∧
    (consumeInput P s).scopeOut = s.scopeOut ∧ (consumeInput P s).analyzerOut = s.analyzerOut :=
  ⟨rfl, rfl, rfl, rfl, rfl, rfl, rfl, rfl, rfl, rfl, rfl, rfl, rfl, rfl, rfl, rfl, rfl, rfl, rfl, rfl⟩

/-- SET writes its staging register and valid bit only (R57, R170). -/
@[simp] theorem stageKey_fields (k : Key) (v : BitVec 32) (s : State) :
    (stageKey k v s).stg = { value := putKey s.stg.value v k, valid := setValid s.stg.valid k } ∧
    (stageKey k v s).cfg = s.cfg ∧ (stageKey k v s).configured = s.configured ∧
    (stageKey k v s).derived = s.derived ∧ (stageKey k v s).ncoAcc = s.ncoAcc ∧
    (stageKey k v s).rc = s.rc ∧ (stageKey k v s).discPrev = s.discPrev ∧
    (stageKey k v s).level = s.level ∧ (stageKey k v s).corr = s.corr ∧
    (stageKey k v s).lpf = s.lpf ∧ (stageKey k v s).sync = s.sync ∧
    (stageKey k v s).frame = s.frame ∧ (stageKey k v s).scope = s.scope ∧
    (stageKey k v s).ana = s.ana ∧ (stageKey k v s).status = s.status ∧
    (stageKey k v s).commands = s.commands ∧ (stageKey k v s).tsDraws = s.tsDraws ∧
    (stageKey k v s).packetOut = s.packetOut ∧ (stageKey k v s).scopeOut = s.scopeOut ∧
    (stageKey k v s).analyzerOut = s.analyzerOut :=
  ⟨rfl, rfl, rfl, rfl, rfl, rfl, rfl, rfl, rfl, rfl, rfl, rfl, rfl, rfl, rfl, rfl, rfl, rfl, rfl, rfl⟩

/-- Recomputing `ncoStep` writes nothing else (R25). -/
@[simp] theorem rebuildStep_fields (s : State) :
    (rebuildStep s).stg = s.stg ∧ (rebuildStep s).cfg = s.cfg ∧
    (rebuildStep s).configured = s.configured ∧
    (rebuildStep s).derived = { s.derived with ncoStep := ncoStepOf s.cfg } ∧
    (rebuildStep s).ncoAcc = s.ncoAcc ∧ (rebuildStep s).rc = s.rc ∧
    (rebuildStep s).discPrev = s.discPrev ∧ (rebuildStep s).level = s.level ∧
    (rebuildStep s).corr = s.corr ∧ (rebuildStep s).lpf = s.lpf ∧ (rebuildStep s).sync = s.sync ∧
    (rebuildStep s).frame = s.frame ∧ (rebuildStep s).scope = s.scope ∧
    (rebuildStep s).ana = s.ana ∧ (rebuildStep s).status = s.status ∧
    (rebuildStep s).commands = s.commands ∧ (rebuildStep s).tsDraws = s.tsDraws ∧
    (rebuildStep s).packetOut = s.packetOut ∧ (rebuildStep s).scopeOut = s.scopeOut ∧
    (rebuildStep s).analyzerOut = s.analyzerOut :=
  ⟨rfl, rfl, rfl, rfl, rfl, rfl, rfl, rfl, rfl, rfl, rfl, rfl, rfl, rfl, rfl, rfl, rfl, rfl, rfl, rfl⟩

/-- Recomputing `discScale` writes nothing else (R26, R117). -/
@[simp] theorem rebuildScale_fields (P : Params) (s : State) :
    (rebuildScale P s).stg = s.stg ∧ (rebuildScale P s).cfg = s.cfg ∧
    (rebuildScale P s).configured = s.configured ∧
    (rebuildScale P s).derived = { s.derived with discScale := discScaleOf P s.cfg } ∧
    (rebuildScale P s).ncoAcc = s.ncoAcc ∧ (rebuildScale P s).rc = s.rc ∧
    (rebuildScale P s).discPrev = s.discPrev ∧ (rebuildScale P s).level = s.level ∧
    (rebuildScale P s).corr = s.corr ∧ (rebuildScale P s).lpf = s.lpf ∧
    (rebuildScale P s).sync = s.sync ∧ (rebuildScale P s).frame = s.frame ∧
    (rebuildScale P s).scope = s.scope ∧ (rebuildScale P s).ana = s.ana ∧
    (rebuildScale P s).status = s.status ∧ (rebuildScale P s).commands = s.commands ∧
    (rebuildScale P s).tsDraws = s.tsDraws ∧ (rebuildScale P s).packetOut = s.packetOut ∧
    (rebuildScale P s).scopeOut = s.scopeOut ∧ (rebuildScale P s).analyzerOut = s.analyzerOut :=
  ⟨rfl, rfl, rfl, rfl, rfl, rfl, rfl, rfl, rfl, rfl, rfl, rfl, rfl, rfl, rfl, rfl, rfl, rfl, rfl, rfl⟩

/-- Rebuilding `rcKernelCfg` writes nothing else (R27). -/
@[simp] theorem rebuildKernel_fields (s : State) :
    (rebuildKernel s).stg = s.stg ∧ (rebuildKernel s).cfg = s.cfg ∧
    (rebuildKernel s).configured = s.configured ∧
    (rebuildKernel s).derived = { s.derived with rcKernelCfg := rcKernelOf s.cfg } ∧
    (rebuildKernel s).ncoAcc = s.ncoAcc ∧ (rebuildKernel s).rc = s.rc ∧
    (rebuildKernel s).discPrev = s.discPrev ∧ (rebuildKernel s).level = s.level ∧
    (rebuildKernel s).corr = s.corr ∧ (rebuildKernel s).lpf = s.lpf ∧
    (rebuildKernel s).sync = s.sync ∧ (rebuildKernel s).frame = s.frame ∧
    (rebuildKernel s).scope = s.scope ∧ (rebuildKernel s).ana = s.ana ∧
    (rebuildKernel s).status = s.status ∧ (rebuildKernel s).commands = s.commands ∧
    (rebuildKernel s).tsDraws = s.tsDraws ∧ (rebuildKernel s).packetOut = s.packetOut ∧
    (rebuildKernel s).scopeOut = s.scopeOut ∧ (rebuildKernel s).analyzerOut = s.analyzerOut :=
  ⟨rfl, rfl, rfl, rfl, rfl, rfl, rfl, rfl, rfl, rfl, rfl, rfl, rfl, rfl, rfl, rfl, rfl, rfl, rfl, rfl⟩

/-- Rebuilding the tone tables writes nothing else (R120). -/
@[simp] theorem rebuildTones_fields (P : Params) (s : State) :
    (rebuildTones P s).stg = s.stg ∧ (rebuildTones P s).cfg = s.cfg ∧
    (rebuildTones P s).configured = s.configured ∧
    (rebuildTones P s).derived = toneBuild P s.derived ∧ (rebuildTones P s).ncoAcc = s.ncoAcc ∧
    (rebuildTones P s).rc = s.rc ∧ (rebuildTones P s).discPrev = s.discPrev ∧
    (rebuildTones P s).level = s.level ∧ (rebuildTones P s).corr = s.corr ∧
    (rebuildTones P s).lpf = s.lpf ∧ (rebuildTones P s).sync = s.sync ∧
    (rebuildTones P s).frame = s.frame ∧ (rebuildTones P s).scope = s.scope ∧
    (rebuildTones P s).ana = s.ana ∧ (rebuildTones P s).status = s.status ∧
    (rebuildTones P s).commands = s.commands ∧ (rebuildTones P s).tsDraws = s.tsDraws ∧
    (rebuildTones P s).packetOut = s.packetOut ∧ (rebuildTones P s).scopeOut = s.scopeOut ∧
    (rebuildTones P s).analyzerOut = s.analyzerOut :=
  ⟨rfl, rfl, rfl, rfl, rfl, rfl, rfl, rfl, rfl, rfl, rfl, rfl, rfl, rfl, rfl, rfl, rfl, rfl, rfl, rfl⟩

/-- Clearing the status writes nothing else (R220). -/
@[simp] theorem clearStatus_fields (s : State) :
    (clearStatus s).stg = s.stg ∧ (clearStatus s).cfg = s.cfg ∧
    (clearStatus s).configured = s.configured ∧ (clearStatus s).derived = s.derived ∧
    (clearStatus s).ncoAcc = s.ncoAcc ∧ (clearStatus s).rc = s.rc ∧
    (clearStatus s).discPrev = s.discPrev ∧ (clearStatus s).level = s.level ∧
    (clearStatus s).corr = s.corr ∧ (clearStatus s).lpf = s.lpf ∧ (clearStatus s).sync = s.sync ∧
    (clearStatus s).frame = s.frame ∧ (clearStatus s).scope = s.scope ∧
    (clearStatus s).ana = s.ana ∧ (clearStatus s).status = { fault := false, code := 0 } ∧
    (clearStatus s).commands = s.commands ∧ (clearStatus s).tsDraws = s.tsDraws ∧
    (clearStatus s).packetOut = s.packetOut ∧ (clearStatus s).scopeOut = s.scopeOut ∧
    (clearStatus s).analyzerOut = s.analyzerOut :=
  ⟨rfl, rfl, rfl, rfl, rfl, rfl, rfl, rfl, rfl, rfl, rfl, rfl, rfl, rfl, rfl, rfl, rfl, rfl, rfl, rfl⟩

/-- Delivering a command writes the command stream only (R217). -/
@[simp] theorem deliver_fields (w : Word) (s : State) :
    (deliver w s).stg = s.stg ∧ (deliver w s).cfg = s.cfg ∧
    (deliver w s).configured = s.configured ∧ (deliver w s).derived = s.derived ∧
    (deliver w s).ncoAcc = s.ncoAcc ∧ (deliver w s).rc = s.rc ∧
    (deliver w s).discPrev = s.discPrev ∧ (deliver w s).level = s.level ∧
    (deliver w s).corr = s.corr ∧ (deliver w s).lpf = s.lpf ∧ (deliver w s).sync = s.sync ∧
    (deliver w s).frame = s.frame ∧ (deliver w s).scope = s.scope ∧ (deliver w s).ana = s.ana ∧
    (deliver w s).status = s.status ∧ (deliver w s).commands = s.commands ++ [w] ∧
    (deliver w s).tsDraws = s.tsDraws ∧ (deliver w s).packetOut = s.packetOut ∧
    (deliver w s).scopeOut = s.scopeOut ∧ (deliver w s).analyzerOut = s.analyzerOut :=
  ⟨rfl, rfl, rfl, rfl, rfl, rfl, rfl, rfl, rfl, rfl, rfl, rfl, rfl, rfl, rfl, rfl, rfl, rfl, rfl, rfl⟩


/-- Drawing a timestamp counts the draw and changes nothing else (R158). -/
@[simp] theorem drawTimestamp_fst (P : Params) (s : State) :
    (drawTimestamp P s).1 = P.timestamp s.tsDraws := rfl

@[simp] theorem drawTimestamp_snd (P : Params) (s : State) :
    (drawTimestamp P s).2 = { s with tsDraws := s.tsDraws + 1 } := rfl

/-- EMIT appends one packet and counts one draw (R158). -/
theorem emitStage_eq (P : Params) (s : State) :
    emitStage P s =
      { s with
        tsDraws := s.tsDraws + 1
        packetOut := s.packetOut ++ [{ ts := P.timestamp s.tsDraws, bytes := s.frame.bytes }] } :=
  rfl

/-- Writing a key and reading it back. -/
@[simp] theorem getKey_putKey_self (c : ChannelConfig) (v : BitVec 32) (k : Key) :
    getKey (putKey c v k) k = v := by cases k <;> rfl

/-- Writing a key leaves the others. -/
theorem getKey_putKey_of_ne (c : ChannelConfig) (v : BitVec 32) {k j : Key} (h : j ≠ k) :
    getKey (putKey c v k) j = getKey c j := by cases k <;> cases j <;> first | rfl | exact absurd rfl h

/-- Two configurations with the same keys are equal. -/
theorem channelConfig_ext {c d : ChannelConfig} (h : ∀ k, getKey c k = getKey d k) : c = d := by
  have h0 := h .offset
  have h1 := h .inputRate
  have h2 := h .rfBandwidth
  have h3 := h .fmDeviation
  cases c
  cases d
  simp_all [getKey]

/-- Each key of the selected configuration (R172). -/
@[simp] theorem getKey_selectConfig (mask : BitVec 4) (stg cfg : ChannelConfig) (k : Key) :
    getKey (selectConfig mask stg cfg) k = selectKey mask stg cfg k := by cases k <;> rfl

/-- A valid bit after a SET (R22, R170). -/
theorem setValid_getLsbD (valid : BitVec 4) (k j : Key) :
    (setValid valid k).getLsbD j.index = (valid.getLsbD j.index || j == k) := by
  cases k <;> cases j <;> simp [setValid, Key.index]

/-- All four bits set is the value 15 (R174). -/
theorem allStaged_iff (valid : BitVec 4) : allStaged valid = true ↔ ∀ k : Key, valid.getLsbD k.index = true := by
  constructor
  · intro h k
    have : valid = 0b1111#4 := by simpa [allStaged] using h
    subst this
    cases k <;> rfl
  · intro h
    have h0 := h .offset
    have h1 := h .inputRate
    have h2 := h .rfBandwidth
    have h3 := h .fmDeviation
    simp only [Key.index] at h0 h1 h2 h3
    have : valid = 0b1111#4 := by
      ext i hi
      have : i = 0 ∨ i = 1 ∨ i = 2 ∨ i = 3 := by omega
      rcases this with rfl | rfl | rfl | rfl <;> simp_all
    simp [allStaged, this]

/-- A command on a block that is not faulted (R206). -/
@[simp] theorem unlessFaulted_of_not {s : State} (h : s.status.fault = false) (k : Result) :
    unlessFaulted s k = k := by simp [unlessFaulted, h]

/-- A command on a faulted block is ignored (R206). -/
@[simp] theorem unlessFaulted_of {s : State} (h : s.status.fault = true) (k : Result) :
    unlessFaulted s k = .next s := by simp [unlessFaulted, h]

end Sys2Proof.Machine
end

