-- ==== Sys2Proof/Laws/Stages.lean ====
section
/-!
SUPPORT. What each stage of the pipeline can do, said once: the fields a stage leaves alone, and the
cases of what it writes. Later proofs cite these and do not unfold a stage.
-/

namespace Sys2Proof.Machine

/-! ### The taps -/

/-- ANALYZER writes its tap and its port only (R189, R191). -/
@[simp] theorem analyzerStage_fields (P : Params) (fm : Val) (s : State) :
    (analyzerStage P fm s).stg = s.stg ∧ (analyzerStage P fm s).cfg = s.cfg ∧
    (analyzerStage P fm s).configured = s.configured ∧ (analyzerStage P fm s).derived = s.derived ∧
    (analyzerStage P fm s).ncoAcc = s.ncoAcc ∧ (analyzerStage P fm s).rc = s.rc ∧
    (analyzerStage P fm s).discPrev = s.discPrev ∧ (analyzerStage P fm s).level = s.level ∧
    (analyzerStage P fm s).corr = s.corr ∧ (analyzerStage P fm s).lpf = s.lpf ∧
    (analyzerStage P fm s).sync = s.sync ∧ (analyzerStage P fm s).frame = s.frame ∧
    (analyzerStage P fm s).scope = s.scope ∧ (analyzerStage P fm s).status = s.status ∧
    (analyzerStage P fm s).commands = s.commands ∧ (analyzerStage P fm s).tsDraws = s.tsDraws ∧
    (analyzerStage P fm s).packetOut = s.packetOut ∧ (analyzerStage P fm s).scopeOut = s.scopeOut := by
  unfold analyzerStage
  split <;> simp

/-- What ANALYZER writes (R189, R190): a slot, and either the next count or a whole batch. -/
theorem analyzerStage_cases (P : Params) (fm : Val) (s : State) :
    (s.ana.cnt + 1 = P.analyzerBatch ∧
      (analyzerStage P fm s).ana =
        { buf := s.ana.buf.set s.ana.cnt (analyzerValue P fm), cnt := 0 } ∧
      (analyzerStage P fm s).analyzerOut =
        s.analyzerOut ++ [s.ana.buf.set s.ana.cnt (analyzerValue P fm)]) ∨
    (s.ana.cnt + 1 ≠ P.analyzerBatch ∧
      (analyzerStage P fm s).ana =
        { buf := s.ana.buf.set s.ana.cnt (analyzerValue P fm), cnt := s.ana.cnt + 1 } ∧
      (analyzerStage P fm s).analyzerOut = s.analyzerOut) := by
  unfold analyzerStage
  split
  · exact .inl ⟨by assumption, by simp, by simp⟩
  · exact .inr ⟨by assumption, by simp, by simp⟩

/-- SCOPE writes its tap and its port only (R187, R191). -/
@[simp] theorem scopeStage_fields (P : Params) (ci : CVal) (pw fm : Val) (s : State) :
    (scopeStage P ci pw fm s).stg = s.stg ∧ (scopeStage P ci pw fm s).cfg = s.cfg ∧
    (scopeStage P ci pw fm s).configured = s.configured ∧
    (scopeStage P ci pw fm s).derived = s.derived ∧
    (scopeStage P ci pw fm s).ncoAcc = s.ncoAcc ∧ (scopeStage P ci pw fm s).rc = s.rc ∧
    (scopeStage P ci pw fm s).discPrev = s.discPrev ∧ (scopeStage P ci pw fm s).level = s.level ∧
    (scopeStage P ci pw fm s).corr = s.corr ∧ (scopeStage P ci pw fm s).lpf = s.lpf ∧
    (scopeStage P ci pw fm s).sync = s.sync ∧ (scopeStage P ci pw fm s).frame = s.frame ∧
    (scopeStage P ci pw fm s).ana = s.ana ∧ (scopeStage P ci pw fm s).status = s.status ∧
    (scopeStage P ci pw fm s).commands = s.commands ∧ (scopeStage P ci pw fm s).tsDraws = s.tsDraws ∧
    (scopeStage P ci pw fm s).packetOut = s.packetOut ∧
    (scopeStage P ci pw fm s).analyzerOut = s.analyzerOut := by
  unfold scopeStage
  split <;> simp

/-- What SCOPE writes (R187, R188): a slot, and either the next count or a whole batch. -/
theorem scopeStage_cases (P : Params) (ci : CVal) (pw fm : Val) (s : State) :
    (s.scope.cnt + 1 = P.scopeBatch ∧
      (scopeStage P ci pw fm s).scope =
        { buf := s.scope.buf.set s.scope.cnt (scopeRecord ci pw fm s), cnt := 0 } ∧
      (scopeStage P ci pw fm s).scopeOut =
        s.scopeOut ++ [s.scope.buf.set s.scope.cnt (scopeRecord ci pw fm s)]) ∨
    (s.scope.cnt + 1 ≠ P.scopeBatch ∧
      (scopeStage P ci pw fm s).scope =
        { buf := s.scope.buf.set s.scope.cnt (scopeRecord ci pw fm s), cnt := s.scope.cnt + 1 } ∧
      (scopeStage P ci pw fm s).scopeOut = s.scopeOut) := by
  unfold scopeStage
  split
  · exact .inl ⟨by assumption, by simp, by simp⟩
  · exact .inr ⟨by assumption, by simp, by simp⟩

/-! ### The correlator -/

/-- The two cases of CORR (R121): a correlator update, or only the ring. -/
theorem corrUpdate_cases (P : Params) (d : Derived) (fm : Val) (c : Correlator) :
    (isUpdate P fm c = true ∧ corrUpdate P d fm c = correlate P d (ringPush P fm c)) ∨
    (isUpdate P fm c = false ∧ corrUpdate P d fm c = ringPush P fm c) := by
  unfold corrUpdate
  cases h : isUpdate P fm c
  · exact .inr ⟨rfl, by simp⟩
  · exact .inl ⟨rfl, by simp⟩

/-- An internal sample is an update exactly when the ring is full after step 1 (R123, R124). -/
theorem isUpdate_iff (P : Params) (fm : Val) (c : Correlator) :
    isUpdate P fm c = true ↔ P.corrLen ≤ c.cnt + 1 := by
  simp [isUpdate, ringPush]

/-- CORR writes the ring and the index the same way in both cases (R122). -/
theorem corrUpdate_ring (P : Params) (d : Derived) (fm : Val) (c : Correlator) :
    (corrUpdate P d fm c).ring = c.ring.set c.idx fm ∧
      (corrUpdate P d fm c).idx = (c.idx + 1) % P.corrLen := by
  rcases corrUpdate_cases P d fm c with ⟨-, h⟩ | ⟨-, h⟩ <;> rw [h] <;> exact ⟨rfl, rfl⟩

/-- The fill counter after CORR (R122, R124), as a function of the counter before. -/
theorem corrUpdate_cnt (P : Params) (d : Derived) (fm : Val) (c : Correlator) :
    (corrUpdate P d fm c).cnt = min (c.cnt + 1) (P.corrLen - 1) := by
  have hL : 0 < P.corrLen := Nat.succ_pos _
  rcases corrUpdate_cases P d fm c with ⟨h, e⟩ | ⟨h, e⟩
  · rw [isUpdate_iff] at h
    rw [e]
    simp only [correlate, ringPush]
    omega
  · have h' : ¬ P.corrLen ≤ c.cnt + 1 := by rw [← isUpdate_iff P fm, h]; simp
    rw [e]
    simp only [ringPush]
    omega

/-! ### The frame assembler -/

/-- What FRAME may write: the assembler, and on completion one packet and one draw (R150, R158). -/
@[simp] theorem frameStage_fields (P : Params) (bit : Bool) (s : State) :
    (frameStage P bit s).stg = s.stg ∧ (frameStage P bit s).cfg = s.cfg ∧
    (frameStage P bit s).configured = s.configured ∧ (frameStage P bit s).derived = s.derived ∧
    (frameStage P bit s).ncoAcc = s.ncoAcc ∧ (frameStage P bit s).rc = s.rc ∧
    (frameStage P bit s).discPrev = s.discPrev ∧ (frameStage P bit s).level = s.level ∧
    (frameStage P bit s).corr = s.corr ∧ (frameStage P bit s).lpf = s.lpf ∧
    (frameStage P bit s).sync = s.sync ∧ (frameStage P bit s).scope = s.scope ∧
    (frameStage P bit s).ana = s.ana ∧ (frameStage P bit s).status = s.status ∧
    (frameStage P bit s).commands = s.commands ∧ (frameStage P bit s).scopeOut = s.scopeOut ∧
    (frameStage P bit s).analyzerOut = s.analyzerOut ∧
    (frameStage P bit s).frame = frameUpdate P bit s.frame := by
  unfold frameStage
  split <;> simp [emitStage_eq]

/-- The port and the draw counter after FRAME (R157, R158). -/
theorem frameStage_emits (P : Params) (bit : Bool) (s : State) :
    (isComplete (shiftIn bit s.frame) = true ∧ (frameStage P bit s).tsDraws = s.tsDraws + 1 ∧
      (frameStage P bit s).packetOut =
        s.packetOut ++ [{ ts := P.timestamp s.tsDraws, bytes := s.frame.bytes }]) ∨
    (isComplete (shiftIn bit s.frame) = false ∧ (frameStage P bit s).tsDraws = s.tsDraws ∧
      (frameStage P bit s).packetOut = s.packetOut) := by
  unfold frameStage
  cases h : isComplete (shiftIn bit s.frame)
  · exact .inr ⟨rfl, by simp, by simp⟩
  · exact .inl ⟨rfl, by simp [emitStage_eq], by simp [emitStage_eq]⟩

/-- The cases of FRAME on the assembler (R150 to R157). -/
theorem frameUpdate_cases (P : Params) (bit : Bool) (f : Framer) :
    let g := shiftIn bit f
    (f.gotSOP = true ∧ f.bitCount + 1 = 8 ∧ f.byteCount = payloadLen ∧
        frameUpdate P bit f = completeFrame g) ∨
    (f.gotSOP = true ∧ f.bitCount + 1 = 8 ∧ f.byteCount ≠ payloadLen ∧
        frameUpdate P bit f = storeByte g) ∨
    (f.gotSOP = true ∧ f.bitCount + 1 ≠ 8 ∧ frameUpdate P bit f = g) ∨
    (f.gotSOP = false ∧ f.bitCount + 1 < 17 ∧ frameUpdate P bit f = g) ∨
    (f.gotSOP = false ∧ 17 ≤ f.bitCount + 1 ∧ syncMatches P g.bits = true ∧
        frameUpdate P bit f = { g with gotSOP := true, bits := 0, bitCount := 0, byteCount := 0 }) ∨
    (f.gotSOP = false ∧ 17 ≤ f.bitCount + 1 ∧ syncMatches P g.bits = false ∧
        frameUpdate P bit f = { g with bits := g.bits >>> 1, bitCount := g.bitCount - 1 }) := by
  dsimp only
  cases hs : f.gotSOP with
  | true =>
    by_cases h8 : f.bitCount + 1 = 8
    · by_cases h : f.byteCount = payloadLen <;>
        simp [frameUpdate, isComplete, atByteBoundary, shiftIn, hs, h8, h]
    · have h7 : f.bitCount ≠ 7 := fun h => h8 (by omega)
      simp [frameUpdate, isComplete, atByteBoundary, shiftIn, hs, h7]
  | false =>
    by_cases h17 : 17 ≤ f.bitCount + 1
    · cases hm : syncMatches P (shiftIn bit f).bits
      · have e : frameUpdate P bit f =
            { shiftIn bit f with
              bits := (shiftIn bit f).bits >>> 1, bitCount := (shiftIn bit f).bitCount - 1 } := by
          have hc : syncWindow ≤ (shiftIn bit f).bitCount := h17
          have hg : (shiftIn bit f).gotSOP = false := hs
          simp [frameUpdate, searchStep, hg, hc, hm]
        simp [e, h17]
      · have e : frameUpdate P bit f =
            { shiftIn bit f with gotSOP := true, bits := 0, bitCount := 0, byteCount := 0 } := by
          have hc : syncWindow ≤ (shiftIn bit f).bitCount := h17
          have hg : (shiftIn bit f).gotSOP = false := hs
          simp [frameUpdate, searchStep, hg, hc, hm]
        simp [e, h17]
    · have e : frameUpdate P bit f = shiftIn bit f := by
        have hc : ¬syncWindow ≤ (shiftIn bit f).bitCount := h17
        have hg : (shiftIn bit f).gotSOP = false := hs
        simp [frameUpdate, searchStep, hg, hc]
      have : f.bitCount + 1 < 17 := by omega
      simp [e, this]

/-- A packet is complete exactly at the byte boundary after the last byte (R157). -/
theorem isComplete_shiftIn_iff (bit : Bool) (f : Framer) :
    isComplete (shiftIn bit f) = true ↔
      f.gotSOP = true ∧ f.bitCount + 1 = 8 ∧ f.byteCount = payloadLen := by
  simp [isComplete, atByteBoundary, shiftIn, and_assoc]

/-! ### The bit synchroniser -/

/-- BITSYNC writes the synchroniser, and through FRAME the assembler, the packet port and the draw
counter (R140, R144). -/
@[simp] theorem bitSyncStage_fields (P : Params) (s : State) :
    (bitSyncStage P s).stg = s.stg ∧ (bitSyncStage P s).cfg = s.cfg ∧
    (bitSyncStage P s).configured = s.configured ∧ (bitSyncStage P s).derived = s.derived ∧
    (bitSyncStage P s).ncoAcc = s.ncoAcc ∧ (bitSyncStage P s).rc = s.rc ∧
    (bitSyncStage P s).discPrev = s.discPrev ∧ (bitSyncStage P s).level = s.level ∧
    (bitSyncStage P s).corr = s.corr ∧ (bitSyncStage P s).lpf = s.lpf ∧
    (bitSyncStage P s).scope = s.scope ∧ (bitSyncStage P s).ana = s.ana ∧
    (bitSyncStage P s).status = s.status ∧ (bitSyncStage P s).commands = s.commands ∧
    (bitSyncStage P s).scopeOut = s.scopeOut ∧ (bitSyncStage P s).analyzerOut = s.analyzerOut ∧
    (bitSyncStage P s).sync = syncUpdate P (decisionDiff s.lpf) s.sync := by
  unfold bitSyncStage
  dsimp only
  split <;> simp

/-- What BITSYNC sends on: at a boundary the decision bit, else nothing (R142, R144). -/
theorem bitSyncStage_cases (P : Params) (s : State) :
    let bit := decisionBit P (decisionDiff s.lpf)
    let synced := { s with sync := syncUpdate P (decisionDiff s.lpf) s.sync }
    (isBoundary bit s.sync = true ∧ bitSyncStage P s = frameStage P bit synced) ∨
    (isBoundary bit s.sync = false ∧ bitSyncStage P s = synced) := by
  dsimp only
  unfold bitSyncStage
  dsimp only
  cases h : isBoundary (decisionBit P (decisionDiff s.lpf)) s.sync
  · exact .inr ⟨rfl, by simp⟩
  · exact .inl ⟨rfl, by simp⟩

/-! ### The pipeline -/

/-- `process`, stage by stage (R104): the state SCOPE sees. -/
def beforeScope (P : Params) (ci : CVal) (s : State) : State :=
  let fm := discFreq P s ci
  let tapped := analyzerStage P fm (levelStage P (powerEstimate ci) (storePrev ci (clearStrobe s)))
  if isUpdate P fm s.corr then onUpdate P (corrStage P fm tapped) else corrStage P fm tapped

theorem process_eq (P : Params) (ci : CVal) (s : State) :
    process P ci s = scopeStage P ci (powerEstimate ci) (discFreq P s ci) (beforeScope P ci s) := by
  simp [process, beforeScope]

/-- What the stages before SCOPE leave alone (R104, R179, R200). -/
@[simp] theorem beforeScope_fields (P : Params) (ci : CVal) (s : State) :
    (beforeScope P ci s).stg = s.stg ∧ (beforeScope P ci s).cfg = s.cfg ∧
    (beforeScope P ci s).configured = s.configured ∧ (beforeScope P ci s).derived = s.derived ∧
    (beforeScope P ci s).ncoAcc = s.ncoAcc ∧ (beforeScope P ci s).rc = s.rc ∧
    (beforeScope P ci s).discPrev = ci ∧
    (beforeScope P ci s).level = levelUpdate P (powerEstimate ci) s.level ∧
    (beforeScope P ci s).corr = corrUpdate P s.derived (discFreq P s ci) s.corr ∧
    (beforeScope P ci s).scope = s.scope ∧ (beforeScope P ci s).status = s.status ∧
    (beforeScope P ci s).commands = s.commands ∧ (beforeScope P ci s).scopeOut = s.scopeOut := by
  simp only [beforeScope, onUpdate]
  split <;> simp

/-- What `process` leaves alone (R104, R179, R200). -/
@[simp] theorem process_fields (P : Params) (ci : CVal) (s : State) :
    (process P ci s).stg = s.stg ∧ (process P ci s).cfg = s.cfg ∧
    (process P ci s).configured = s.configured ∧ (process P ci s).derived = s.derived ∧
    (process P ci s).ncoAcc = s.ncoAcc ∧ (process P ci s).rc = s.rc ∧
    (process P ci s).discPrev = ci ∧
    (process P ci s).level = levelUpdate P (powerEstimate ci) s.level ∧
    (process P ci s).corr = corrUpdate P s.derived (discFreq P s ci) s.corr ∧
    (process P ci s).status = s.status ∧ (process P ci s).commands = s.commands := by
  simp [process_eq]

/-- What the analyzer does during `process` (R104, R189). -/
theorem process_ana (P : Params) (ci : CVal) (s : State) :
    (process P ci s).ana = (analyzerStage P (discFreq P s ci) s).ana ∧
      (process P ci s).analyzerOut = (analyzerStage P (discFreq P s ci) s).analyzerOut := by
  have h : ∀ t : State, t.ana = s.ana → t.analyzerOut = s.analyzerOut →
      (analyzerStage P (discFreq P s ci) t).ana = (analyzerStage P (discFreq P s ci) s).ana ∧
      (analyzerStage P (discFreq P s ci) t).analyzerOut =
        (analyzerStage P (discFreq P s ci) s).analyzerOut := by
    intro t h1 h2
    unfold analyzerStage
    rw [h1]
    dsimp only
    split <;> simp [h2]
  obtain ⟨h1, h2⟩ := h (levelStage P (powerEstimate ci) (storePrev ci (clearStrobe s)))
    (by simp) (by simp)
  rw [← h1, ← h2, process_eq]
  simp only [beforeScope, onUpdate]
  split <;> simp

/-- SCOPE changes none of the fields its record holds, so the record is that of the finished sample
(R186). -/
theorem process_scope (P : Params) (ci : CVal) (s : State) :
    scopeRecord ci (powerEstimate ci) (discFreq P s ci) (beforeScope P ci s) =
      scopeRecord ci (powerEstimate ci) (discFreq P s ci) (process P ci s) := by
  rw [process_eq]
  simp [scopeRecord]

/-- The decision stages during `process`: on an update LPF and BITSYNC on a state with the new
correlator, else only the strobe cleared (R104, R124). -/
theorem process_decision (P : Params) (ci : CVal) (s : State) :
    let u : State := { s with
      sync := { s.sync with bitStrobe := false }
      corr := corrUpdate P s.derived (discFreq P s ci) s.corr }
    (isUpdate P (discFreq P s ci) s.corr = true ∧
      (process P ci s).lpf = (onUpdate P u).lpf ∧ (process P ci s).sync = (onUpdate P u).sync ∧
      (process P ci s).frame = (onUpdate P u).frame ∧
      (process P ci s).tsDraws = (onUpdate P u).tsDraws ∧
      (process P ci s).packetOut = (onUpdate P u).packetOut) ∨
    (isUpdate P (discFreq P s ci) s.corr = false ∧
      (process P ci s).lpf = s.lpf ∧ (process P ci s).sync = u.sync ∧
      (process P ci s).frame = s.frame ∧ (process P ci s).tsDraws = s.tsDraws ∧
      (process P ci s).packetOut = s.packetOut) := by
  intro u
  have key : ∀ t : State, t.corr = u.corr → t.lpf = u.lpf → t.sync = u.sync → t.frame = u.frame →
      t.tsDraws = u.tsDraws → t.packetOut = u.packetOut →
      (onUpdate P t).lpf = (onUpdate P u).lpf ∧ (onUpdate P t).sync = (onUpdate P u).sync ∧
      (onUpdate P t).frame = (onUpdate P u).frame ∧
      (onUpdate P t).tsDraws = (onUpdate P u).tsDraws ∧
      (onUpdate P t).packetOut = (onUpdate P u).packetOut := by
    intro t h1 h2 h3 h4 h5 h6
    unfold onUpdate bitSyncStage frameStage
    simp only [lpfStage_fields, h1, h2, h3, h4]
    split
    · split <;> simp [emitStage_eq, h5, h6]
    · simp [h5, h6]
  rw [process_eq]
  simp only [beforeScope]
  cases hu : isUpdate P (discFreq P s ci) s.corr
  · refine .inr ⟨rfl, ?_⟩
    simp [u]
  · refine .inl ⟨rfl, ?_⟩
    simp only [if_true, scopeStage_fields]
    exact key _ (by simp [u]) (by simp [u]) (by simp [u]) (by simp [u]) (by simp [u]) (by simp [u])

/-! ### The rate converter -/

/-- One output of the rate converter leaves alone what `process` leaves alone, and moves `rcAcc` by
`Fi` (R100). -/
@[simp] theorem resampleOne_fields (P : Params) (s : State) :
    (resampleOne P s).stg = s.stg ∧ (resampleOne P s).cfg = s.cfg ∧
    (resampleOne P s).configured = s.configured ∧ (resampleOne P s).derived = s.derived ∧
    (resampleOne P s).ncoAcc = s.ncoAcc ∧ (resampleOne P s).rc.hist = s.rc.hist ∧
    (resampleOne P s).rc.acc = s.rc.acc + unsignedHz s.cfg.inputRate ∧
    (resampleOne P s).status = s.status ∧ (resampleOne P s).commands = s.commands := by
  simp [resampleOne]

/-- The state of the rate converter after any number of outputs (R100). -/
theorem resampleOne_iterate (P : Params) (s : State) (k : Nat) :
    ((resampleOne P)^[k] s).cfg = s.cfg ∧
      ((resampleOne P)^[k] s).rc.acc = s.rc.acc + k * unsignedHz s.cfg.inputRate := by
  induction k with
  | zero => simp
  | succ k ih =>
    rw [Function.iterate_succ_apply', (resampleOne_fields P _).2.1]
    refine ⟨ih.1, ?_⟩
    rw [(resampleOne_fields P _).2.2.2.2.2.2.1, ih.1, ih.2]
    push_cast
    ring

/-- The loop of R100 with `n` rounds allowed goes round some `k` times, each time from `rcAcc <= 0`,
and ends with `rcAcc > 0` or with its rounds used up. -/
theorem resampleLoop_eq_iterate (P : Params) (n : Nat) (s : State) :
    ∃ k ≤ n, resampleLoop P n s = (resampleOne P)^[k] s ∧
      (∀ j < k, s.rc.acc + j * unsignedHz s.cfg.inputRate ≤ 0) ∧
      (k = n ∨ 0 < s.rc.acc + k * unsignedHz s.cfg.inputRate) := by
  induction n generalizing s with
  | zero => exact ⟨0, le_refl _, rfl, by simp, .inl rfl⟩
  | succ n ih =>
    unfold resampleLoop
    split
    · rename_i h
      obtain ⟨k, hk, he, hj, hend⟩ := ih (resampleOne P s)
      have hc := (resampleOne_fields P s).2.1
      have ha := (resampleOne_fields P s).2.2.2.2.2.2.1
      rw [hc, ha] at hj hend
      refine ⟨k + 1, by omega, by rw [he, Function.iterate_succ_apply], ?_, ?_⟩
      · intro j hjk
        cases j with
        | zero => simpa using h
        | succ j =>
          have := hj j (by omega)
          push_cast
          linarith
      · rcases hend with h' | h'
        · exact .inl (by omega)
        · right
          push_cast
          linarith
    · rename_i h
      exact ⟨0, by omega, rfl, by simp, .inr (by simpa using h)⟩

/-- With the computed bound the loop of R100 runs to its end (log 12): some least number `k` of
outputs takes `rcAcc` above 0. -/
theorem resampleLoop_complete (P : Params) (s : State) (hf : 0 < unsignedHz s.cfg.inputRate) :
    ∃ k : Nat, resampleLoop P (loopBound s.rc.acc (unsignedHz s.cfg.inputRate)) s =
        (resampleOne P)^[k] s ∧
      (∀ j < k, s.rc.acc + j * unsignedHz s.cfg.inputRate ≤ 0) ∧
      0 < s.rc.acc + k * unsignedHz s.cfg.inputRate := by
  obtain ⟨k, hk, he, hj, hend⟩ :=
    resampleLoop_eq_iterate P (loopBound s.rc.acc (unsignedHz s.cfg.inputRate)) s
  refine ⟨k, he, hj, ?_⟩
  rcases hend with h | h
  · subst h
    unfold loopBound
    split
    · rename_i h0
      have h1 := Nat.lt_div_mul_add hf (a := (-s.rc.acc).toNat)
      push_cast
      have h2 : ((-s.rc.acc).toNat : Int) = -s.rc.acc := Int.toNat_of_nonneg (by omega)
      have h3 : ((-s.rc.acc).toNat : Int) <
          ((-s.rc.acc).toNat / unsignedHz s.cfg.inputRate : ℕ) * unsignedHz s.cfg.inputRate +
            unsignedHz s.cfg.inputRate := by exact_mod_cast h1
      push_cast at h3
      linarith
    · simp; omega
  · exact h

end Sys2Proof.Machine
end

