-- ==== Sys2Proof/Laws/Commands.lean ====
section
/-!
SUPPORT. What each command can answer, said once over any instance: the cases of its meaning, and
what it leaves alone in each. Later proofs cite these and do not unfold a meaning.
-/

namespace Sys2Proof.Machine

/-- RESET (R220). -/
theorem resetOn_eq (P : Params) (s : State) :
    resetOn P s = .next
      { State.powerOn P with
        commands := s.commands, tsDraws := s.tsDraws, packetOut := s.packetOut,
        scopeOut := s.scopeOut, analyzerOut := s.analyzerOut } := rfl

/-- The two cases of SET (R170, R206). -/
theorem setOn_cases (k : Key) (v : BitVec 32) (s : State) :
    (s.status.fault = true ∧ setOn k v s = .next s) ∨
    (s.status.fault = false ∧ setOn k v s = .next (stageKey k v s)) := by
  cases h : s.status.fault
  · exact .inr ⟨rfl, by simp [setOn, h]⟩
  · exact .inl ⟨rfl, by simp [setOn, h]⟩

/-- A non-forced APPLY's effects on the changed keys, as one state (R176). -/
theorem keyEffects_eq (P : Params) (ch : Key → Bool) (s : State) :
    keyEffects P ch s =
      { s with
        derived :=
          { s.derived with
            ncoStep := if ch .offset || ch .inputRate then ncoStepOf s.cfg else s.derived.ncoStep
            rcKernelCfg :=
              if ch .inputRate || ch .rfBandwidth then rcKernelOf s.cfg else s.derived.rcKernelCfg
            discScale := if ch .fmDeviation then discScaleOf P s.cfg else s.derived.discScale }
        ncoAcc := if ch .inputRate then 0 else s.ncoAcc
        rc := { s.rc with acc := if ch .inputRate then (P.internalRate : Int) else s.rc.acc } } := by
  simp only [keyEffects, List.foldl, keyEffect]
  generalize ch .offset = a
  generalize ch .inputRate = b
  generalize ch .rfBandwidth = c
  generalize ch .fmDeviation = d
  cases a <;> cases b <;> cases c <;> cases d <;>
    simp [offsetEffect, rateEffect, bandwidthEffect, deviationEffect, rebuildStep, rebuildKernel,
      rebuildScale, restartTiming]

/-- FORCE_REBUILD (R175), as one state. -/
theorem forceRebuild_eq (P : Params) (s : State) :
    forceRebuild P s =
      { State.powerOn P with
        stg := s.stg, cfg := s.cfg, configured := s.configured
        derived :=
          { ncoStep := ncoStepOf s.cfg, discScale := discScaleOf P s.cfg
            rcKernelCfg := rcKernelOf s.cfg
            toneRef0 := toneTable P P.tone0, toneRef1 := toneTable P P.tone1 }
        scope := { s.scope with cnt := 0 }, ana := { s.ana with cnt := 0 }
        status := s.status, commands := s.commands, tsDraws := s.tsDraws
        packetOut := s.packetOut, scopeOut := s.scopeOut, analyzerOut := s.analyzerOut } := rfl

/-- The cases of APPLY (R171 to R174, R202, R204, R206, R207). -/
theorem applyOn_cases (P : Params) (force : Bool) (mask : BitVec 4) (s : State) :
    (s.status.fault = true ∧ applyOn P force mask s = .next s) ∨
    (s.status.fault = false ∧ (if force then allStaged s.stg.valid else s.configured) = false ∧
      applyOn P force mask s = .next (raiseFault .notConfigured s)) ∨
    (s.status.fault = false ∧ (if force then allStaged s.stg.valid else s.configured) = true ∧
      configUnusable (if force then s.stg.value else selectConfig mask s.stg.value s.cfg) = true ∧
      applyOn P force mask s = .next (raiseFault .configInvalid s)) ∨
    (s.status.fault = false ∧ force = true ∧ allStaged s.stg.valid = true ∧
      configUnusable s.stg.value = false ∧
      applyOn P force mask s =
        .next (forceRebuild P { s with cfg := s.stg.value, configured := true })) ∨
    (s.status.fault = false ∧ force = false ∧ s.configured = true ∧
      configUnusable (selectConfig mask s.stg.value s.cfg) = false ∧
      applyOn P force mask s =
        .next (keyEffects P (isChanged mask (selectConfig mask s.stg.value s.cfg) s.cfg)
          { s with cfg := selectConfig mask s.stg.value s.cfg })) := by
  cases h : s.status.fault with
  | true => exact .inl ⟨rfl, by simp [applyOn, h]⟩
  | false =>
    right
    cases force with
    | true =>
      cases hv : allStaged s.stg.valid
      · exact .inl ⟨rfl, by simp, by simp [applyOn, applyForced, h, hv]⟩
      · cases hu : configUnusable s.stg.value
        · exact .inr (.inr (.inl ⟨rfl, rfl, rfl, rfl, by simp [applyOn, applyForced, h, hv, hu]⟩))
        · exact .inr (.inl ⟨rfl, by simp, by simpa using hu,
            by simp [applyOn, applyForced, h, hv, hu]⟩)
    | false =>
      cases hc : s.configured with
      | false => exact .inl ⟨rfl, by simp, by simp [applyOn, applySelected, h, hc]⟩
      | true =>
        cases hu : configUnusable (selectConfig mask s.stg.value s.cfg) with
        | false =>
          refine .inr (.inr (.inr ⟨rfl, rfl, rfl, rfl, ?_⟩))
          simp only [applyOn, applySelected, unlessFaulted_of_not h, hc, hu, if_true,
            Bool.false_eq_true, if_false]
        | true =>
          refine .inr (.inl ⟨rfl, by simp, by simpa using hu, ?_⟩)
          simp only [applyOn, applySelected, unlessFaulted_of_not h, hc, hu, if_true,
            Bool.false_eq_true, if_false]

/-- What SAMPLE does on a configured block (R95, R99, R100): the loop's number of rounds, and the
state. -/
theorem feed_eq (P : Params) (x : CVal) (s : State) (hf : s.cfg.inputRate ≠ 0) :
    let ready := consumeInput P (pushMixed (mixed P x s) (advancePhase s))
    ∃ k : Nat, feed P x s = (resampleOne P)^[k] ready ∧
      (∀ j < k, ready.rc.acc + j * unsignedHz s.cfg.inputRate ≤ 0) ∧
      0 < ready.rc.acc + k * unsignedHz s.cfg.inputRate := by
  have h0 : 0 < unsignedHz s.cfg.inputRate := by
    rcases Nat.eq_zero_or_pos (unsignedHz s.cfg.inputRate) with h | h
    · exact absurd (BitVec.eq_of_toNat_eq (by simpa [unsignedHz] using h)) hf
    · exact h
  exact resampleLoop_complete P (consumeInput P (pushMixed (mixed P x s) (advancePhase s))) h0

/-- The cases of SAMPLE (R95, R202, R206; log 11). -/
theorem sampleOn_cases (P : Params) (i q : BitVec 24) (s : State) :
    (s.status.fault = true ∧ sampleOn P i q s = .next s) ∨
    (s.status.fault = false ∧ s.configured = false ∧
      sampleOn P i q s = .next (raiseFault .notConfigured s)) ∨
    (s.status.fault = false ∧ s.configured = true ∧ s.cfg.inputRate = 0 ∧
      sampleOn P i q s = .fault .inputRateZero) ∨
    (s.status.fault = false ∧ s.configured = true ∧ s.cfg.inputRate ≠ 0 ∧
      sampleOn P i q s = .next (feed P (inputSample i q) s)) := by
  cases h : s.status.fault with
  | true => exact .inl ⟨rfl, by simp [sampleOn, h]⟩
  | false =>
    right
    cases hc : s.configured with
    | false => exact .inl ⟨rfl, rfl, by simp [sampleOn, h, hc]⟩
    | true =>
      right
      by_cases hr : s.cfg.inputRate = 0
      · refine .inl ⟨rfl, rfl, hr, ?_⟩
        simp only [sampleOn, unlessFaulted_of_not h, hc, if_true, if_pos hr]
      · refine .inr ⟨rfl, rfl, hr, ?_⟩
        simp only [sampleOn, unlessFaulted_of_not h, hc, if_true, if_neg hr]

/-- An instance's commands are those of the machine of the fixed names, for its instance. -/
theorem exec_eq_execOn (i : Instr) (s : State) : exec i s = execOn Config.params i s := by
  cases i <;> rfl

/-- The step of the fixed names is the step of its instance. -/
theorem step_eq_stepOn (s : State) : step s = stepOn Config.params s := by
  cases hc : s.commands with
  | nil => simp only [step, stepOn, hc]
  | cons w rest => cases hd : decode w <;> simp only [step, stepOn, hc, hd, exec_eq_execOn]

/-- The cases of a step (R5, R203, R216). -/
theorem step_cases (s : State) :
    (s.commands = [] ∧ step s = .next s) ∨
    (∃ w rest i, s.commands = w :: rest ∧ decode w = .ok i ∧
      step s = exec i { s with commands := rest }) ∨
    (∃ w rest e, s.commands = w :: rest ∧ decode w = .error e ∧
      step s = illegalWord { s with commands := rest }) := by
  cases hc : s.commands with
  | nil => exact .inl ⟨rfl, by simp [step, hc]⟩
  | cons w rest =>
    right
    cases hd : decode w with
    | ok i => exact .inl ⟨w, rest, i, rfl, hd, by simp [step, hc, hd]⟩
    | error e => exact .inr ⟨w, rest, e, rfl, hd, by simp [step, hc, hd]⟩

end Sys2Proof.Machine
end

