-- ==== Sys2Proof/Laws/Decode.lean ====
section
/-!
SUPPORT. The fields of a command word as arithmetic on the word's number, and the cases of the
decoder. Later proofs cite these and do not unfold `decode`.
-/

namespace Sys2Proof

@[simp] theorem opField_toNat (w : Word) : (opField w).toNat = w.toNat / 2 ^ 56 := by
  have := w.isLt
  simp only [opField, BitVec.extractLsb'_toNat, Nat.shiftRight_eq_div_pow]
  omega

@[simp] theorem reservedN_toNat (w : Word) : (reservedN w).toNat = w.toNat % 2 ^ 56 := by
  simp [reservedN, BitVec.extractLsb'_toNat]

@[simp] theorem reservedV_toNat (w : Word) : (reservedV w).toNat = w.toNat / 2 ^ 32 % 2 ^ 24 := by
  simp [reservedV, BitVec.extractLsb'_toNat, Nat.shiftRight_eq_div_pow]

@[simp] theorem valueField_toNat (w : Word) : (valueField w).toNat = w.toNat % 2 ^ 32 := by
  simp [valueField, BitVec.extractLsb'_toNat]

@[simp] theorem reservedAHigh_toNat (w : Word) :
    (reservedAHigh w).toNat = w.toNat / 2 ^ 9 % 2 ^ 47 := by
  simp [reservedAHigh, BitVec.extractLsb'_toNat, Nat.shiftRight_eq_div_pow]

@[simp] theorem reservedALow_toNat (w : Word) : (reservedALow w).toNat = w.toNat / 2 ^ 4 % 2 ^ 4 := by
  simp [reservedALow, BitVec.extractLsb'_toNat, Nat.shiftRight_eq_div_pow]

@[simp] theorem maskField_toNat (w : Word) : (maskField w).toNat = w.toNat % 2 ^ 4 := by
  simp [maskField, BitVec.extractLsb'_toNat]

@[simp] theorem reservedS_toNat (w : Word) : (reservedS w).toNat = w.toNat / 2 ^ 48 % 2 ^ 8 := by
  simp [reservedS, BitVec.extractLsb'_toNat, Nat.shiftRight_eq_div_pow]

@[simp] theorem iField_toNat (w : Word) : (iField w).toNat = w.toNat / 2 ^ 24 % 2 ^ 24 := by
  simp [iField, BitVec.extractLsb'_toNat, Nat.shiftRight_eq_div_pow]

@[simp] theorem qField_toNat (w : Word) : (qField w).toNat = w.toNat % 2 ^ 24 := by
  simp [qField, BitVec.extractLsb'_toNat]

/-- `force` is bit 8 (R72). -/
theorem forceField_iff (w : Word) : forceField w = true ↔ w.toNat / 2 ^ 8 % 2 = 1 := by
  simp [forceField, BitVec.getLsbD, Nat.testBit_eq_decide_div_mod_eq]

/-- A field is zero exactly when its number is. -/
theorem field_eq_zero_iff {n : Nat} (v : BitVec n) : v = 0 ↔ v.toNat = 0 := by
  rw [← BitVec.toNat_inj]
  simp

/-- Two fields side by side, as a number. -/
theorem toNat_append_eq {n m : Nat} (a : BitVec n) (b : BitVec m) :
    (a ++ b).toNat = a.toNat * 2 ^ m + b.toNat := by
  rw [BitVec.toNat_append, ← Nat.shiftLeft_add_eq_or_of_lt b.isLt, Nat.shiftLeft_eq]

/-- A command's word as a number, field by field (R72, R76). -/
theorem encode_toNat (i : Instr) :
    (encode i).toNat =
      match i with
      | .reset => 1 * 2 ^ 56
      | .setOffset v => 2 * 2 ^ 56 + v.toNat
      | .setInputRate v => 3 * 2 ^ 56 + v.toNat
      | .setRfBw v => 4 * 2 ^ 56 + v.toNat
      | .setFmDev v => 5 * 2 ^ 56 + v.toNat
      | .apply force mask => 6 * 2 ^ 56 + force.toNat * 2 ^ 8 + mask.toNat
      | .sample i q => 7 * 2 ^ 56 + i.toNat * 2 ^ 24 + q.toNat := by
  cases i with
  | reset => rfl
  | apply force mask =>
    refine (toNat_append_eq (0x06#8 ++ 0#47 ++ BitVec.ofBool force ++ 0#4) mask).trans ?_
    cases force <;> simp
  | sample i q =>
    refine (toNat_append_eq (0x07#8 ++ 0#8 ++ i) q).trans ?_
    rw [toNat_append_eq]
    simp
    omega
  | setOffset v => exact (toNat_append_eq (0x02#8 ++ 0#24) v).trans (by simp)
  | setInputRate v => exact (toNat_append_eq (0x03#8 ++ 0#24) v).trans (by simp)
  | setRfBw v => exact (toNat_append_eq (0x04#8 ++ 0#24) v).trans (by simp)
  | setFmDev v => exact (toNat_append_eq (0x05#8 ++ 0#24) v).trans (by simp)

/-- A command's opcode (R76). -/
theorem opField_encode (i : Instr) :
    opField (encode i) =
      match i with
      | .reset => 1 | .setOffset _ => 2 | .setInputRate _ => 3 | .setRfBw _ => 4
      | .setFmDev _ => 5 | .apply _ _ => 6 | .sample _ _ => 7 := by
  apply BitVec.eq_of_toNat_eq
  rw [opField_toNat, encode_toNat]
  cases i with
  | reset => rfl
  | setOffset v => have := v.isLt; simp; omega
  | setInputRate v => have := v.isLt; simp; omega
  | setRfBw v => have := v.isLt; simp; omega
  | setFmDev v => have := v.isLt; simp; omega
  | apply force mask => have := mask.isLt; cases force <;> simp <;> omega
  | sample i q => have := i.isLt; have := q.isLt; simp; omega

/-- The cases of the decoder (R78): what each legal word is, and that nothing else is legal. -/
theorem decode_eq_ok_iff (w : Word) (i : Instr) :
    decode w = .ok i ↔
      (opField w = 0x01#8 ∧ reservedN w = 0 ∧ i = .reset) ∨
      (opField w = 0x02#8 ∧ reservedV w = 0 ∧ i = .setOffset (valueField w)) ∨
      (opField w = 0x03#8 ∧ reservedV w = 0 ∧ i = .setInputRate (valueField w)) ∨
      (opField w = 0x04#8 ∧ reservedV w = 0 ∧ i = .setRfBw (valueField w)) ∨
      (opField w = 0x05#8 ∧ reservedV w = 0 ∧ i = .setFmDev (valueField w)) ∨
      (opField w = 0x06#8 ∧ (reservedAHigh w = 0 ∧ reservedALow w = 0) ∧
        i = .apply (forceField w) (maskField w)) ∨
      (opField w = 0x07#8 ∧ reservedS w = 0 ∧ i = .sample (iField w) (qField w)) := by
  unfold decode decodeV
  generalize opField w = op
  split
  · subst op
    split <;> rename_i h <;> simp only [BitVec.ofNat_eq_ofNat] at h <;> simp [h, eq_comm (b := i)]
  split
  · subst op
    split <;> rename_i h <;> simp only [BitVec.ofNat_eq_ofNat] at h <;> simp [h, eq_comm (b := i)]
  split
  · subst op
    split <;> rename_i h <;> simp only [BitVec.ofNat_eq_ofNat] at h <;> simp [h, eq_comm (b := i)]
  split
  · subst op
    split <;> rename_i h <;> simp only [BitVec.ofNat_eq_ofNat] at h <;> simp [h, eq_comm (b := i)]
  split
  · subst op
    split <;> rename_i h <;> simp only [BitVec.ofNat_eq_ofNat] at h <;> simp [h, eq_comm (b := i)]
  split
  · subst op
    split <;> rename_i h
    · simp [h.1, h.2, eq_comm (b := i)]
    · simp at h
      simpa using fun h1 h2 => absurd h2 (h h1)
  split
  · subst op
    split <;> rename_i h <;> simp only [BitVec.ofNat_eq_ofNat] at h <;> simp [h, eq_comm (b := i)]
  · simp_all

end Sys2Proof
end

