-- ==== Sys2Proof/Laws/Numeric.lean ====
section
/-!
SUPPORT. What number each operation of Machine/Numeric.lean gives: folding a rational result never
changes its value, so `toReal` and `toComplex` turn the datapath's operations into those of ℝ and ℂ
(R13 to R15).
-/

namespace Sys2Proof

open Complex

variable (ρ : Nat → ℝ)

@[simp] theorem Val.toReal_rat (q : ℚ) : (Val.rat q).toReal ρ = (q : ℝ) := rfl

/-- A negative zero is the number 0 (R16). -/
@[simp] theorem Val.toReal_negZero : Val.negZero.toReal ρ = 0 := rfl

@[simp] theorem Val.toReal_const (n : Nat) : (Val.const n).toReal ρ = ρ n := rfl

@[simp] theorem Val.toReal_ofInt (z : Int) : (Val.ofInt z).toReal ρ = (z : ℝ) := by
  simp [Val.ofInt]

@[simp] theorem Val.toReal_plus (a b : Val) : (a.plus b).toReal ρ = a.toReal ρ + b.toReal ρ := by
  cases a <;> cases b <;> simp [Val.plus, Val.toReal]

@[simp] theorem Val.toReal_times (a b : Val) : (a.times b).toReal ρ = a.toReal ρ * b.toReal ρ := by
  cases a <;> cases b <;> simp [Val.times, Val.toReal]

@[simp] theorem Val.toReal_neg (a : Val) : a.neg.toReal ρ = -a.toReal ρ := by simp [Val.neg]

@[simp] theorem Val.toReal_minus (a b : Val) : (a.minus b).toReal ρ = a.toReal ρ - b.toReal ρ := by
  simp [Val.minus, sub_eq_add_neg]

theorem Val.toReal_foldl_plus (l : List Val) (a : Val) :
    (l.foldl Val.plus a).toReal ρ = a.toReal ρ + (l.map (Val.toReal ρ)).sum := by
  induction l generalizing a with
  | nil => simp
  | cons b l ih => simp [ih, add_assoc]

/-- A sum of values is the sum of the real numbers. -/
@[simp] theorem Val.toReal_sum (l : List Val) : (Val.sum l).toReal ρ = (l.map (Val.toReal ρ)).sum := by
  simp [Val.sum, Val.toReal_foldl_plus]

/-- A rational square root is the square root (R13). -/
@[simp] theorem Val.toReal_root (a : Val) : a.root.toReal ρ = Real.sqrt (a.toReal ρ) := by
  cases a <;> simp only [Val.root, Val.toReal]
  rename_i q
  split
  · rename_i h
    set r : ℚ := (isqrt q.num.toNat : ℚ) / (isqrt q.den : ℚ) with hr
    have h0 : (0 : ℚ) ≤ r := by positivity
    have h1 : (q : ℝ) = (r : ℝ) * (r : ℝ) := by rw [← h]; push_cast; ring
    rw [Val.toReal_rat, h1, Real.sqrt_mul_self (by exact_mod_cast h0)]
  · rfl

theorem cos_turn_fract (t : ℚ) :
    Real.cos (2 * Real.pi * (t : ℝ)) = Real.cos (2 * Real.pi * ((Int.fract t : ℚ) : ℝ)) := by
  have h : (t : ℝ) = ((Int.fract t : ℚ) : ℝ) + (⌊t⌋ : ℝ) := by
    have := Int.fract_add_floor t
    exact_mod_cast this.symm
  rw [h, show 2 * Real.pi * (((Int.fract t : ℚ) : ℝ) + (⌊t⌋ : ℝ))
    = 2 * Real.pi * ((Int.fract t : ℚ) : ℝ) + (⌊t⌋ : ℝ) * (2 * Real.pi) by ring,
    Real.cos_add_int_mul_two_pi]

theorem sin_turn_fract (t : ℚ) :
    Real.sin (2 * Real.pi * (t : ℝ)) = Real.sin (2 * Real.pi * ((Int.fract t : ℚ) : ℝ)) := by
  have h : (t : ℝ) = ((Int.fract t : ℚ) : ℝ) + (⌊t⌋ : ℝ) := by
    have := Int.fract_add_floor t
    exact_mod_cast this.symm
  rw [h, show 2 * Real.pi * (((Int.fract t : ℚ) : ℝ) + (⌊t⌋ : ℝ))
    = 2 * Real.pi * ((Int.fract t : ℚ) : ℝ) + (⌊t⌋ : ℝ) * (2 * Real.pi) by ring,
    Real.sin_add_int_mul_two_pi]

theorem three_quarter_turn : 2 * Real.pi * ((3 / 4 : ℚ) : ℝ) = Real.pi / 2 + Real.pi := by
  push_cast; ring

/-- The cosine of a number of turns, folded or not (R13). -/
@[simp] theorem Val.toReal_cosT (t : Val) : t.cosT.toReal ρ = Real.cos (2 * Real.pi * t.toReal ρ) := by
  cases t <;> simp only [Val.cosT, Val.toReal]
  rename_i q
  split_ifs with h0 h1 h2 h3
  · rw [cos_turn_fract, h0]; simp
  · rw [cos_turn_fract, h1]
    rw [show 2 * Real.pi * ((1 / 4 : ℚ) : ℝ) = Real.pi / 2 by push_cast; ring]; simp
  · rw [cos_turn_fract, h2]
    rw [show 2 * Real.pi * ((1 / 2 : ℚ) : ℝ) = Real.pi by push_cast; ring]; simp
  · rw [cos_turn_fract, h3, three_quarter_turn, Real.cos_add_pi]; simp
  · rfl

/-- The sine of a number of turns, folded or not (R13). -/
@[simp] theorem Val.toReal_sinT (t : Val) : t.sinT.toReal ρ = Real.sin (2 * Real.pi * t.toReal ρ) := by
  cases t <;> simp only [Val.sinT, Val.toReal]
  rename_i q
  split_ifs with h0 h1 h2 h3
  · rw [sin_turn_fract, h0]; simp
  · rw [sin_turn_fract, h1]
    rw [show 2 * Real.pi * ((1 / 4 : ℚ) : ℝ) = Real.pi / 2 by push_cast; ring]; simp
  · rw [sin_turn_fract, h2]
    rw [show 2 * Real.pi * ((1 / 2 : ℚ) : ℝ) = Real.pi by push_cast; ring]; simp
  · rw [sin_turn_fract, h3, three_quarter_turn, Real.sin_add_pi]; simp
  · rfl

/-- The angle of a positive multiple of a number on the unit circle given by its angle. -/
theorem arg_of_polar {x y r θ : ℝ} (hr : 0 < r) (hx : x = r * Real.cos θ) (hy : y = r * Real.sin θ)
    (hθ : θ ∈ Set.Ioc (-Real.pi) Real.pi) : Complex.arg ⟨x, y⟩ = θ := by
  have h : (⟨x, y⟩ : ℂ) = r * (Complex.cos θ + Complex.sin θ * I) := by
    apply Complex.ext <;> simp [hx, hy, Complex.cos_ofReal_re, Complex.sin_ofReal_re]
  rw [h, Complex.arg_mul_cos_add_sin_mul_I hr hθ]

/-- The angle on a diagonal. -/
theorem arg_diag (a b : ℝ) :
    (b = a → 0 < a → Complex.arg ⟨a, b⟩ = Real.pi / 4) ∧
    (b = a → a < 0 → Complex.arg ⟨a, b⟩ = -(3 * Real.pi / 4)) ∧
    (b = -a → 0 < a → Complex.arg ⟨a, b⟩ = -(Real.pi / 4)) ∧
    (b = -a → a < 0 → Complex.arg ⟨a, b⟩ = 3 * Real.pi / 4) := by
  have hpi := Real.pi_pos
  have hs : (0 : ℝ) < Real.sqrt 2 := by positivity
  have hss : Real.sqrt 2 * Real.sqrt 2 = 2 := Real.mul_self_sqrt (by norm_num)
  have c34 : Real.cos (3 * Real.pi / 4) = -(Real.sqrt 2 / 2) := by
    rw [show 3 * Real.pi / 4 = Real.pi - Real.pi / 4 by ring, Real.cos_pi_sub, Real.cos_pi_div_four]
  have s34 : Real.sin (3 * Real.pi / 4) = Real.sqrt 2 / 2 := by
    rw [show 3 * Real.pi / 4 = Real.pi - Real.pi / 4 by ring, Real.sin_pi_sub, Real.sin_pi_div_four]
  refine ⟨fun h h0 => ?_, fun h h0 => ?_, fun h h0 => ?_, fun h h0 => ?_⟩
  · refine arg_of_polar (r := Real.sqrt 2 * a) (by positivity) ?_ ?_ ⟨by linarith, by linarith⟩
    · rw [Real.cos_pi_div_four]; linear_combination (-a / 2) * hss
    · rw [Real.sin_pi_div_four, h]; linear_combination (-a / 2) * hss
  · refine arg_of_polar (r := Real.sqrt 2 * -a) (mul_pos hs (by linarith)) ?_ ?_
      ⟨by linarith, by linarith⟩
    · rw [Real.cos_neg, c34]; linear_combination (-a / 2) * hss
    · rw [Real.sin_neg, s34, h]; linear_combination (-a / 2) * hss
  · refine arg_of_polar (r := Real.sqrt 2 * a) (by positivity) ?_ ?_ ⟨by linarith, by linarith⟩
    · rw [Real.cos_neg, Real.cos_pi_div_four]; linear_combination (-a / 2) * hss
    · rw [Real.sin_neg, Real.sin_pi_div_four, h]; linear_combination (a / 2) * hss
  · refine arg_of_polar (r := Real.sqrt 2 * -a) (mul_pos hs (by linarith)) ?_ ?_
      ⟨by linarith, by linarith⟩
    · rw [c34]; linear_combination (-a / 2) * hss
    · rw [s34, h]; linear_combination (a / 2) * hss

/-- The angle in half turns, folded or not: the four-quadrant angle of R14 over π. -/
@[simp] theorem Val.toReal_argHalfTurns (a b : Val) :
    (Val.argHalfTurns a b).toReal ρ = Complex.arg ⟨a.toReal ρ, b.toReal ρ⟩ / Real.pi := by
  have hpi := Real.pi_pos
  have hne : Real.pi ≠ 0 := ne_of_gt hpi
  cases a <;> cases b <;> simp only [Val.argHalfTurns, Val.toReal]
  rename_i p q
  split_ifs with h1 h2 h3 h4 h5 h6 h7 h8
  · subst h1
    have : (⟨(p : ℝ), ((0 : ℚ) : ℝ)⟩ : ℂ) = ((p : ℝ) : ℂ) := by apply Complex.ext <;> simp
    rw [this, Complex.arg_ofReal_of_nonneg (by exact_mod_cast h2)]; simp
  · subst h1
    have : (⟨(p : ℝ), ((0 : ℚ) : ℝ)⟩ : ℂ) = ((p : ℝ) : ℂ) := by apply Complex.ext <;> simp
    rw [this, Complex.arg_ofReal_of_neg (by exact_mod_cast not_le.mp h2)]; simp [hne]
  · subst h3
    have h : (0 : ℝ) < (q : ℝ) := by exact_mod_cast h4
    rw [arg_of_polar (r := q) (θ := Real.pi / 2) h (by simp) (by simp) ⟨by linarith, by linarith⟩]
    rw [Val.toReal_rat]; push_cast; field_simp
  · subst h3
    have h : (q : ℝ) < 0 := by
      exact_mod_cast lt_of_le_of_ne (not_lt.mp h4) h1
    rw [arg_of_polar (r := -q) (θ := -(Real.pi / 2)) (by linarith) (by simp) (by simp)
      ⟨by linarith, by linarith⟩]
    rw [Val.toReal_rat]; push_cast; field_simp
  · have h0 : (p : ℝ) ≠ 0 := by exact_mod_cast h3
    rw [(arg_diag _ _).1 (by rw [h5]) (by exact_mod_cast h6), Val.toReal_rat]; push_cast; field_simp
  · have h0 : (p : ℝ) ≠ 0 := by exact_mod_cast h3
    have hp : (p : ℝ) < 0 := by exact_mod_cast lt_of_le_of_ne (not_lt.mp h6) h3
    rw [(arg_diag _ _).2.1 (by rw [h5]) hp, Val.toReal_rat]; push_cast; field_simp
  · have h0 : (p : ℝ) ≠ 0 := by exact_mod_cast h3
    have hq : (q : ℝ) = -(p : ℝ) := by exact_mod_cast (by rw [h7]; ring : q = -p)
    rw [(arg_diag _ _).2.2.1 hq (by exact_mod_cast h8), Val.toReal_rat]; push_cast; field_simp
  · have h0 : (p : ℝ) ≠ 0 := by exact_mod_cast h3
    have hq : (q : ℝ) = -(p : ℝ) := by exact_mod_cast (by rw [h7]; ring : q = -p)
    have hp : (p : ℝ) < 0 := by exact_mod_cast lt_of_le_of_ne (not_lt.mp h8) h3
    rw [(arg_diag _ _).2.2.2 hq hp, Val.toReal_rat]; push_cast; field_simp
  · rfl

@[simp] theorem CVal.toComplex_re (z : CVal) : (z.toComplex ρ).re = z.re.toReal ρ := rfl

@[simp] theorem CVal.toComplex_im (z : CVal) : (z.toComplex ρ).im = z.im.toReal ρ := rfl

@[simp] theorem CVal.toComplex_ofInts (i q : Int) :
    (CVal.ofInts i q).toComplex ρ = (i : ℂ) + (q : ℂ) * I := by
  apply Complex.ext <;> simp [CVal.ofInts]

@[simp] theorem CVal.toComplex_plus (z w : CVal) :
    (z.plus w).toComplex ρ = z.toComplex ρ + w.toComplex ρ := by
  apply Complex.ext <;> simp [CVal.plus]

@[simp] theorem CVal.toComplex_times (z w : CVal) :
    (z.times w).toComplex ρ = z.toComplex ρ * w.toComplex ρ := by
  apply Complex.ext <;> simp [CVal.times]

@[simp] theorem CVal.toComplex_conj (z : CVal) :
    z.conj.toComplex ρ = (starRingEnd ℂ) (z.toComplex ρ) := by
  apply Complex.ext <;> simp [CVal.conj]

@[simp] theorem CVal.toComplex_scale (z : CVal) (a : Val) :
    (z.scale a).toComplex ρ = z.toComplex ρ * (a.toReal ρ : ℂ) := by
  apply Complex.ext <;> simp [CVal.scale]

@[simp] theorem CVal.toReal_normSq (z : CVal) : z.normSq.toReal ρ = Complex.normSq (z.toComplex ρ) := by
  simp [CVal.normSq, Complex.normSq_apply]

/-- The modulus is the Euclidean one (R13, R123). -/
@[simp] theorem CVal.toReal_modulus (z : CVal) : z.modulus.toReal ρ = ‖z.toComplex ρ‖ := by
  rw [CVal.modulus, Val.toReal_root, CVal.toReal_normSq, Complex.norm_def]

/-- `exp (j·2π·t)` (R13). -/
@[simp] theorem CVal.toComplex_expTurn (t : Val) :
    (CVal.expTurn t).toComplex ρ = Complex.exp (2 * Real.pi * t.toReal ρ * I) := by
  have h : (2 * Real.pi * t.toReal ρ * I : ℂ) = ((2 * Real.pi * t.toReal ρ : ℝ) : ℂ) * I := by push_cast; ring
  rw [h]
  apply Complex.ext
  · rw [Complex.exp_ofReal_mul_I_re]; simp [CVal.expTurn]
  · rw [Complex.exp_ofReal_mul_I_im]; simp [CVal.expTurn]

theorem CVal.toComplex_foldl_plus (l : List CVal) (a : CVal) :
    (l.foldl CVal.plus a).toComplex ρ = a.toComplex ρ + (l.map (CVal.toComplex ρ)).sum := by
  induction l generalizing a with
  | nil => simp
  | cons b l ih => simp [ih, add_assoc]

/-- A sum of complex values is the sum of the complex numbers. -/
@[simp] theorem CVal.toComplex_sum (l : List CVal) :
    (CVal.sum l).toComplex ρ = (l.map (CVal.toComplex ρ)).sum := by
  have h : (⟨.rat 0, .rat 0⟩ : CVal).toComplex ρ = 0 := by apply Complex.ext <;> simp
  simp [CVal.sum, CVal.toComplex_foldl_plus, h]

end Sys2Proof
end

