-- ==== Sys2Proof/Laws/Exact.lean ====
section
/-!
SUPPORT. Which values are numbers of an instance, and what its comparison and its truncation answer
on them: exact in every instance (R15, R16). Later proofs cite these and do not unfold a comparison.
-/

namespace Sys2Proof

variable {ρ : Nat → ℝ} {num : Num} (C : Comparison ρ num)

theorem Comparison.minus_isNumber {a b : Val} (ha : C.IsNumber a) (hb : C.IsNumber b) :
    C.IsNumber (a.minus b) :=
  C.plus_isNumber _ _ ha (C.times_isNumber _ _ (C.rat_isNumber _) hb)

theorem Comparison.normSq_isNumber {z : CVal} (hr : C.IsNumber z.re) (hi : C.IsNumber z.im) :
    C.IsNumber z.normSq :=
  C.plus_isNumber _ _ (C.times_isNumber _ _ hr hr) (C.times_isNumber _ _ hi hi)

namespace Machine

variable (P : Params)

/-- The decision on a number of the instance (R141). -/
theorem decisionBit_iff {v : Val} (h : P.compare.IsNumber v) :
    decisionBit P v = true ↔ 0 ≤ P.real v := P.compare.geZero_iff v h

/-- A negative zero decides 1, in every instance (R16). -/
theorem decisionBit_negZero : decisionBit P .negZero = true :=
  (decisionBit_iff P P.compare.negZero_isNumber).2 (by simp)

/-- Every discriminator sample is a number of the instance (R110). -/
theorem discFreq_isNumber (s : State) (ci : CVal) : P.compare.IsNumber (discFreq P s ci) :=
  P.compare.discFn_isNumber _ _

/-- Both filter outputs are (R130). -/
theorem lpfUpdate_isNumber (mag0 mag1 : Val) (f : Filters) :
    P.compare.IsNumber (lpfUpdate P mag0 mag1 f).filt0 ∧
      P.compare.IsNumber (lpfUpdate P mag0 mag1 f).filt1 :=
  ⟨P.compare.lpfFn_isNumber _ _, P.compare.lpfFn_isNumber _ _⟩

/-- The power of what the rate converter answers is (R112). -/
theorem powerEstimate_isNumber (cfg : BitVec 32 × BitVec 32) (hist : List CVal) (d : ℚ) :
    P.compare.IsNumber (powerEstimate (P.num.rcFn cfg hist d)) :=
  P.compare.normSq_isNumber (P.compare.rcFn_isNumber cfg hist d).1
    (P.compare.rcFn_isNumber cfg hist d).2

/-- `diff` of two numbers of the instance decides by their difference (R141). -/
theorem decisionBit_diff {f : Filters} (h0 : P.compare.IsNumber f.filt0)
    (h1 : P.compare.IsNumber f.filt1) :
    decisionBit P (decisionDiff f) = true ↔ 0 ≤ P.real f.filt1 - P.real f.filt0 := by
  rw [decisionDiff, decisionBit_iff P (P.compare.minus_isNumber h1 h0)]
  simp

/-- The maximum is one of the two, so a number of the instance if they are (R113). -/
theorem maxVal_isNumber {a b : Val} (ha : P.compare.IsNumber a) (hb : P.compare.IsNumber b) :
    P.compare.IsNumber (maxVal P a b) := by
  unfold maxVal
  split <;> assumption

/-- And it is the maximum of the real numbers, in every instance (R113). -/
theorem real_maxVal {a b : Val} (ha : P.compare.IsNumber a) (hb : P.compare.IsNumber b) :
    P.real (maxVal P a b) = max (P.real a) (P.real b) := by
  have h := P.compare.geZero_iff _ (P.compare.minus_isNumber hb ha)
  rw [Val.toReal_minus] at h
  unfold maxVal
  split
  · exact (max_eq_right (by linarith [h.1 ‹_›])).symm
  · exact (max_eq_left (by
      by_contra hn
      exact ‹¬_› (h.2 (by linarith [not_le.mp hn])))).symm

end Machine
end Sys2Proof
end

