-- ==== Sys2Proof/Laws/Invariant.lean ====
section
/-!
SUPPORT. The invariant of R41 stage by stage: each stage keeps the part of it that is about the
state it writes.
-/

namespace Sys2Proof.Machine

theorem Params.corrLen_pos (P : Params) : 0 < P.corrLen := Nat.succ_pos _

theorem Params.internalRate_pos (P : Params) : 0 < P.internalRate :=
  Nat.mul_pos P.baud.pos (Nat.succ_pos _)

theorem length_pushNewest {α : Type} (a : α) (l : List α) : (pushNewest a l).length = l.length := by
  simp [pushNewest]

/-- The countdown stays between 0 and `L` (R35, R41). -/
theorem nextCount_range (P : Params) (sample : Bool) (b : BitSync)
    (h : 0 ≤ b.syncCount ∧ b.syncCount ≤ P.corrLen) :
    0 ≤ nextCount P sample b ∧ nextCount P sample b ≤ P.corrLen := by
  unfold nextCount
  split
  · omega
  split
  · omega
  · rename_i he hb
    have : ¬ b.syncCount - 1 ≤ 0 := by
      intro hle
      exact hb (by simp [isBoundary, hle]; simpa using he)
    omega

/-- Shifting a bit in keeps the accumulator below `2 ^ bitCount` (R151). -/
theorem shiftIn_held (bit : Bool) (f : Framer) (h : f.bits.toNat < 2 ^ f.bitCount) :
    (shiftIn bit f).bits.toNat < 2 ^ (shiftIn bit f).bitCount := by
  simp only [shiftIn, BitVec.toNat_or]
  apply Nat.or_lt_two_pow
  · exact lt_of_lt_of_le h (Nat.pow_le_pow_right (by decide) (Nat.le_succ _))
  · have hb : ((BitVec.ofBool bit).setWidth 32 <<< f.bitCount).toNat ≤ 2 ^ f.bitCount := by
      simp only [BitVec.toNat_shiftLeft, BitVec.toNat_setWidth, Nat.shiftLeft_eq]
      refine (Nat.mod_le _ _).trans ?_
      cases bit <;> simp
    exact lt_of_le_of_lt hb (Nat.pow_lt_pow_right (by decide) (Nat.lt_succ_self _))

/-- FRAME keeps its ranges (R41, R152 to R157). -/
theorem FrameLegal.frameUpdate {f : Framer} (P : Params) (bit : Bool) (h : FrameLegal f) :
    FrameLegal (frameUpdate P bit f) := by
  have held := shiftIn_held bit f h.held
  have hg : (shiftIn bit f).gotSOP = f.gotSOP := rfl
  have hc : (shiftIn bit f).bitCount = f.bitCount + 1 := rfl
  have hb : (shiftIn bit f).byteCount = f.byteCount := rfl
  rcases frameUpdate_cases P bit f with ⟨h1, h2, h3, e⟩ | ⟨h1, h2, h3, e⟩ | ⟨h1, h2, e⟩ |
      ⟨h1, h2, e⟩ | ⟨h1, h2, h3, e⟩ | ⟨h1, h2, h3, e⟩ <;> rw [e]
  · exact ⟨fun _ => ⟨by simp [completeFrame], rfl⟩, by simp [completeFrame],
      by simp [completeFrame], Nat.zero_le _⟩
  · refine ⟨by simp [storeByte, hg, h1], by simp [storeByte], by simp [storeByte], ?_⟩
    have := h.stored
    simp only [storeByte, hb]
    omega
  · have := h.receiving h1
    exact ⟨by simp [hg, h1], fun _ => by rw [hc]; omega, held, hb ▸ h.stored⟩
  · exact ⟨fun _ => ⟨by rw [hc]; omega, by rw [hb]; exact (h.searching h1).2⟩,
      by simp [hg, h1], held, hb ▸ h.stored⟩
  · exact ⟨by simp, by simp, by simp, Nat.zero_le _⟩
  · have hs := h.searching h1
    have h16 : f.bitCount = 16 := by omega
    refine ⟨fun _ => ⟨by simp [hc, h16], by simpa [hb] using hs.2⟩, by simp [hg, h1], ?_,
      hb ▸ h.stored⟩
    rw [hc, h16] at held
    simp only [hc, h16, BitVec.toNat_ushiftRight, Nat.shiftRight_eq_div_pow]
    omega

/-- FRAME keeps the number of payload slots (R51). -/
theorem frameUpdate_bytes_length (P : Params) (bit : Bool) (f : Framer) :
    (frameUpdate P bit f).bytes.length = f.bytes.length := by
  have hg : (shiftIn bit f).bytes = f.bytes := rfl
  rcases frameUpdate_cases P bit f with ⟨-, -, -, e⟩ | ⟨-, -, -, e⟩ | ⟨-, -, e⟩ | ⟨-, -, e⟩ |
      ⟨-, -, -, e⟩ | ⟨-, -, -, e⟩ <;> rw [e] <;> simp [completeFrame, storeByte, hg]

/-- The decision stages on an update keep what the invariant says of what they write. -/
theorem onUpdate_keeps (P : Params) (s : State) (hf : FrameLegal s.frame)
    (hs : 0 ≤ s.sync.syncCount ∧ s.sync.syncCount ≤ P.corrLen) :
    FrameLegal (onUpdate P s).frame ∧
      (onUpdate P s).frame.bytes.length = s.frame.bytes.length ∧
      (0 ≤ (onUpdate P s).sync.syncCount ∧ (onUpdate P s).sync.syncCount ≤ P.corrLen) ∧
      (onUpdate P s).lpf.hist0.length = s.lpf.hist0.length ∧
      (onUpdate P s).lpf.hist1.length = s.lpf.hist1.length := by
  refine ⟨?_, ?_, ?_, ?_, ?_⟩
  · rcases bitSyncStage_cases P (lpfStage P s) with ⟨-, e⟩ | ⟨-, e⟩ <;> simp only [onUpdate, e]
    · rw [(frameStage_fields P _ _).2.2.2.2.2.2.2.2.2.2.2.2.2.2.2.2.2]
      exact FrameLegal.frameUpdate P _ hf
    · exact hf
  · rcases bitSyncStage_cases P (lpfStage P s) with ⟨-, e⟩ | ⟨-, e⟩ <;> simp only [onUpdate, e]
    · rw [(frameStage_fields P _ _).2.2.2.2.2.2.2.2.2.2.2.2.2.2.2.2.2]
      exact frameUpdate_bytes_length P _ _
    · rfl
  · simp only [onUpdate, bitSyncStage_fields, syncUpdate]
    exact nextCount_range P _ _ hs
  · simp [onUpdate, lpfUpdate, length_pushNewest]
  · simp [onUpdate, lpfUpdate, length_pushNewest]

/-- The parts of the invariant the pipeline writes (R41): everything but the rate converter's
timing, the status and the configuration. -/
structure PipelineLegal (P : Params) (s : State) : Prop where
  arrays : ArraysSized P s
  frame : FrameLegal s.frame
  levelIdx : s.level.idx < P.levelN
  corrIdx : s.corr.idx < P.corrLen
  corrCnt : s.corr.cnt < P.corrLen
  syncCount : 0 ≤ s.sync.syncCount ∧ s.sync.syncCount ≤ P.corrLen
  scopeCnt : s.scope.cnt < P.scopeBatch
  anaCnt : s.ana.cnt < P.analyzerBatch

/-- `process` keeps its part of the invariant (R41, R104). -/
theorem PipelineLegal.process {P : Params} {s : State} (ci : CVal) (h : PipelineLegal P s) :
    PipelineLegal P (process P ci s) := by
  have hd : (Machine.process P ci s).frame = s.frame ∧ (Machine.process P ci s).lpf = s.lpf ∧
        (Machine.process P ci s).sync.syncCount = s.sync.syncCount ∨
      (FrameLegal (Machine.process P ci s).frame ∧
        (Machine.process P ci s).frame.bytes.length = s.frame.bytes.length ∧
        (0 ≤ (Machine.process P ci s).sync.syncCount ∧
          (Machine.process P ci s).sync.syncCount ≤ P.corrLen) ∧
        (Machine.process P ci s).lpf.hist0.length = s.lpf.hist0.length ∧
        (Machine.process P ci s).lpf.hist1.length = s.lpf.hist1.length) := by
    rcases process_decision P ci s with ⟨-, h1, h2, h3, -⟩ | ⟨-, h1, h2, h3, -⟩
    · right
      rw [h1, h2, h3]
      exact onUpdate_keeps P _ h.frame h.syncCount
    · exact .inl ⟨h3, h1, by rw [h2]⟩
  have hfr : FrameLegal (Machine.process P ci s).frame := by
    rcases hd with ⟨e, -⟩ | ⟨e, -⟩
    · rw [e]; exact h.frame
    · exact e
  have ha : (Machine.process P ci s).ana.buf.length = s.ana.buf.length ∧
      (Machine.process P ci s).ana.cnt < P.analyzerBatch := by
    rw [(process_ana P ci s).1]
    have := h.anaCnt
    rcases analyzerStage_cases P (discFreq P s ci) s with ⟨h1, e, -⟩ | ⟨h1, e, -⟩ <;> rw [e] <;>
      exact ⟨by simp, by simp only; omega⟩
  have hsc : (Machine.process P ci s).scope.buf.length = s.scope.buf.length ∧
      (Machine.process P ci s).scope.cnt < P.scopeBatch := by
    rw [process_eq]
    have hb : (beforeScope P ci s).scope = s.scope := by simp
    have := h.scopeCnt
    rcases scopeStage_cases P ci (powerEstimate ci) (discFreq P s ci) (beforeScope P ci s) with
      ⟨h1, e, -⟩ | ⟨h1, e, -⟩ <;> rw [e] <;> rw [hb] at h1 ⊢ <;>
      exact ⟨by simp, by simp only; omega⟩
  have hL := Params.corrLen_pos P
  have hring := corrUpdate_ring P s.derived (discFreq P s ci) s.corr
  have hcnt := corrUpdate_cnt P s.derived (discFreq P s ci) s.corr
  refine ⟨⟨?_, ?_, ?_, ?_, ?_, ?_, ?_, ?_, ?_, ?_⟩, hfr, ?_, ?_, ?_, ?_, hsc.2, ha.2⟩
  · simpa using h.arrays.rcHist
  · simpa [levelUpdate] using h.arrays.levelHist
  · simp [hring.1, h.arrays.ring]
  · rcases hd with ⟨-, e, -⟩ | ⟨-, -, -, e, -⟩ <;> rw [e] <;> exact h.arrays.lpfHist0
  · rcases hd with ⟨-, e, -⟩ | ⟨-, -, -, -, e⟩ <;> rw [e] <;> exact h.arrays.lpfHist1
  · rcases hd with ⟨e, -⟩ | ⟨-, e, -⟩ <;> rw [e] <;> exact h.arrays.bytes
  · exact hsc.1.trans h.arrays.scopeBuf
  · exact ha.1.trans h.arrays.anaBuf
  · simpa using h.arrays.toneRef0
  · simpa using h.arrays.toneRef1
  · simpa [levelUpdate] using Nat.mod_lt _ P.levelN.pos
  · simpa [hring.2] using Nat.mod_lt _ hL
  · simp only [process_fields, hcnt]
    omega
  · rcases hd with ⟨-, -, e⟩ | ⟨-, -, e, -⟩
    · rw [e]; exact h.syncCount
    · exact e

/-- The timing accumulator after SAMPLE (R41, R100): above 0, and never above what it was or `Fi`. -/
theorem feed_acc (P : Params) (x : CVal) (s : State) (hf : s.cfg.inputRate ≠ 0) :
    0 < (feed P x s).rc.acc ∧
      (feed P x s).rc.acc ≤ max (s.rc.acc - P.internalRate) (unsignedHz s.cfg.inputRate) := by
  obtain ⟨k, he, hj, hk⟩ := feed_eq P x s hf
  have hi := resampleOne_iterate P (consumeInput P (pushMixed (mixed P x s) (advancePhase s))) k
  rw [he, hi.2]
  refine ⟨hk, ?_⟩
  cases k with
  | zero => simp
  | succ k =>
    have := hj k (Nat.lt_succ_self k)
    simp only [consumeInput_fields, pushMixed_fields, advancePhase_fields] at this ⊢
    push_cast
    apply le_max_of_le_right
    linarith

/-- SAMPLE keeps the pipeline's part of the invariant. -/
theorem PipelineLegal.feed {P : Params} {s : State} (x : CVal) (hf : s.cfg.inputRate ≠ 0)
    (h : PipelineLegal P s) : PipelineLegal P (feed P x s) := by
  obtain ⟨k, he, -, -⟩ := feed_eq P x s hf
  rw [he]
  have hready : PipelineLegal P (consumeInput P (pushMixed (mixed P x s) (advancePhase s))) :=
    ⟨⟨by simpa [length_pushNewest] using h.arrays.rcHist, h.arrays.levelHist, h.arrays.ring,
      h.arrays.lpfHist0, h.arrays.lpfHist1, h.arrays.bytes, h.arrays.scopeBuf, h.arrays.anaBuf,
      h.arrays.toneRef0, h.arrays.toneRef1⟩, h.frame, h.levelIdx, h.corrIdx, h.corrCnt,
      h.syncCount, h.scopeCnt, h.anaCnt⟩
  clear he
  induction k with
  | zero => exact hready
  | succ k ih =>
    rw [Function.iterate_succ_apply']
    have hp := ih.process (P.num.rcFn
      ((resampleOne P)^[k] (consumeInput P (pushMixed (mixed P x s) (advancePhase s)))).derived.rcKernelCfg
      ((resampleOne P)^[k] (consumeInput P (pushMixed (mixed P x s) (advancePhase s)))).rc.hist
      (outputDelay P
        ((resampleOne P)^[k] (consumeInput P (pushMixed (mixed P x s) (advancePhase s))))))
    exact ⟨⟨hp.arrays.rcHist, hp.arrays.levelHist, hp.arrays.ring, hp.arrays.lpfHist0,
      hp.arrays.lpfHist1, hp.arrays.bytes, hp.arrays.scopeBuf, hp.arrays.anaBuf, hp.arrays.toneRef0,
      hp.arrays.toneRef1⟩, hp.frame, hp.levelIdx, hp.corrIdx, hp.corrCnt, hp.syncCount, hp.scopeCnt,
      hp.anaCnt⟩

/-- What SAMPLE leaves alone (R179, R200). -/
theorem feed_fields (P : Params) (x : CVal) (s : State) (hf : s.cfg.inputRate ≠ 0) :
    (feed P x s).stg = s.stg ∧ (feed P x s).cfg = s.cfg ∧ (feed P x s).configured = s.configured ∧
    (feed P x s).derived = s.derived ∧ (feed P x s).status = s.status ∧
    (feed P x s).commands = s.commands ∧
    (feed P x s).ncoAcc = (s.ncoAcc + s.derived.ncoStep) % unsignedHz s.cfg.inputRate := by
  obtain ⟨k, he, -, -⟩ := feed_eq P x s hf
  rw [he]
  clear he
  induction k with
  | zero => simp
  | succ k ih =>
    rw [Function.iterate_succ_apply']
    simpa using ih

/-- The pipeline's reset values meet their part of the invariant (R40, R175, R220). -/
theorem PipelineLegal.reset {P : Params} (s : State) (h0 : s.derived.toneRef0.length = P.corrLen)
    (h1 : s.derived.toneRef1.length = P.corrLen) (h2 : s.scope.buf.length = P.scopeBatch)
    (h3 : s.ana.buf.length = P.analyzerBatch) : PipelineLegal P (resetPipeline P s) := by
  have hL := Params.corrLen_pos P
  refine ⟨⟨?_, ?_, ?_, ?_, ?_, ?_, h2, h3, h0, h1⟩, ?_, P.levelN.pos, hL, hL, ?_, P.scopeBatch.pos,
    P.analyzerBatch.pos⟩
  · simp [resetPipeline]
  · simp [resetPipeline]
  · simp [resetPipeline]
  · simp [resetPipeline]
  · simp [resetPipeline]
  · simp [resetPipeline]
  · exact ⟨fun _ => ⟨Nat.zero_le _, rfl⟩, by simp [resetPipeline], by simp [resetPipeline],
      Nat.zero_le _⟩
  · simp [resetPipeline]

/-- The invariant is the pipeline's part, the timing, the status and the configuration. -/
theorem inv_iff (P : Params) (s : State) :
    Inv P s ↔ StatusLegal s.status ∧ PipelineLegal P s ∧ 0 < s.rc.acc ∧
      (s.configured = true → ConfigLegal P s) := by
  constructor
  · intro h
    exact ⟨h.status, ⟨h.arrays, h.frame, h.counters.levelIdx, h.counters.corrIdx, h.counters.corrCnt,
      h.counters.syncCount, h.counters.scopeCnt, h.counters.anaCnt⟩, h.counters.timing, h.config⟩
  · rintro ⟨h1, h2, h3, h4⟩
    exact ⟨h1, h2.arrays, ⟨h3, h2.levelIdx, h2.corrIdx, h2.corrCnt, h2.syncCount, h2.scopeCnt,
      h2.anaCnt⟩, h2.frame, h4⟩

end Sys2Proof.Machine
end

