-- ==== Sys2Proof/Laws/PerInstr.lean ====
section
/-!
SUPPORT. Statements made instruction by instruction: the command as syntax, its word and its row of
the opcode table.
-/

namespace Sys2Proof.Laws.EncodesToItsRow

/-- The command's word is identified by the row of the opcode table with its mnemonic, and by no
other row (R76, R77). -/
def Statement (i : Instr) : Prop :=
  ∀ r ∈ opcodeTable, r.identifies (encode i) = true ↔ r.mnemonic = i.mnemonic

/-- Every row's mask covers the opcode, so a word it identifies has its opcode. -/
theorem opField_of_identifies {r : OpcodeRow} (hr : r ∈ opcodeTable) {w : Word}
    (h : r.identifies w = true) : opField w = opField r.matchBits := by
  have hw : w &&& r.maskBits = r.matchBits := by simpa [OpcodeRow.identifies] using h
  have hm : ∀ r ∈ opcodeTable, opField r.maskBits = BitVec.allOnes 8 := by decide
  have ha : opField (w &&& r.maskBits) = opField w &&& opField r.maskBits := by
    simp [opField, BitVec.extractLsb'_and]
  rw [← hw, ha, hm r hr, BitVec.and_allOnes]

/-- A command whose word a row identifies, if that row is the only one with its opcode and the only
one with its mnemonic. -/
theorem of_row {i : Instr} (row : OpcodeRow) (h : row.identifies (encode i) = true)
    (hn : ∀ r ∈ opcodeTable,
      (opField r.matchBits = opField (encode i) → r = row) ∧ (r = row ↔ r.mnemonic = i.mnemonic)) :
    Statement i := by
  intro r hr
  constructor
  · intro hi
    exact (hn r hr).2.mp ((hn r hr).1 (opField_of_identifies hr hi).symm)
  · intro hm
    rw [(hn r hr).2.mpr hm]
    exact h

/-- The word of a format V command under its row's mask (R72, R77). -/
theorem and_mask_V (op : BitVec 8) (v : BitVec 32) :
    (op ++ 0#24 ++ v) &&& 0xFFFFFFFF00000000#64 = (op ++ 0#24 ++ 0#32) := by
  have h : (op ++ 0#24 ++ v) &&& (BitVec.allOnes (8 + 24) ++ 0#32) = (op ++ 0#24 ++ 0#32) := by
    rw [BitVec.and_append, BitVec.and_allOnes, BitVec.and_zero]
  exact h

/-- The word of a format A command under its row's mask (R72, R77). -/
theorem and_mask_A (force : Bool) (mask : BitVec 4) :
    (0x06#8 ++ 0#47 ++ BitVec.ofBool force ++ 0#4 ++ mask) &&& 0xFFFFFFFFFFFFFEF0#64 =
      0x0600000000000000#64 := by
  have h : (0x06#8 ++ 0#47 ++ BitVec.ofBool force ++ 0#4 ++ mask) &&&
      (BitVec.allOnes (8 + 47) ++ 0#1 ++ BitVec.allOnes 4 ++ 0#4) =
        (0x06#8 ++ 0#47 ++ 0#1 ++ 0#4 ++ 0#4) := by
    rw [BitVec.and_append, BitVec.and_append, BitVec.and_append, BitVec.and_allOnes,
      BitVec.and_allOnes, BitVec.and_zero, BitVec.and_zero]
  exact h

/-- The word of a format S command under its row's mask (R72, R77). -/
theorem and_mask_S (i q : BitVec 24) :
    (0x07#8 ++ 0#8 ++ i ++ q) &&& 0xFFFF000000000000#64 = 0x0700000000000000#64 := by
  have h : (0x07#8 ++ 0#8 ++ i ++ q) &&& (BitVec.allOnes (8 + 8) ++ 0#24 ++ 0#24) =
      (0x07#8 ++ 0#8 ++ 0#24 ++ 0#24) := by
    rw [BitVec.and_append, BitVec.and_append, BitVec.and_allOnes, BitVec.and_zero, BitVec.and_zero]
  exact h

theorem reset : Statement .reset := by unfold Statement; decide

theorem setOffset (value : BitVec 32) : Statement (.setOffset value) :=
  of_row ⟨"SET_OFFSET", 0x0200000000000000#64, 0xFFFFFFFF00000000#64⟩
    (beq_iff_eq.mpr (and_mask_V 0x02#8 value)) (by rw [opField_encode]; simp only [Instr.mnemonic]; decide)

theorem setInputRate (value : BitVec 32) : Statement (.setInputRate value) :=
  of_row ⟨"SET_INPUT_RATE", 0x0300000000000000#64, 0xFFFFFFFF00000000#64⟩
    (beq_iff_eq.mpr (and_mask_V 0x03#8 value)) (by rw [opField_encode]; simp only [Instr.mnemonic]; decide)

theorem setRfBw (value : BitVec 32) : Statement (.setRfBw value) :=
  of_row ⟨"SET_RF_BW", 0x0400000000000000#64, 0xFFFFFFFF00000000#64⟩
    (beq_iff_eq.mpr (and_mask_V 0x04#8 value)) (by rw [opField_encode]; simp only [Instr.mnemonic]; decide)

theorem setFmDev (value : BitVec 32) : Statement (.setFmDev value) :=
  of_row ⟨"SET_FM_DEV", 0x0500000000000000#64, 0xFFFFFFFF00000000#64⟩
    (beq_iff_eq.mpr (and_mask_V 0x05#8 value)) (by rw [opField_encode]; simp only [Instr.mnemonic]; decide)

theorem apply (force : Bool) (mask : BitVec 4) : Statement (.apply force mask) :=
  of_row ⟨"APPLY", 0x0600000000000000#64, 0xFFFFFFFFFFFFFEF0#64⟩
    (beq_iff_eq.mpr (and_mask_A force mask)) (by rw [opField_encode]; simp only [Instr.mnemonic]; decide)

theorem sample (i q : BitVec 24) : Statement (.sample i q) :=
  of_row ⟨"SAMPLE", 0x0700000000000000#64, 0xFFFF000000000000#64⟩
    (beq_iff_eq.mpr (and_mask_S i q)) (by rw [opField_encode]; simp only [Instr.mnemonic]; decide)

end Sys2Proof.Laws.EncodesToItsRow
end

