-- ==== Sys2Proof/Laws/RealParams.lean ====
section
/-!
SUPPORT. R6 leaves TONE0, TONE1, LPF_TAPS and ANALYZER_SCALE to be any real numbers and RC_KERNEL any
function of real and complex numbers. The terms of `Val` are countably many, but the constants they
name are any reals: every such choice is an instance (`exists_instance_of_reals`).
-/

namespace Sys2Proof

/-- A number for each term, different for different terms. -/
def Val.code : Val → Nat
  | .rat q => Nat.pair 0 (Encodable.encode q)
  | .negZero => Nat.pair 1 0
  | .const n => Nat.pair 2 n
  | .add a b => Nat.pair 3 (Nat.pair a.code b.code)
  | .mul a b => Nat.pair 4 (Nat.pair a.code b.code)
  | .sqrt a => Nat.pair 5 a.code
  | .cosTurn a => Nat.pair 6 a.code
  | .sinTurn a => Nat.pair 7 a.code
  | .angle a b => Nat.pair 8 (Nat.pair a.code b.code)

theorem Val.code_injective : Function.Injective Val.code := by
  intro a
  induction a with
  | rat | negZero | const => intro b h; cases b <;> simp_all [Val.code, Nat.pair_eq_pair]
  | sqrt a ih | cosTurn a ih | sinTurn a ih =>
    intro b h
    cases b <;> simp only [Val.code, Nat.pair_eq_pair] at h <;> first | omega | simp [ih h.2]
  | add a b iha ihb | mul a b iha ihb | angle a b iha ihb =>
    intro c h
    cases c <;> simp only [Val.code, Nat.pair_eq_pair] at h <;>
      first | omega | simp [iha h.2.1, ihb h.2.2]

/-- Every constant a term names has a number below this. -/
def Val.bound : Val → Nat
  | .const n => n + 1
  | .add a b | .mul a b | .angle a b => a.bound + b.bound
  | .sqrt a | .cosTurn a | .sinTurn a => a.bound
  | _ => 0

/-- A term's value depends on the constants below its bound alone. -/
theorem Val.toReal_congr {ρ σ : Nat → ℝ} (v : Val) (h : ∀ n < v.bound, ρ n = σ n) :
    v.toReal ρ = v.toReal σ := by
  induction v with
  | rat | negZero => rfl
  | const n => exact h n (by simp [Val.bound])
  | sqrt a ih | cosTurn a ih | sinTurn a ih => simp [Val.toReal, ih h]
  | add a b iha ihb | mul a b iha ihb | angle a b iha ihb =>
    have ha := iha fun n hn => h n (by simp only [Val.bound]; omega)
    have hb := ihb fun n hn => h n (by simp only [Val.bound]; omega)
    simp [Val.toReal, ha, hb]

/-- What RC_KERNEL is applied to. -/
abbrev KernelCall := (BitVec 32 × BitVec 32) × List CVal × ℚ

def CVal.bound (z : CVal) : Nat := z.re.bound + z.im.bound

def histBound (hist : List CVal) : Nat := (hist.map CVal.bound).sum

/-- The constant that names one part of the kernel's value at a call; its number is above that of
every constant the call names. -/
def callIndex (c : KernelCall) (imaginary : Bool) : Nat :=
  Nat.pair 2 (Nat.pair
    (Encodable.encode ((c.1.1.toNat, c.1.2.toNat),
      c.2.1.map (fun z => (z.re.code, z.im.code)), c.2.2, imaginary))
    (histBound c.2.1))

theorem histBound_le_callIndex (c : KernelCall) (b : Bool) : histBound c.2.1 ≤ callIndex c b :=
  (Nat.right_le_pair _ _).trans (Nat.right_le_pair _ _)

theorem callIndex_injective {c d : KernelCall} {a b : Bool} (h : callIndex c a = callIndex d b) :
    c = d ∧ a = b := by
  obtain ⟨⟨c1, c2⟩, ch, cd⟩ := c
  obtain ⟨⟨d1, d2⟩, dh, dd⟩ := d
  simp only [callIndex, Nat.pair_eq_pair, Encodable.encode_inj, Prod.mk.injEq, true_and] at h
  obtain ⟨⟨⟨h1, h2⟩, h3, h4, h5⟩, -⟩ := h
  have hh : ch = dh := by
    refine List.map_injective_iff.2 ?_ h3
    rintro ⟨x, y⟩ ⟨u, v⟩ h
    simp only [Prod.mk.injEq] at h
    rw [Val.code_injective h.1, Val.code_injective h.2]
  simp [BitVec.eq_of_toNat_eq h1, BitVec.eq_of_toNat_eq h2, hh, h4, h5]

/-- Reals in which each may be given in terms of those before it. -/
noncomputable def recReals (F : Nat → (Nat → ℝ) → ℝ) (n : Nat) : ℝ :=
  F n fun j => if _ : j < n then recReals F j else 0
termination_by n

theorem complex_congr_of_hist {ρ σ : Nat → ℝ} (hist : List CVal)
    (h : ∀ n < histBound hist, ρ n = σ n) :
    hist.map (CVal.toComplex ρ) = hist.map (CVal.toComplex σ) := by
  induction hist with
  | nil => rfl
  | cons z l ih =>
    have hb : histBound (z :: l) = z.re.bound + z.im.bound + histBound l := by
      simp [histBound, CVal.bound]
    have hr := z.re.toReal_congr fun n hn => h n (by omega)
    have hi := z.im.toReal_congr fun n hn => h n (by omega)
    simp [CVal.toComplex, hr, hi, ih fun n hn => h n (by omega)]

open Classical in
/-- The `n`-th constant, from those before it: a tone, the scale, a tap or one part of a value of the
kernel. -/
noncomputable def parameterReal (tone0 tone1 scale : ℝ) (taps : List ℝ)
    (K : BitVec 32 × BitVec 32 → List ℂ → ℚ → ℂ) (n : Nat) (before : Nat → ℝ) : ℝ :=
  if n = Nat.pair 0 0 then tone0
  else if n = Nat.pair 0 1 then tone1
  else if n = Nat.pair 0 2 then scale
  else if n.unpair.1 = 1 then taps.getD n.unpair.2 0
  else if h : ∃ c : KernelCall × Bool, callIndex c.1 c.2 = n then
    let c := h.choose
    let z := K c.1.1 (c.1.2.1.map (CVal.toComplex before)) c.1.2.2
    if c.2 then z.im else z.re
  else 0

/-- Every choice of real numbers for the real parameters of R6, with any kernel, is an instance, with
exact arithmetic and with the other parameters of any instance. -/
theorem exists_instance_of_reals (tone0 tone1 scale tap0 : ℝ) (taps : List ℝ)
    (K : BitVec 32 × BitVec 32 → List ℂ → ℚ → ℂ) (Q : Params) :
    ∃ P : Params, P.IsReference ∧ P.real P.tone0 = tone0 ∧ P.real P.tone1 = tone1 ∧
      P.real P.analyzerScale = scale ∧ P.lpfTaps.map P.real = tap0 :: taps ∧
      (∀ cfg hist d, P.complex (P.rcKernel cfg hist d) = K cfg (hist.map P.complex) d) ∧
      P.baud = Q.baud ∧ P.corrLenPred = Q.corrLenPred ∧ P.syncPattern = Q.syncPattern ∧
      P.rcHistLen = Q.rcHistLen ∧ P.levelN = Q.levelN ∧ P.scopeBatch = Q.scopeBatch ∧
      P.analyzerBatch = Q.analyzerBatch ∧ P.timestamp = Q.timestamp ∧
      P.unspecified = Q.unspecified := by
  let ρ := recReals (parameterReal tone0 tone1 scale (tap0 :: taps) K)
  have hρ (n : Nat) : ρ n = parameterReal tone0 tone1 scale (tap0 :: taps) K n
      fun j => if _ : j < n then ρ j else 0 := by
    simp only [ρ]
    rw [recReals]
  have hcall (c : KernelCall) (b : Bool) : ρ (callIndex c b) =
      (if b then (K c.1 (c.2.1.map (CVal.toComplex ρ)) c.2.2).im
        else (K c.1 (c.2.1.map (CVal.toComplex ρ)) c.2.2).re) := by
    have hex : ∃ e : KernelCall × Bool, callIndex e.1 e.2 = callIndex c b := ⟨(c, b), rfl⟩
    have hch : hex.choose = (c, b) := by
      obtain ⟨h1, h2⟩ := callIndex_injective hex.choose_spec
      exact Prod.ext h1 h2
    have hne (j : Nat) : callIndex c b ≠ Nat.pair 0 j := by simp [callIndex, Nat.pair_eq_pair]
    have hu : (callIndex c b).unpair.1 ≠ 1 := by simp [callIndex]
    rw [hρ, parameterReal, if_neg (hne 0), if_neg (hne 1), if_neg (hne 2), if_neg hu, dif_pos hex]
    simp only [hch]
    rw [complex_congr_of_hist (σ := ρ) c.2.1 fun n hn => by
      rw [dif_pos (hn.trans_le (histBound_le_callIndex c b))]]
  have h0 : ρ (Nat.pair 0 0) = tone0 := by rw [hρ, parameterReal, if_pos rfl]
  have h1 : ρ (Nat.pair 0 1) = tone1 := by
    rw [hρ, parameterReal, if_neg (by simp [Nat.pair_eq_pair]), if_pos rfl]
  have h2 : ρ (Nat.pair 0 2) = scale := by
    rw [hρ, parameterReal, if_neg (by simp [Nat.pair_eq_pair]), if_neg (by simp [Nat.pair_eq_pair]), if_pos rfl]
  have htap (k : Nat) : ρ (Nat.pair 1 k) = (tap0 :: taps).getD k 0 := by
    rw [hρ, parameterReal, if_neg (by simp [Nat.pair_eq_pair]), if_neg (by simp [Nat.pair_eq_pair]),
      if_neg (by simp [Nat.pair_eq_pair]), if_pos (by simp)]
    simp
  let kernel : RcKernel := fun cfg hist d =>
    ⟨.const (callIndex (cfg, hist, d) false), .const (callIndex (cfg, hist, d) true)⟩
  refine ⟨{ Q with
      constant := ρ
      tone0 := .const (Nat.pair 0 0)
      tone1 := .const (Nat.pair 0 1)
      analyzerScale := .const (Nat.pair 0 2)
      lpfTap0 := .const (Nat.pair 1 0)
      lpfTapsRest := (List.range taps.length).map fun k => .const (Nat.pair 1 (k + 1))
      rcKernel := kernel
      num := Num.exact kernel
      compare := Comparison.exact _ _
      truncate := Truncation.exact _ _ _ },
    ⟨rfl, fun _ => trivial⟩, h0, h1, h2, ?_, ?_, rfl, rfl, rfl, rfl, rfl, rfl, rfl, rfl, rfl⟩
  · refine List.ext_getElem (by simp [Params.lpfTaps]) fun k hk hk' => ?_
    cases k with
    | zero => simp [Params.lpfTaps, htap]
    | succ k =>
      simp only [List.length_cons] at hk'
      simp [Params.lpfTaps, htap, show k < taps.length by omega]
  · intro cfg hist d
    apply Complex.ext
    · exact hcall (cfg, hist, d) false
    · exact hcall (cfg, hist, d) true

end Sys2Proof
end

