-- ==== Sys2Proof/Tests/Slice0.lean ====
section
/-!
SUPPORT. Tests of single steps and single stages against values the spec states (its examples and
the vectors of 95_test_vectors.md), the smoke test of well-formedness, and for each statement with
hypotheses a witness that meets them together.
-/

namespace Sys2Proof.Machine.Tests

/-! ### Decoding (R83, and the vectors V-DE of 95_test_vectors.md) -/

/-- V-DE-2. -/
theorem test_decode_reset : decode 0x0100000000000000#64 = .ok .reset := by decide

/-- V-DE-4, and R83's SET.OFFSET -1200. -/
theorem test_decode_set_offset :
    decode 0x02000000FFFFFFFF#64 = .ok (.setOffset (-1)) ∧
      decode 0x02000000FFFFFB50#64 = .ok (.setOffset (-1200)) ∧ signedHz (-1200) = -1200 := by decide

/-- V-DE-5. -/
theorem test_decode_set_input_rate :
    decode 0x0300000080000000#64 = .ok (.setInputRate 0x80000000) ∧
      unsignedHz 0x80000000 = 2147483648 := by decide

/-- R83: SET.RFBW 2400. -/
theorem test_decode_set_rf_bw : decode 0x0400000000000960#64 = .ok (.setRfBw 2400) := by decide

/-- R83: SET.FMDEV 2400. -/
theorem test_decode_set_fm_dev : decode 0x0500000000000960#64 = .ok (.setFmDev 2400) := by decide

/-- V-DE-7, and R83's APPLY rate+rfbw. -/
theorem test_decode_apply :
    decode 0x0600000000000100#64 = .ok (.apply true 0) ∧
      decode 0x0600000000000006#64 = .ok (.apply false 0b0110) := by decide

/-- V-DE-10 and V-DE-11: the two ends of both components. -/
theorem test_decode_sample :
    decode 0x0700800000800000#64 = .ok (.sample 0x800000 0x800000) ∧
      decode 0x07007FFFFF7FFFFF#64 = .ok (.sample 0x7FFFFF 0x7FFFFF) ∧
      inputSample 0x800000 0x7FFFFF = CVal.ofInts (-8388608) 8388607 := by decide +kernel

/-- V-DE-1, 3, 6, 8, 9, 12, 13, 14: each refused under the name of its cause. -/
theorem test_decode_illegal :
    decode 0x0000000000000000#64 = .error (.unassignedOpcode 0x00) ∧
      decode 0x0100000000000001#64 = .error (.reservedBitSet 0x01) ∧
      decode 0x0201000000000000#64 = .error (.reservedBitSet 0x02) ∧
      decode 0x060000000000001F#64 = .error (.reservedBitSet 0x06) ∧
      decode 0x0600000000000200#64 = .error (.reservedBitSet 0x06) ∧
      decode 0x0701000000000000#64 = .error (.reservedBitSet 0x07) ∧
      decode 0x0800000000000000#64 = .error (.unassignedOpcode 0x08) ∧
      decode 0xFFFFFFFFFFFFFFFF#64 = .error (.unassignedOpcode 0xFF) := by decide

/-- The host's view of the decoder: whole words only. -/
theorem test_decode_table_word :
    decodeTableWord 64 0x0500000000000960 = some (.setFmDev 2400) ∧
      decodeTableWord 64 0x0800000000000000 = none := by decide

/-- No word is identified by two rows of the opcode table (R77). -/
theorem test_rows_do_not_overlap : opcodeTable.Pairwise fun r t => r.overlaps t = false := by decide

/-! ### Well-formedness: each range check of R81 refuses an operand just outside it -/

theorem test_well_formed_offset :
    (AsmCommand.setOffset (-(2 ^ 31))).wellFormed = true ∧
      (AsmCommand.setOffset (2 ^ 31)).wellFormed = false ∧
      (AsmCommand.setOffset (-(2 ^ 31) - 1)).wellFormed = false := by decide

theorem test_well_formed_rate :
    (AsmCommand.setRate (2 ^ 32 - 1)).wellFormed = true ∧
      (AsmCommand.setRate (2 ^ 32)).wellFormed = false ∧
      (AsmCommand.setRate (-1)).wellFormed = false := by decide

theorem test_well_formed_rf_bw :
    (AsmCommand.setRfBw 0).wellFormed = true ∧ (AsmCommand.setRfBw (2 ^ 32)).wellFormed = false := by
  decide

theorem test_well_formed_fm_dev :
    (AsmCommand.setFmDev 0).wellFormed = true ∧ (AsmCommand.setFmDev (-1)).wellFormed = false := by
  decide

theorem test_well_formed_mask :
    (AsmCommand.apply 15).wellFormed = true ∧ (AsmCommand.apply 16).wellFormed = false ∧
      (AsmCommand.apply (-1)).wellFormed = false := by decide

theorem test_well_formed_sample :
    (AsmCommand.sample (-(2 ^ 23)) (2 ^ 23 - 1)).wellFormed = true ∧
      (AsmCommand.sample (2 ^ 23) 0).wellFormed = false ∧
      (AsmCommand.sample 0 (-(2 ^ 23) - 1)).wellFormed = false := by decide

theorem test_well_formed_pseudo :
    (AsmCommand.config 0 4800 2400 (-1)).wellFormed = false ∧
      (AsmCommand.retune (2 ^ 31)).wellFormed = false ∧
      (AsmCommand.changeRate (2 ^ 32)).wellFormed = false ∧
      (AsmCommand.changeBw (-1)).wellFormed = false ∧
      (AsmCommand.changeDev (2 ^ 32)).wellFormed = false := by decide

/-- R81 and R83: lines of text. -/
theorem test_assemble_line :
    assembleLine "APPLY rate+rfbw ; both keys".toList = some [0x0600000000000006#64] ∧
      assembleLine "SAMPLE -1000, 0".toList = some [0x0700FFFC18000000#64] ∧
      assembleLine "SET.RATE 4294967296".toList = none := by decide +kernel

/-! ### One step of each command, on TI (R8) -/

/-- The configuration of the vectors: `CONFIG 0, 4800, 2400, 2400`. -/
def tiConfig : ChannelConfig :=
  { offset := 0, inputRate := 4800, rfBandwidth := 2400, fmDeviation := 2400 }

/-- An instance right after `CONFIG 0, 4800, 2400, 2400` from power-on: "after force". -/
def afterForce (P : Params) : State :=
  forceRebuild P
    { State.powerOn P with
      stg := { value := tiConfig, valid := 0b1111 }, cfg := tiConfig, configured := true }

/-- What is asked of the next state; false if there is none. -/
def nextHas (r : Result) (p : State → Bool) : Bool :=
  match r with
  | .next s => p s
  | _ => false

/-- P2: RESET while faulted clears the fault and unconfigures the block. -/
theorem test_reset_recovers :
    nextHas (resetOn ti (raiseFault .notConfigured (afterForce ti))) (fun t =>
      t.status == { fault := false, code := 0 } && !t.configured && t.stg.valid == 0
        && t.rc.acc == 4800) = true := by decide +kernel

/-- R220's example: after RESET the next SAMPLE faults NOT_CONFIGURED. -/
theorem test_reset_then_sample_faults :
    nextHas (sampleOn ti 1000 0 (State.powerOn ti)) (fun t =>
      t.status == { fault := true, code := 2 }) = true := by decide +kernel

/-- V-AP-10's SET.OFFSET -1, which changes no active value (R170). -/
theorem test_set_offset :
    nextHas (setOn .offset (-1) (afterForce ti)) (fun t =>
      signedHz t.stg.value.offset == -1 && t.cfg == tiConfig) = true := by decide +kernel

/-- R170's example: SET.RATE 4800. -/
theorem test_set_input_rate :
    nextHas (setOn .inputRate 4800 (State.powerOn ti)) (fun t =>
      unsignedHz t.stg.value.inputRate == 4800 && t.stg.valid == 0b0010) = true := by decide +kernel

/-- V-AP-3: the staged bandwidth waits. -/
theorem test_set_rf_bw :
    nextHas (setOn .rfBandwidth 3000 (afterForce ti)) (fun t =>
      unsignedHz t.stg.value.rfBandwidth == 3000 && unsignedHz t.cfg.rfBandwidth == 2400) = true := by
  decide +kernel

/-- V-AP-1's SET.FMDEV 1200, from power-on: key 3. -/
theorem test_set_fm_dev :
    nextHas (setOn .fmDeviation 1200 (State.powerOn ti)) (fun t =>
      unsignedHz t.stg.value.fmDeviation == 1200 && t.stg.valid == 0b1000) = true := by decide +kernel

/-- V-AP-8: the step follows the offset, the phase is kept. -/
theorem test_apply_offset :
    nextHas (applyOn ti false 0b0001
      { afterForce ti with
        stg := { value := { tiConfig with offset := 1200 }, valid := 0b1111 }, ncoAcc := 2400 })
      (fun t => t.derived.ncoStep == 3600 && t.ncoAcc == 2400) = true := by decide +kernel

/-- V-AP-9: the phase and the timing restart on a rate change. -/
theorem test_apply_rate :
    nextHas (applyOn ti false 0b0010
      { afterForce ti with
        stg := { value := { tiConfig with inputRate := 2400 }, valid := 0b1111 }, ncoAcc := 2400 })
      (fun t => t.ncoAcc == 0 && t.rc.acc == 4800 && t.derived.rcKernelCfg == (2400, 2400)
        && t.derived.ncoStep == 0) = true := by decide +kernel

/-- R95's example: one internal sample `1000 + j0`, no correlator update. -/
theorem test_sample_after_force :
    nextHas (sampleOn ti 1000 0 (afterForce ti)) (fun t =>
      t.discPrev == CVal.ofInts 1000 0 && t.corr.ring[0]? == some (.rat 0) && t.corr.idx == 1
        && t.corr.cnt == 1 && t.rc.acc == 4800) = true := by decide +kernel

/-- V-MX-2 and V-DI-2: offset 1200, second input `1000`, turned by `-j`. -/
theorem test_sample_mixes :
    nextHas (sampleOn ti 0 1000
      { afterForce ti with
        cfg := { tiConfig with offset := 1200 }
        derived := { (afterForce ti).derived with ncoStep := 3600 }
        ncoAcc := 3600, discPrev := CVal.ofInts 1000 0 })
      (fun t => t.discPrev == CVal.ofInts 1000 0 && t.ncoAcc == 2400) = true := by decide +kernel

/-! ### Single stages -/

/-- V-DI-3, V-DI-4, V-DI-5 and V-DI-7. -/
theorem test_disc :
    exactDisc (phaseProduct (CVal.ofInts 1000 0) (CVal.ofInts (-1000) 0)) (.rat 1) = .rat 1 ∧
      exactDisc (phaseProduct (CVal.ofInts 1000 0) (CVal.ofInts 0 (-1000))) (.rat 1) =
        .rat (-1 / 2) ∧
      exactDisc (phaseProduct (CVal.ofInts 1000 0) (CVal.ofInts 0 0)) (.rat 1) = .rat 0 ∧
      exactDisc (phaseProduct (CVal.ofInts 1000 0) (CVal.ofInts 1000 1000)) (.rat 1) =
        .rat (1 / 4) := by decide +kernel

/-- V-LV-1: the second of the powers 4, 8. -/
theorem test_level :
    levelUpdate ti (.rat 8) { hist := [.rat 4, .rat 0, .rat 0, .rat 0], idx := 1, avg := .rat 1,
                              peak := .rat 4 } =
      { hist := [.rat 4, .rat 8, .rat 0, .rat 0], idx := 2, avg := .rat 3, peak := .rat 8 } := by
  decide +kernel

/-- V-CO-7: the fourth of the samples 0, 0, 1, 0. -/
theorem test_corr :
    corrUpdate ti (toneBuild ti (State.powerOn ti).derived) (.rat 0)
        { ring := [.rat 0, .rat 0, .rat 1, .rat 0], idx := 3, cnt := 3, mag0 := .rat 0,
          mag1 := .rat 0 } =
      { ring := [.rat 0, .rat 0, .rat 1, .rat 0], idx := 0, cnt := 3, mag0 := .rat 1,
        mag1 := .rat 1 } := by decide +kernel

/-- V-LP-1: `h = [1/2, 1/2]`, the inputs 2 and 2 after a zero history. -/
theorem test_lpf :
    exactLpf [.rat (1 / 2), .rat (1 / 2)] [.rat 2, .rat 0] = .rat 1 ∧
      exactLpf [.rat (1 / 2), .rat (1 / 2)] [.rat 2, .rat 2] = .rat 2 := by decide +kernel

/-- R140's example: a boundary. V-BS-2's first update: an edge. -/
theorem test_bit_sync :
    (syncUpdate ti (.rat 2) { diff := .rat 0, curSample := true, samplePrev := true, syncCount := 1,
                              lastBit := false, bitStrobe := false }).syncCount = 4 ∧
      (syncUpdate ti (.rat 0) { diff := .rat 0, curSample := false, samplePrev := false,
                                syncCount := 0, lastBit := false, bitStrobe := false }).syncCount = 2 := by
  decide +kernel

/-- R150's example: the match. V-FR-4: a 1 in position 17 drops the oldest bit. -/
theorem test_frame_match :
    frameUpdate ti false { gotSOP := false, bits := 0x1234, bitCount := 16, bytes := [], byteCount := 0 } =
        { gotSOP := true, bits := 0, bitCount := 0, bytes := [], byteCount := 0 } ∧
      frameUpdate ti true { gotSOP := false, bits := 0x1234, bitCount := 16, bytes := [], byteCount := 0 } =
        { gotSOP := false, bits := 0x891A, bitCount := 16, bytes := [], byteCount := 0 } := by
  decide +kernel

/-- R155: the first received bit of a byte is bit 0. -/
theorem test_frame_byte :
    (frameUpdate ti true { gotSOP := true, bits := 0x11, bitCount := 7,
                           bytes := List.replicate 8 0, byteCount := 0 }).bytes[0]? = some 0x91 := by
  decide +kernel

/-- R141, R16: a difference of 0 decides 1, a negative zero too, and one just below 0 decides 0. -/
theorem test_decision :
    decisionBit ti (.rat 0) = true ∧ decisionBit ti .negZero = true ∧
      decisionBit ti (.rat (-1 / 1000000)) = false :=
  ⟨by decide +kernel, decisionBit_negZero ti, by decide +kernel⟩

/-- R189: truncation toward zero, and both saturations. -/
theorem test_analyzer_value :
    analyzerValue ti (.rat (-15 / 10000)) = -1 ∧ analyzerValue ti (.rat 40) = 32767 ∧
      analyzerValue ti (.rat (-40)) = -32768 := by decide +kernel

/-! ### The host's two questions, on one word of each row -/

/-- From reset, the word placed is the first command performed (log 8). -/
theorem test_first_instruction :
    (match step (State.reset.withFetchWord 64 0x0500000000000960) with
      | .next t => t.stg.valid == 0b1000 && t.stg.value.fmDeviation == 2400 && t.commands.isEmpty
      | _ => false) = true := by decide

/-! ### Witnesses: states and operands that meet the hypotheses of each statement together -/

/-- The block of the fixed names, configured: a forced APPLY of `tiConfig`. -/
def up : State := afterForce Config.params

/-- The same with words delivered. -/
def given (ws : List Word) : State := { up with commands := ws }

/-- A faulted block with words delivered. -/
def faultedGiven (ws : List Word) : State :=
  { raiseFault .notConfigured State.reset with commands := ws }

/-- A word that meets each clause of the decoder's statement, the reserved fields zero and every
operand bit set. -/
theorem witness_decode_clauses :
    decode 0x060000000000010F#64 = .ok (.apply true 15) ∧
      encode (.apply true 15) = 0x060000000000010F#64 ∧
      ((0x0100000000000000#64).toNat / 2 ^ 56 = 1 ∧ (0x0100000000000000#64).toNat % 2 ^ 56 = 0) ∧
      ((0x02000000FFFFFFFF#64).toNat / 2 ^ 56 = 2 ∧
        (0x02000000FFFFFFFF#64).toNat / 2 ^ 32 % 2 ^ 24 = 0) ∧
      ((0x03000000FFFFFFFF#64).toNat / 2 ^ 56 = 3 ∧
        (0x03000000FFFFFFFF#64).toNat / 2 ^ 32 % 2 ^ 24 = 0) ∧
      ((0x04000000FFFFFFFF#64).toNat / 2 ^ 56 = 4 ∧
        (0x04000000FFFFFFFF#64).toNat / 2 ^ 32 % 2 ^ 24 = 0) ∧
      ((0x05000000FFFFFFFF#64).toNat / 2 ^ 56 = 5 ∧
        (0x05000000FFFFFFFF#64).toNat / 2 ^ 32 % 2 ^ 24 = 0) ∧
      ((0x060000000000010F#64).toNat / 2 ^ 56 = 6 ∧
        (0x060000000000010F#64).toNat / 2 ^ 9 % 2 ^ 47 = 0 ∧
        (0x060000000000010F#64).toNat / 2 ^ 4 % 2 ^ 4 = 0) ∧
      ((0x0700FFFFFFFFFFFF#64).toNat / 2 ^ 56 = 7 ∧
        (0x0700FFFFFFFFFFFF#64).toNat / 2 ^ 48 % 2 ^ 8 = 0) ∧
      (0x0800000000000000#64).toNat / 2 ^ 56 = 8 := by
  refine ⟨by decide, by decide, ?_⟩
  simp

/-- The two ends of the value field, and the sign of the sample fields. -/
theorem witness_format_boundaries :
    (0x02000000FFFFFFFF#64).toNat / 2 ^ 32 % 2 ^ 24 = 0 ∧
      Int.bmod ((0x02000000FFFFFFFF#64).toNat : Int) (2 ^ 32) = -1 ∧
      Int.bmod ((0x0200000080000000#64).toNat : Int) (2 ^ 32) = -(2 ^ 31) ∧
      (0x03000000FFFFFFFF#64).toNat % 2 ^ 32 = 2 ^ 32 - 1 ∧
      (0x0700800000000000#64).toNat / 2 ^ 48 % 2 ^ 8 = 0 ∧
      Int.bmod (((0x0700800000000000#64).toNat / 2 ^ 24 : ℕ) : Int) (2 ^ 24) = -(2 ^ 23) := by decide

theorem witness_match_and_mask :
    (⟨"APPLY", 0x0600000000000000#64, 0xFFFFFFFFFFFFFEF0#64⟩ : OpcodeRow) ∈ opcodeTable ∧
      (⟨"APPLY", 0x0600000000000000#64, 0xFFFFFFFFFFFFFEF0#64⟩ : OpcodeRow).identifies
        0x060000000000010F#64 = true := by decide

/-- One word of each of the three kinds a step meets. -/
theorem witness_step_runs :
    (given [0x0100000000000000#64]).commands = 0x0100000000000000#64 :: [] ∧
      decode 0x0100000000000000#64 = .ok .reset ∧
      decode 0x0000000000000000#64 = .error (.unassignedOpcode 0) ∧ (given []).commands = [] :=
  ⟨rfl, by decide, by decide, rfl⟩

/-- Each cause of ILLEGAL_COMMAND at the ends of its range. -/
theorem witness_illegal_words :
    (given [0]).status.fault = false ∧
      ∀ w ∈ [0x0000000000000000#64, 0x00FFFFFFFFFFFFFF#64, 0x0800000000000000#64,
        0xFFFFFFFFFFFFFFFF#64, 0x0100000000000001#64, 0x0180000000000000#64, 0x0200000100000000#64,
        0x0580000000000000#64, 0x0600000000000010#64, 0x0600000000000080#64, 0x0600000000000200#64,
        0x0680000000000000#64, 0x0701000000000000#64, 0x0780000000000000#64],
      let n := w.toNat
      let op := n / 2 ^ 56
      op = 0 ∨ 8 ≤ op ∨ (op = 1 ∧ n % 2 ^ 56 ≠ 0) ∨
        (2 ≤ op ∧ op ≤ 5 ∧ n / 2 ^ 32 % 2 ^ 24 ≠ 0) ∨
        (op = 6 ∧ (n / 2 ^ 9 % 2 ^ 47 ≠ 0 ∨ n / 2 ^ 4 % 2 ^ 4 ≠ 0)) ∨
        (op = 7 ∧ n / 2 ^ 48 % 2 ^ 8 ≠ 0) := ⟨rfl, by simp⟩

theorem witness_set :
    State.reset.status.fault = false ∧ (faultedGiven []).status.fault = true ∧
      Instr.setRfBw 0 ∈ [Instr.setOffset 0, .setInputRate 0, .setRfBw 0, .setFmDev 0] :=
  ⟨rfl, rfl, by decide⟩

/-- Meets the hypotheses of the forced APPLY, of the selective APPLY with the mask 0xF, of the APPLY
of unchanged keys, and of CONFIG_INVALID's accepting clause in both forms. -/
theorem witness_apply :
    up.status.fault = false ∧ up.configured = true ∧ up.stg.valid = 15 ∧
      up.stg.value.inputRate ≠ 0 ∧ up.stg.value.fmDeviation ≠ 0 ∧ up.cfg.inputRate ≠ 0 ∧
      up.cfg.fmDeviation ≠ 0 ∧ ∀ k : Key, getKey up.stg.value k = getKey up.cfg k :=
  ⟨rfl, rfl, rfl, by decide, by decide, by decide, by decide, fun k => by cases k <;> rfl⟩

/-- A selective APPLY with all four keys changed (R176). -/
theorem witness_selective_apply :
    let s : State := { up with stg := { value := ⟨-1200, 2400, 1, 1200⟩, valid := 15 } }
    s.status.fault = false ∧ s.configured = true ∧ s.stg.value.inputRate ≠ 0 ∧
      s.stg.value.fmDeviation ≠ 0 ∧ ∀ k : Key, getKey s.stg.value k ≠ getKey s.cfg k :=
  ⟨rfl, rfl, by decide, by decide, fun k => by cases k <;> decide⟩

/-- A staged zero rate, and a staged zero deviation (R204). -/
theorem witness_config_invalid :
    let s : State := { up with stg := { value := ⟨0, 0, 2400, 2400⟩, valid := 15 } }
    let t : State := { up with stg := { value := ⟨0, 4800, 2400, 0⟩, valid := 15 } }
    s.status.fault = false ∧ s.stg.valid = 15 ∧ s.configured = true ∧ s.stg.value.inputRate = 0 ∧
      t.stg.valid = 15 ∧ t.configured = true ∧ t.stg.value.fmDeviation = 0 ∧
      configUnusable (selectConfig 0b0010 s.stg.value s.cfg) = true ∧
      configUnusable (selectConfig 0b0010 t.stg.value t.cfg) = false :=
  ⟨rfl, rfl, rfl, rfl, rfl, rfl, rfl, by decide, by decide⟩

/-- APPLY answers a next state (the premise of ApplyTwiceIsApplyOnce). -/
theorem witness_apply_answers (force : Bool) :
    ∃ t, exec (.apply force 0) State.reset = .next t := ⟨_, rfl⟩

/-- A non-forced and a forced APPLY that take effect. -/
theorem witness_apply_takes_effect :
    (∃ t, exec (.apply false 0b1111) up = .next t ∧ t.status.fault = false) ∧
      ∃ t, applyOn ti true 0 (afterForce ti) = .next t ∧ t.status.fault = false :=
  ⟨⟨_, rfl, rfl⟩, _, rfl, rfl⟩

theorem witness_not_configured :
    State.reset.status.fault = false ∧ State.reset.configured = false ∧ State.reset.stg.valid ≠ 15 :=
  ⟨rfl, rfl, by decide⟩

/-- A step that takes a block from no fault to a fault. -/
theorem witness_precise_fault :
    (given [0x0000000000000000#64]).status.fault = false ∧
      ∃ t, step (given [0x0000000000000000#64]) = .next t ∧ t.status.fault = true := ⟨rfl, _, rfl, rfl⟩

/-- Faulted, with a word that is not RESET and with RESET; RESET changes the status. -/
theorem witness_faulted :
    (faultedGiven [0x0000000000000005#64]).status.fault = true ∧
      decode 0x0000000000000005#64 ≠ .ok .reset ∧ decode 0x0100000000000000#64 = .ok .reset ∧
      (0x0000000000000005#64 : Word) ≠ encode .reset ∧
      ∃ t, step (faultedGiven [0x0100000000000000#64]) = .next t ∧
        t.status ≠ (faultedGiven [0x0100000000000000#64]).status :=
  ⟨rfl, by decide, by decide, by decide, _, rfl, by decide⟩

/-- Each clause of the priority order. -/
theorem witness_priority :
    (given [encode (.apply true 0)]).status.fault = false ∧
      ({ State.reset with commands := [encode (.apply true 0)] } : State).stg.valid ≠ 15 ∧
      ({ State.reset with commands := [encode (.sample 0 0)] } : State).configured = false ∧
      (given [encode (.sample 0 0)]).configured = true ∧
      (given [encode (.sample 0 0)]).cfg.inputRate ≠ 0 ∧
      configUnusable (selectConfig 0b0010 ⟨0, 0, 0, 1⟩ tiConfig) = true ∧
      decode 0x0600000000000010#64 = .error (.reservedBitSet 0x06) :=
  ⟨rfl, by decide, rfl, rfl, by decide, by decide, by decide⟩

/-- SAMPLE on a configured block, right after a timing restart. -/
theorem witness_sample :
    up.status.fault = false ∧ up.configured = true ∧ up.cfg.inputRate ≠ 0 ∧ 0 < up.rc.acc ∧
      up.rc.acc = Config.params.internalRate ∧ ([(1000, 0)] : List (BitVec 24 × BitVec 24)) ≠ [] := by
  refine ⟨rfl, rfl, by decide, ?_, rfl, by decide⟩
  have h := Params.internalRate_pos Config.params
  have e : up.rc.acc = Config.params.internalRate := rfl
  omega

/-- A configured block with a zero rate: the state SAMPLE stops in (log 11). -/
theorem witness_zero_rate :
    let s : State := { up with cfg := { tiConfig with inputRate := 0 } }
    s.status.fault = false ∧ s.configured = true ∧ s.cfg.inputRate = 0 ∧
      exec (.sample 0 0) s = .fault .inputRateZero := ⟨rfl, rfl, rfl, rfl⟩

/-- TI's NUM is exact arithmetic. -/
theorem ti_isReference : ti.IsReference := ⟨rfl, fun _ => trivial⟩

/-- The mixer's fourth input (`n = 3`) at offset -1200. -/
theorem witness_mixer :
    let s : State :=
      { afterForce ti with
        cfg := { tiConfig with offset := -1200 }
        derived := { (afterForce ti).derived with ncoStep := 1200 }, ncoAcc := 3600 }
    ti.IsReference ∧ s.cfg.inputRate.toNat ≠ 0 ∧
      s.derived.ncoStep = (-s.cfg.offset.toInt % (s.cfg.inputRate.toNat : Int)).toNat ∧
      s.ncoAcc = 3 * s.derived.ncoStep % s.cfg.inputRate.toNat := ⟨ti_isReference, by decide, by decide, by decide⟩

/-- A quarter turn from a non-zero sample: `f = 1200`. -/
theorem witness_discriminator :
    let s : State := { afterForce ti with discPrev := CVal.ofInts 1000 0 }
    s.derived.discScale = discScaleOf ti s.cfg ∧ s.cfg.fmDeviation ≠ 0 ∧
      ti.complex s.discPrev ≠ 0 ∧ |2 * (1200 : ℝ)| < ti.internalRate ∧
      ti.complex (CVal.ofInts 0 1000) = ti.complex s.discPrev *
        Complex.exp (2 * Real.pi * (1200 : ℝ) / ti.internalRate * Complex.I) := by
  have hr : ti.internalRate = 4800 := rfl
  refine ⟨rfl, by decide, ?_, ?_, ?_⟩
  · simp
  · rw [hr]; norm_num
  · rw [hr]
    have e : (2 * Real.pi * (1200 : ℝ) / (4800 : ℕ) * Complex.I : ℂ) = Real.pi / 2 * Complex.I := by
      push_cast; ring
    rw [e, Complex.exp_pi_div_two_mul_I]
    simp

/-- The corner cases: a zero previous sample, a zero sample, a half turn from a non-zero one. -/
theorem witness_discriminator_corners :
    ti.complex (CVal.ofInts 0 0) = 0 ∧ ti.complex (CVal.ofInts 1000 0) ≠ 0 ∧
      ti.complex (CVal.ofInts (-2000) 0) = -((2 : ℝ) : ℂ) * ti.complex (CVal.ofInts 1000 0) := by
  refine ⟨by simp, by simp, by simp; norm_num⟩

/-- Twice the sample and twice the previous sample. -/
theorem witness_scale_invariance :
    let s : State := { afterForce ti with discPrev := CVal.ofInts 1000 0 }
    let t : State := { afterForce ti with discPrev := CVal.ofInts 2000 0 }
    t.derived.discScale = s.derived.discScale ∧
      ti.complex t.discPrev = ((2 : ℝ) : ℂ) * ti.complex s.discPrev ∧
      ti.complex (CVal.ofInts 0 2000) = ((2 : ℝ) : ℂ) * ti.complex (CVal.ofInts 0 1000) := by
  refine ⟨rfl, by simp; norm_num, by simp; ring⟩

theorem witness_level :
    ti.compare.IsNumber (afterForce ti).level.peak ∧ ti.compare.IsNumber (.rat 4) ∧
      (afterForce ti).level.hist.length = ti.levelN ∧ (afterForce ti).level.idx < ti.levelN :=
  ⟨trivial, trivial, rfl, by decide⟩

/-- The taps start empty and sized, and seven and eight internal samples are below and at a batch. -/
theorem witness_taps :
    (afterForce ti).ana.cnt = 0 ∧ (afterForce ti).ana.buf.length = ti.analyzerBatch ∧
      (afterForce ti).scope.cnt = 0 ∧ (afterForce ti).scope.buf.length = ti.scopeBatch ∧
      (List.replicate 7 zeroCVal).length < ti.scopeBatch ∧
      (List.replicate 8 zeroCVal).length = ti.scopeBatch ∧
      (List.replicate 8 zeroCVal).length = ti.analyzerBatch := by decide +kernel

/-- The two outcomes of an analyzer sample: the buffer filled, and not. -/
theorem witness_analyzer :
    ({ buf := List.replicate 8 0, cnt := 7 } : AnalyzerTap).cnt + 1 = ti.analyzerBatch ∧
      ({ buf := List.replicate 8 0, cnt := 6 } : AnalyzerTap).cnt + 1 ≠ ti.analyzerBatch := by decide

/-- Two states that differ in the level meter, and a command they both perform. -/
theorem witness_same_but_taps :
    let s := afterForce ti
    let t : State := { s with level := { s.level with idx := 3 } }
    SameButTaps s t ∧ s ≠ t ∧ execOn ti (.setOffset 5) s = .next (stageKey .offset 5 s) := by
  refine ⟨rfl, fun h => ?_, rfl⟩
  exact absurd (congrArg (fun s : State => s.level.idx) h) (by decide)

/-- The correlator's two cases: the ring filling, and full after the sample. -/
theorem witness_correlator :
    (afterForce ti).corr.idx < ti.corrLen ∧ (afterForce ti).corr.cnt < ti.corrLen ∧
      (afterForce ti).corr.cnt = 0 ∧ (0 : ℕ) + 1 ≠ ti.corrLen ∧ (3 : ℕ) + 1 = ti.corrLen ∧
      isUpdate ti (.rat 0) (afterForce ti).corr = false ∧
      (toneTable ti ti.tone0).length = ti.corrLen ∧
      (List.replicate 4 (Val.rat 0)).length = ti.corrLen := by decide +kernel

/-- On a fresh block no internal sample is an update. -/
theorem witness_no_update :
    isUpdate ti (discFreq ti (afterForce ti) (CVal.ofInts 1000 0)) (afterForce ti).corr = false := by
  decide +kernel

/-- The windows of the two tones of TI, bins 1 and 2 of `L = 4`, amplitude 1, phase 0: a quarter and
a half turn a sample. -/
theorem witness_matched_filter :
    let ring1 : List Val := [.rat 1, .rat 0, .rat (-1), .rat 0]
    let ring2 : List Val := [.rat 1, .rat (-1), .rat 1, .rat (-1)]
    ti.real (Val.rat 1200) * ti.corrLen = (1 : ℕ) * ti.internalRate ∧
      ti.real (Val.rat 2400) * ti.corrLen = (2 : ℕ) * ti.internalRate ∧
      2 * 2 ≤ ti.corrLen ∧ ring1.length = ti.corrLen ∧ ring2.length = ti.corrLen ∧
      (∀ t < ti.corrLen, ti.real (ring1.getD ((0 + t) % ti.corrLen) (.rat 0)) =
        1 * Real.cos (2 * Real.pi * ti.real (Val.rat 1200) * t / ti.internalRate + 0)) ∧
      (∀ t < ti.corrLen, ti.real (ring2.getD ((0 + t) % ti.corrLen) (.rat 0)) =
        1 * Real.cos (2 * Real.pi * ti.real (Val.rat 2400) * t / ti.internalRate + 0)) := by
  have hL : ti.corrLen = 4 := rfl
  have hr : ti.internalRate = 4800 := rfl
  have c1 : Real.cos (2 * Real.pi * 1200 / 4800) = 0 := by
    rw [show 2 * Real.pi * 1200 / 4800 = Real.pi / 2 by ring]; exact Real.cos_pi_div_two
  have c2 : Real.cos (2 * Real.pi * 1200 * 2 / 4800) = -1 := by
    rw [show 2 * Real.pi * 1200 * 2 / 4800 = Real.pi by ring]; exact Real.cos_pi
  have c3 : Real.cos (2 * Real.pi * 1200 * 3 / 4800) = 0 := by
    rw [show 2 * Real.pi * 1200 * 3 / 4800 = Real.pi / 2 + Real.pi by ring, Real.cos_add_pi,
      Real.cos_pi_div_two, neg_zero]
  have d1 : Real.cos (2 * Real.pi * 2400 / 4800) = -1 := by
    rw [show 2 * Real.pi * 2400 / 4800 = Real.pi by ring]; exact Real.cos_pi
  have d2 : Real.cos (2 * Real.pi * 2400 * 2 / 4800) = 1 := by
    rw [show 2 * Real.pi * 2400 * 2 / 4800 = 2 * Real.pi by ring]; exact Real.cos_two_pi
  have d3 : Real.cos (2 * Real.pi * 2400 * 3 / 4800) = -1 := by
    rw [show 2 * Real.pi * 2400 * 3 / 4800 = Real.pi + 2 * Real.pi by ring, Real.cos_add_two_pi]
    exact Real.cos_pi
  rw [hL, hr]
  refine ⟨by norm_num, by norm_num, by norm_num, rfl, rfl, ?_, ?_⟩ <;> intro t ht <;>
    have h4 : t = 0 ∨ t = 1 ∨ t = 2 ∨ t = 3 := by omega
  · rcases h4 with rfl | rfl | rfl | rfl <;> simp [c1, c2, c3]
  · rcases h4 with rfl | rfl | rfl | rfl <;> simp [d1, d2, d3]

theorem witness_fir :
    (afterForce ti).lpf.hist0.length = ti.lpfN ∧ (afterForce ti).lpf.hist1.length = ti.lpfN :=
  ⟨rfl, rfl⟩

/-- A block whose next decision is 1, with a given last decision and countdown. -/
noncomputable def deciding (prev : Bool) (count : Int) : State :=
  { afterForce ti with
    lpf := { (afterForce ti).lpf with filt1 := .rat 2 }
    sync := { (afterForce ti).sync with samplePrev := prev, syncCount := count } }

/-- The three cases of the bit synchroniser: an edge, a countdown just above 1, and a countdown of
1. -/
theorem witness_bit_sync :
    let bit (s : State) : Bool := decisionBit ti (s.lpf.filt1.minus s.lpf.filt0)
    bit (deciding false 2) ≠ (deciding false 2).sync.samplePrev ∧
      (bit (deciding true 2) = (deciding true 2).sync.samplePrev ∧ 1 < (deciding true 2).sync.syncCount) ∧
      (bit (deciding true 1) = (deciding true 1).sync.samplePrev ∧
        (deciding true 1).sync.syncCount ≤ 1) := by decide +kernel

/-- A run of TI over given internal samples, from a full ring of zeros, the last decision 1 and the
countdown at 1, so that sample 0 is a boundary. -/
noncomputable def runOf (ci : ℕ → CVal) : ℕ → State
  | 0 =>
    { afterForce ti with
      discPrev := CVal.ofInts 1 0
      corr := { (afterForce ti).corr with cnt := 3 }
      sync := { (afterForce ti).sync with samplePrev := true, syncCount := 1 } }
  | n + 1 => process ti (ci n) (runOf ci n)

/-- Samples whose phase steps are 0, 1/4, 0, -1/4, 0, 1/4 turns: the tone of symbol 0 fills the window
from sample 3 on. -/
def edgeSamples : ℕ → CVal
  | 0 => CVal.ofInts 1 0
  | 1 | 2 | 5 => CVal.ofInts 0 1
  | _ => CVal.ofInts 1 0

/-- Without an edge: bits at samples 0 and 4. -/
theorem witness_bit_interval :
    let ci : ℕ → CVal := fun _ => CVal.ofInts 1 0
    let emits (n : ℕ) : Bool := (runOf ci (n + 1)).sync.bitStrobe
    (∀ n, (runOf ci (n + 1)).corr = (process ti (ci n) (runOf ci n)).corr ∧
        (runOf ci (n + 1)).sync = (process ti (ci n) (runOf ci n)).sync) ∧
      emits 0 = true ∧ emits 4 = true ∧ (∀ n < 4, 0 < n → emits n = false) ∧
      ∀ n < 4, (runOf ci (n + 1)).sync.curSample = (runOf ci n).sync.samplePrev :=
  ⟨fun _ => ⟨rfl, rfl⟩, by decide +kernel, by decide +kernel, by decide +kernel, by decide +kernel⟩

/-- With one edge, at sample 3: bits at samples 0 and 5. -/
theorem witness_bit_interval_edge :
    let emits (n : ℕ) : Bool := (runOf edgeSamples (n + 1)).sync.bitStrobe
    let edge (n : ℕ) : Bool :=
      (runOf edgeSamples (n + 1)).sync.curSample != (runOf edgeSamples n).sync.samplePrev
    (∀ n, (runOf edgeSamples (n + 1)).corr =
          (process ti (edgeSamples n) (runOf edgeSamples n)).corr ∧
        (runOf edgeSamples (n + 1)).sync =
          (process ti (edgeSamples n) (runOf edgeSamples n)).sync) ∧
      emits 0 = true ∧ emits 5 = true ∧ (∀ n < 5, 0 < n → emits n = false) ∧ edge 3 = true ∧
      ∀ n < 5, n ≠ 3 → edge n = false :=
  ⟨fun _ => ⟨rfl, rfl⟩, by decide +kernel, by decide +kernel, by decide +kernel, by decide +kernel,
    by decide +kernel⟩

/-- A sample that is a correlator update, and one whose decision is 0. -/
theorem witness_exact_decision :
    isUpdate ti (discFreq ti (runOf edgeSamples 0) (edgeSamples 0)) (runOf edgeSamples 0).corr = true ∧
      (runOf edgeSamples 1).sync.curSample = true ∧ (runOf edgeSamples 4).sync.curSample = false := by
  decide +kernel

/-- A SAMPLE on a block whose peak is a number of the instance. -/
theorem witness_level_peak :
    PeakIsNumber ti (afterForce ti) ∧ (∃ t, execOn ti (.sample 1000 0) (afterForce ti) = .next t) ∧
      Instr.sample 1000 0 ≠ .reset ∧ ∀ mask, Instr.sample 1000 0 ≠ .apply true mask :=
  ⟨trivial, ⟨_, rfl⟩, by decide, fun _ => nofun⟩

/-- The first 16 bits of the sync word 0x1234, in the order received. -/
def syncBits : List Bool :=
  [false, false, true, false, true, true, false, false, false, true, false, false, true, false,
    false, false]

/-- A search that has not found the sync word, and the bit that completes it. -/
theorem witness_search :
    (afterForce ti).frame.gotSOP = false ∧ (afterForce ti).frame.bits = 0 ∧
      (afterForce ti).frame.bitCount = 0 ∧
      (∀ k, ¬IsSyncWord ti ((syncBits.drop k).take 17)) ∧
      IsSyncWord ti (((syncBits ++ [false]).drop (syncBits.length - 16)).take 17) := by
  refine ⟨rfl, rfl, rfl, ?_, ?_⟩
  · rintro k ⟨h, -⟩
    have : syncBits.length = 16 := rfl
    simp only [List.length_take, List.length_drop] at h
    omega
  · refine ⟨by decide, ?_, by decide⟩
    intro i hi
    have h : ∀ i < 16, (((syncBits ++ [false]).drop (syncBits.length - 16)).take 17)[i]? =
        some ((0x1234 : BitVec 16).getLsbD i) := by decide
    exact h i hi

/-- A frame just begun, and 71 and 72 bits. -/
theorem witness_packet :
    let s : State := { afterForce ti with frame := { (afterForce ti).frame with gotSOP := true } }
    s.frame.gotSOP = true ∧ s.frame.bits = 0 ∧ s.frame.bitCount = 0 ∧ s.frame.byteCount = 0 ∧
      s.frame.bytes.length = 8 ∧ (List.replicate 71 true).length < 72 ∧
      (List.replicate 72 true).length = 72 := ⟨rfl, rfl, rfl, rfl, rfl, by decide, by decide⟩

/-- A configured block with a word delivered meets the invariant, and its step answers. -/
theorem witness_invariant :
    Inv Config.params (given [0x0200000000000005#64]) ∧
      ∃ t, step (given [0x0200000000000005#64]) = .next t := by
  refine ⟨?_, _, rfl⟩
  rw [inv_iff]
  have h := PipelineLegal.reset (P := Config.params)
    (rebuildTones Config.params (rebuildKernel (rebuildScale Config.params (rebuildStep
      { State.powerOn Config.params with
        stg := { value := tiConfig, valid := 0b1111 }, cfg := tiConfig, configured := true }))))
    (by simp [toneBuild, toneTable]) (by simp [toneBuild, toneTable]) (by simp [State.powerOn])
    (by simp [State.powerOn])
  have hp := Params.internalRate_pos Config.params
  have hacc : (given [0x0200000000000005#64]).rc.acc = Config.params.internalRate := rfl
  refine ⟨.inr ⟨rfl, rfl⟩, ⟨⟨h.arrays.rcHist, h.arrays.levelHist, h.arrays.ring, h.arrays.lpfHist0,
    h.arrays.lpfHist1, h.arrays.bytes, h.arrays.scopeBuf, h.arrays.anaBuf, h.arrays.toneRef0,
    h.arrays.toneRef1⟩, h.frame, h.levelIdx, h.corrIdx, h.corrCnt, h.syncCount, h.scopeCnt,
    h.anaCnt⟩, ?_, fun _ => ⟨by decide, by decide, ⟨rfl, rfl, rfl, rfl, rfl⟩, by decide, ?_⟩⟩
  · rw [hacc]; exact_mod_cast hp
  · rw [hacc]; exact_mod_cast le_max_right _ _

/-- Two states that differ in a staging register not yet valid, and a command they both perform. -/
theorem witness_same_where_defined :
    let s := State.powerOn ti
    let t : State := { s with stg := { s.stg with value := tiConfig } }
    SameWhereDefined ti s t ∧ s ≠ t ∧ execOn ti (.setRfBw 7) s = .next (stageKey .rfBandwidth 7 s) := by
  refine ⟨⟨rfl, rfl, fun k h => ?_, fun h => ?_, rfl, ⟨by decide +kernel, by decide +kernel⟩, rfl, rfl,
    ⟨by decide +kernel, by decide +kernel⟩, rfl⟩, fun h => ?_, rfl⟩
  · cases k <;> exact absurd h (by decide)
  · exact absurd h (by decide)
  · exact absurd (congrArg (fun s : State => s.stg.value.inputRate) h) (by decide)

/-- Two states whose deviations differ by a factor of 2, right after a force, and a SAMPLE that
answers. -/
theorem witness_deviation :
    let s := afterForce ti
    let t : State := { s with derived := { s.derived with discScale := .rat 2 } }
    (0 : ℝ) < 2 ∧ ScaledDatapath ti.constant 2 s t ∧ ∃ s', sampleOn ti 1000 0 s = .next s' := by
  have h0 : Scaled ti.constant 2 zeroVal zeroVal := by simp [Scaled, zeroVal]
  have hl : ∀ n, List.Forall₂ (Scaled ti.constant 2) (List.replicate n zeroVal) (List.replicate n zeroVal) := by
    intro n
    induction n with
    | zero => exact .nil
    | succ n ih => exact .cons h0 ih
  refine ⟨by norm_num, ⟨rfl, rfl, rfl, rfl, rfl, ⟨rfl, rfl⟩, ?_, rfl, rfl, rfl, hl _, rfl, rfl, h0, h0,
    hl _, hl _, h0, h0, h0, rfl, rfl, rfl, rfl⟩, _, rfl⟩
  have e : (afterForce ti).derived.discScale = .rat (4800 / (2 * 2400)) := rfl
  simp only [Scaled, e]
  norm_num

/-- The two answers a command gives with the outputs and without. -/
theorem witness_consumers :
    exec (.setOffset 5) up = .next (stageKey .offset 5 up) ∧
      exec (.setOffset 5) (forgetOutputs up) = .next (stageKey .offset 5 (forgetOutputs up)) :=
  ⟨rfl, rfl⟩

/-- A system of two instances; the second performs its next command. -/
theorem witness_system :
    let b : Block := { params := ti, state := { afterForce ti with commands := [encode .reset] } }
    ∃ sys', System.stepAt [b, b] 1 = .next sys' ∧ ([b, b] : System)[1]? = some b := ⟨_, rfl, rfl⟩

/-- An order of the four SETs that is not the keys' order. -/
theorem witness_boot :
    [Instr.setFmDev 2400, .setInputRate 4800, .setOffset 0, .setRfBw 2400].Perm
        [.setOffset 0, .setInputRate 4800, .setRfBw 2400, .setFmDev 2400] ∧
      (4800 : BitVec 32) ≠ 0 ∧ (2400 : BitVec 32) ≠ 0 := by decide

/-- A parameter set the check admits, and one with no integer samples per symbol. -/
theorem witness_elaboration :
    (tiRaw default (fun _ => 0)).Admitted ∧
      ¬({ tiRaw default (fun _ => 0) with baud := 1300 } : RawParams).Admitted := by
  decide

/-- The ends of the assembler's ranges. -/
theorem witness_assembler :
    assemble (.setOffset (-(2 ^ 31))) = some [0x0200000080000000#64] ∧
      assemble (.setOffset (2 ^ 31)) = none ∧
      assemble (.setRate (2 ^ 32 - 1)) = some [0x03000000FFFFFFFF#64] ∧
      assemble (.setRate (-1)) = none ∧ assemble (.apply 15) = some [0x060000000000000F#64] ∧
      assemble (.apply 16) = none ∧
      assemble (.sample (-(2 ^ 23)) (2 ^ 23 - 1)) = some [0x07008000007FFFFF#64] ∧
      assemble (.sample 0 (2 ^ 23)) = none := by decide

end Sys2Proof.Machine.Tests
end

section
/-!
PROOF. Elaboration (R7): which parameter sets give an instance, and that `Params.raw`, which reads
the set back from an instance, is the inverse of `elaborate` on the admitted sets.
-/

namespace Sys2Proof

/-- An instance is built from exactly the sets the check admits. -/
theorem exists_elaborate_eq_some_iff (r : RawParams) :
    (∃ P, elaborate r = some P) ↔ r.Admitted := by
  by_cases h : r.Admitted
  · rw [elaborate, dif_pos h]
    exact ⟨fun _ => h, fun _ => ⟨_, rfl⟩⟩
  · rw [elaborate, dif_neg h]
    simp only [h, reduceCtorEq, exists_false]

theorem RawParams.Admitted.of_elaborate {r : RawParams} {P : Params} (h : elaborate r = some P) :
    r.Admitted :=
  (exists_elaborate_eq_some_iff r).1 ⟨P, h⟩

/-- R7: `INTERNAL_RATE = BAUD · L`, so their ratio is `L`. -/
theorem Params.raw_internalRate_div_baud (P : Params) :
    P.raw.internalRate / P.raw.baud = P.corrLen :=
  Nat.mul_div_cancel_left _ P.baud.pos

/-- The set read back from an instance passes the check. -/
theorem Params.raw_admitted (P : Params) : P.raw.Admitted := by
  have hL : 1 ≤ P.corrLen ∧ P.corrLen ≤ 65535 :=
    ⟨Machine.Params.corrLen_pos P, P.corrLenPred.isLt⟩
  rw [← P.raw_internalRate_div_baud] at hL
  exact ⟨Nat.mul_mod_right _ _, hL, P.syncPattern.isLt, Nat.succ_pos _, P.rcHistLen.pos,
    P.levelN.pos, P.scopeBatch.pos, P.analyzerBatch.pos⟩

/-- Elaboration loses nothing of an admitted set: the check makes the division by BAUD exact, the
sync pattern fit its 16 bits and the tap list nonempty. -/
theorem Params.raw_of_elaborate {r : RawParams} {P : Params} (h : elaborate r = some P) :
    P.raw = r := by
  have hr : r.Admitted := .of_elaborate h
  have ⟨hmod, ⟨hL, _⟩, hsync, htaps, _⟩ := hr
  have hrate : r.baud * (r.internalRate / r.baud - 1 + 1) = r.internalRate := by
    rw [Nat.sub_add_cancel hL, Nat.mul_div_cancel' (Nat.dvd_of_mod_eq_zero hmod)]
  have hpattern : (BitVec.ofNat 16 r.syncPattern).toNat = r.syncPattern := by
    rw [BitVec.toNat_ofNat, Nat.mod_eq_of_lt hsync]
  have hlpf : r.lpfTaps.headD (.rat 0) :: r.lpfTaps.tail = r.lpfTaps := by
    obtain ⟨tap, taps, hcons⟩ := List.exists_cons_of_length_pos htaps
    rw [hcons, List.headD_cons, List.tail_cons]
  rw [elaborate, dif_pos hr, Option.some.injEq] at h
  subst h
  simp only [Params.raw, Params.internalRate, Params.corrLen, Params.lpfTaps, PNat.mk_coe, hrate,
    hpattern, hlpf]

/-- Every instance arises: its own set elaborates to it. -/
theorem elaborate_raw (P : Params) : elaborate P.raw = some P := by
  have hL : P.raw.internalRate / P.raw.baud - 1 = P.corrLenPred :=
    congrArg (· - 1) P.raw_internalRate_div_baud
  have hpattern : BitVec.ofNat 16 P.raw.syncPattern = P.syncPattern :=
    (BitVec.ofNat_toNat _ _).trans (BitVec.setWidth_eq _)
  rw [elaborate, dif_pos P.raw_admitted]
  simp only [hL, hpattern]
  rfl

/-- Settles O55: the check decides whether an instance is built, and `Params.raw` inverts
elaboration on both sides. -/
theorem elaborationAdmitsExactlyTheCheckedSets :
    Obligations.ElaborationAdmitsExactlyTheCheckedSets := by
  refine ⟨fun r => ?_, fun _ _ => Params.raw_of_elaborate, elaborate_raw⟩
  rw [exists_elaborate_eq_some_iff, ← List.length_pos_iff,
    ← and_assoc (a := 1 ≤ r.internalRate / r.baud)]
  rfl

end Sys2Proof
end

section
/-!
PROOF. The encoding (R72 to R83): the decoder in arithmetic on the word's number, the word of what a
word decodes to, the match and mask table, and the assembler's examples and pseudo-instructions.
-/

namespace Sys2Proof

/-! ### The decoder in arithmetic on the word -/

/-- The branches of R78 on the word's number (R71, R72). -/
theorem decode_eq_ok_iff_toNat (w : Word) (i : Instr) :
    decode w = .ok i ↔
      (w.toNat / 2 ^ 56 = 1 ∧ w.toNat % 2 ^ 56 = 0 ∧ i = .reset) ∨
      (w.toNat / 2 ^ 56 = 2 ∧ w.toNat / 2 ^ 32 % 2 ^ 24 = 0 ∧ i = .setOffset (valueField w)) ∨
      (w.toNat / 2 ^ 56 = 3 ∧ w.toNat / 2 ^ 32 % 2 ^ 24 = 0 ∧ i = .setInputRate (valueField w)) ∨
      (w.toNat / 2 ^ 56 = 4 ∧ w.toNat / 2 ^ 32 % 2 ^ 24 = 0 ∧ i = .setRfBw (valueField w)) ∨
      (w.toNat / 2 ^ 56 = 5 ∧ w.toNat / 2 ^ 32 % 2 ^ 24 = 0 ∧ i = .setFmDev (valueField w)) ∨
      (w.toNat / 2 ^ 56 = 6 ∧ (w.toNat / 2 ^ 9 % 2 ^ 47 = 0 ∧ w.toNat / 2 ^ 4 % 2 ^ 4 = 0) ∧
        i = .apply (forceField w) (maskField w)) ∨
      (w.toNat / 2 ^ 56 = 7 ∧ w.toNat / 2 ^ 48 % 2 ^ 8 = 0 ∧
        i = .sample (iField w) (qField w)) := by
  simp only [decode_eq_ok_iff, field_eq_zero_iff, ← BitVec.toNat_inj (n := 8), opField_toNat,
    reservedN_toNat, reservedV_toNat, reservedAHigh_toNat, reservedALow_toNat, reservedS_toNat]
  rfl

/-- The value of SET_OFFSET, as two's complement (R73). -/
theorem signedHz_valueField (w : Word) :
    Machine.signedHz (valueField w) = Int.bmod (w.toNat : Int) (2 ^ 32) :=
  BitVec.toInt_extractLsb'

theorem forceField_eq_decide (w : Word) : forceField w = decide (w.toNat / 2 ^ 8 % 2 = 1) := by
  rw [Bool.eq_iff_iff, forceField_iff, decide_eq_true_iff]

theorem forceField_toNat (w : Word) : (forceField w).toNat = w.toNat / 2 ^ 8 % 2 :=
  Nat.toNat_testBit _ _

/-- The components of a SAMPLE, as two's complement (R75). -/
theorem inputSample_fields (w : Word) :
    Machine.inputSample (iField w) (qField w) =
      CVal.ofInts (Int.bmod ((w.toNat / 2 ^ 24 : ℕ) : Int) (2 ^ 24))
        (Int.bmod (w.toNat : Int) (2 ^ 24)) := by
  rw [Machine.inputSample, iField, qField, BitVec.toInt_extractLsb', BitVec.toInt_extractLsb',
    Nat.shiftRight_eq_div_pow, Nat.shiftRight_zero]

/-- Settles O4: each clause is a branch of `decode_eq_ok_iff_toNat`, and a word that decodes is in
one of them. -/
theorem decodeFollowsTheFormats : Obligations.DecodeFollowsTheFormats := by
  intro w n op
  refine ⟨fun hop hr => ?_, fun hop hr => ⟨valueField w, ?_, signedHz_valueField w⟩,
    fun hop hr => ⟨valueField w, ?_, valueField_toNat w⟩,
    fun hop hr => ⟨valueField w, ?_, valueField_toNat w⟩,
    fun hop hr => ⟨valueField w, ?_, valueField_toNat w⟩,
    fun hop hhigh hlow => ⟨maskField w, ?_, maskField_toNat w⟩,
    fun hop hr => ⟨iField w, qField w, ?_, inputSample_fields w⟩,
    fun hN hV hA hS => ?_⟩
  · exact (decode_eq_ok_iff_toNat w _).2 (.inl ⟨hop, hr, rfl⟩)
  · exact (decode_eq_ok_iff_toNat w _).2 (.inr (.inl ⟨hop, hr, rfl⟩))
  · exact (decode_eq_ok_iff_toNat w _).2 (.inr (.inr (.inl ⟨hop, hr, rfl⟩)))
  · exact (decode_eq_ok_iff_toNat w _).2 (.inr (.inr (.inr (.inl ⟨hop, hr, rfl⟩))))
  · exact (decode_eq_ok_iff_toNat w _).2 (.inr (.inr (.inr (.inr (.inl ⟨hop, hr, rfl⟩)))))
  · rw [← forceField_eq_decide]
    exact (decode_eq_ok_iff_toNat w _).2
      (.inr (.inr (.inr (.inr (.inr (.inl ⟨hop, ⟨hhigh, hlow⟩, rfl⟩))))))
  · exact (decode_eq_ok_iff_toNat w _).2
      (.inr (.inr (.inr (.inr (.inr (.inr ⟨hop, hr, rfl⟩))))))
  · cases hd : decode w with
    | error e => exact ⟨e, rfl⟩
    | ok i =>
      obtain ⟨hop, hr, -⟩ | ⟨hop, hr, -⟩ | ⟨hop, hr, -⟩ | ⟨hop, hr, -⟩ | ⟨hop, hr, -⟩ |
        ⟨hop, hr, -⟩ | ⟨hop, hr, -⟩ := (decode_eq_ok_iff_toNat w i).1 hd
      · exact absurd ⟨hop, hr⟩ hN
      · exact absurd ⟨by omega, by omega, hr⟩ hV
      · exact absurd ⟨by omega, by omega, hr⟩ hV
      · exact absurd ⟨by omega, by omega, hr⟩ hV
      · exact absurd ⟨by omega, by omega, hr⟩ hV
      · exact absurd ⟨hop, hr⟩ hA
      · exact absurd ⟨hop, hr⟩ hS

/-! ### The match and mask table -/

/-- A legal word is the word of its command: its reserved bits are zero, so its opcode and operands
are all of it (R79). -/
theorem encode_eq_of_decode_eq_ok {w : Word} {i : Instr} (h : decode w = .ok i) : encode i = w := by
  apply BitVec.eq_of_toNat_eq
  rw [encode_toNat]
  obtain ⟨hop, hr, rfl⟩ | ⟨hop, hr, rfl⟩ | ⟨hop, hr, rfl⟩ | ⟨hop, hr, rfl⟩ | ⟨hop, hr, rfl⟩ |
    ⟨hop, ⟨hhigh, hlow⟩, rfl⟩ | ⟨hop, hr, rfl⟩ := (decode_eq_ok_iff_toNat w i).1 h
  · simp only
    omega
  iterate 4
    · simp only [valueField_toNat]
      omega
  · simp only [forceField_toNat, maskField_toNat]
    omega
  · simp only [iField_toNat, qField_toNat]
    omega

/-- A field that a row's mask covers has the row's value in every word the row identifies. -/
theorem extractLsb'_eq_of_identifies {r : OpcodeRow} {w : Word} {start len : Nat}
    (h : r.identifies w = true) (hmask : r.maskBits.extractLsb' start len = BitVec.allOnes len) :
    w.extractLsb' start len = r.matchBits.extractLsb' start len := by
  have hw : w &&& r.maskBits = r.matchBits := beq_iff_eq.mp h
  rw [← hw, BitVec.extractLsb'_and, hmask, BitVec.and_allOnes]

/-- The masks of R77 cover the opcode and every reserved field, so an identified word is legal. -/
theorem exists_decode_of_identifies {r : OpcodeRow} {w : Word} (hr : r ∈ opcodeTable)
    (h : r.identifies w = true) : ∃ i, decode w = .ok i := by
  have field {start len : Nat} := extractLsb'_eq_of_identifies (start := start) (len := len) h
  simp only [decode_eq_ok_iff]
  simp only [opcodeTable, List.mem_cons, List.not_mem_nil, or_false] at hr
  obtain rfl | rfl | rfl | rfl | rfl | rfl | rfl := hr
  · exact ⟨_, .inl ⟨field rfl, field rfl, rfl⟩⟩
  · exact ⟨_, .inr (.inl ⟨field rfl, field rfl, rfl⟩)⟩
  · exact ⟨_, .inr (.inr (.inl ⟨field rfl, field rfl, rfl⟩))⟩
  · exact ⟨_, .inr (.inr (.inr (.inl ⟨field rfl, field rfl, rfl⟩)))⟩
  · exact ⟨_, .inr (.inr (.inr (.inr (.inl ⟨field rfl, field rfl, rfl⟩))))⟩
  · exact ⟨_, .inr (.inr (.inr (.inr (.inr (.inl ⟨field rfl, ⟨field rfl, field rfl⟩, rfl⟩)))))⟩
  · exact ⟨_, .inr (.inr (.inr (.inr (.inr (.inr ⟨field rfl, field rfl, rfl⟩)))))⟩

/-- Every command's word is identified by its own row alone. -/
theorem encodesToItsRow (i : Instr) : Laws.EncodesToItsRow.Statement i := by
  cases i with
  | reset => exact Laws.EncodesToItsRow.reset
  | setOffset value => exact Laws.EncodesToItsRow.setOffset value
  | setInputRate value => exact Laws.EncodesToItsRow.setInputRate value
  | setRfBw value => exact Laws.EncodesToItsRow.setRfBw value
  | setFmDev value => exact Laws.EncodesToItsRow.setFmDev value
  | apply force mask => exact Laws.EncodesToItsRow.apply force mask
  | sample i q => exact Laws.EncodesToItsRow.sample i q

/-- A legal word is identified by exactly the row of its command. -/
theorem identifies_iff_of_decode_eq_ok {r : OpcodeRow} {w : Word} {i : Instr}
    (hr : r ∈ opcodeTable) (hd : decode w = .ok i) :
    r.identifies w = true ↔ i.mnemonic = r.mnemonic := by
  rw [← encode_eq_of_decode_eq_ok hd, encodesToItsRow i r hr, eq_comm]

/-- Settles O5: a word a row identifies is legal, and a legal word is identified by its command's
row alone. -/
theorem matchAndMaskIdentifyTheCommand : Obligations.MatchAndMaskIdentifyTheCommand := by
  intro r w hr
  constructor
  · intro h
    obtain ⟨i, hd⟩ := exists_decode_of_identifies hr h
    exact ⟨i, hd, (identifies_iff_of_decode_eq_ok hr hd).1 h⟩
  · rintro ⟨i, hd, hm⟩
    exact (identifies_iff_of_decode_eq_ok hr hd).2 hm

/-! ### The assembler -/

/-- Settles O1: the twelve lines of R83 are closed, and the model computes each word and command. -/
theorem specExampleWordsDecode : Obligations.SpecExampleWordsDecode := by
  unfold Obligations.SpecExampleWordsDecode
  decide

/-- Words assembled one list after another, each under its own range check, are those of the joined
list under both checks (R82). -/
theorem bind_map_append_ite (p q : Bool) (xs ys : List Instr) :
    ((if p then some (xs.map encode) else none).bind fun x =>
        (if q then some (ys.map encode) else none).map fun y => x ++ y) =
      if p && q then some ((xs ++ ys).map encode) else none := by
  cases p with
  | false => rfl
  | true =>
    cases q with
    | false => rfl
    | true => exact congrArg some List.map_append.symm

/-- Settles O58: a pseudo-instruction's range check is the conjunction of those of its commands, and
its expansion their concatenation. -/
theorem pseudoInstructionsExpand : Obligations.PseudoInstructionsExpand := by
  intro off rate bw dev both
  have hmask : inU4 1 = true ∧ inU4 2 = true ∧ inU4 4 = true ∧ inU4 8 = true := by decide
  simp only [both, assemble, bind_map_append_ite]
  simp only [AsmCommand.wellFormed, AsmCommand.expand, hmask, Bool.and_true, Bool.and_assoc]
  exact ⟨rfl, rfl, rfl, rfl, rfl⟩

end Sys2Proof
end

section
/-!
PROOF. The front end (R95 to R104): the stages of one internal sample, what MIX multiplies by, and
what SAMPLE answers.
-/

namespace Sys2Proof.Machine

/-! ### The order of the stages -/

/-- Settles O23: `process` is this composition, its parts under the names of the stages. -/
theorem processRunsTheStagesInOrder : Obligations.ProcessRunsTheStagesInOrder :=
  fun _ _ _ => rfl

/-! ### MIX -/

/-- R96: in exact arithmetic MIX turns its input by the phase. -/
theorem complex_mixed {P : Params} (hP : P.IsReference) (x : CVal) (s : State) :
    P.complex (mixed P x s) =
      P.complex x *
        Complex.exp (2 * Real.pi * (s.ncoAcc / s.cfg.inputRate.toNat) * Complex.I) := by
  obtain ⟨hnum, -⟩ := hP
  simp [mixed, hnum, Num.exact, exactMix, unsignedHz]

/-- Two phases congruent modulo the rate are the same rotation. -/
theorem exp_turn_congr {a b : ℤ} {rate : ℕ} (hrate : rate ≠ 0) (h : a ≡ b [ZMOD rate]) :
    Complex.exp (2 * Real.pi * (a / rate) * Complex.I) =
      Complex.exp (2 * Real.pi * (b / rate) * Complex.I) := by
  obtain ⟨turns, rfl⟩ := Int.modEq_iff_add_fac.1 h.symm
  refine Complex.exp_eq_exp_iff_exists_int.2 ⟨turns, ?_⟩
  have : (rate : ℂ) ≠ 0 := Nat.cast_ne_zero.2 hrate
  push_cast
  field_simp

/-- The phase after `n` steps of R25's `ncoStep` is `-offset · n` modulo the rate. -/
theorem ncoAcc_modEq (offset : ℤ) {n rate : ℕ} (hrate : rate ≠ 0) :
    ((n * (-offset % (rate : ℤ)).toNat % rate : ℕ) : ℤ) ≡ -(offset * n) [ZMOD rate] := by
  have hstep : 0 ≤ -offset % (rate : ℤ) := Int.emod_nonneg _ (Nat.cast_ne_zero.2 hrate)
  push_cast [Int.toNat_of_nonneg hstep]
  calc (n : ℤ) * (-offset % rate) % rate
      ≡ n * (-offset % rate) [ZMOD rate] := Int.mod_modEq _ _
    _ ≡ n * -offset [ZMOD rate] := (Int.mod_modEq _ _).mul_left _
    _ = -(offset * n) := by ring

/-- Settles O27: the phase and `-offset · n` are congruent modulo the rate, so they are one rotation;
one more step takes the phase to that of input `n + 1`. -/
theorem mixerShiftsByMinusOffset : Obligations.MixerShiftsByMinusOffset := by
  intro P x s n hP rate hrate hstep hacc
  have hmix := complex_mixed hP x s
  have hphase : (s.ncoAcc : ℤ) ≡ -(s.cfg.offset.toInt * n) [ZMOD rate] := by
    rw [hacc, hstep]
    exact ncoAcc_modEq _ hrate
  have hnext : (advancePhase s).ncoAcc = (s.ncoAcc + s.derived.ncoStep) % rate := rfl
  refine ⟨hmix, ?_, hnext, ?_⟩
  · rw [hmix]
    have hturn := exp_turn_congr hrate hphase
    push_cast at hturn
    rw [hturn]
    congr 2
    ring
  · rw [hnext, hacc, Nat.mod_add_mod, Nat.succ_mul]

/-! ### SAMPLE -/

/-- A function that agrees with `resampleOne` at the configuration of `s` does so over any number of
rounds, since no round changes the configuration. -/
theorem iterate_eq_resampleOne_iterate {P : Params} {f : State → State} {s : State}
    (h : ∀ t : State, t.cfg = s.cfg → f t = resampleOne P t) (k : ℕ) :
    f^[k] s = (resampleOne P)^[k] s := by
  induction k with
  | zero => rfl
  | succ k ih =>
    rw [Function.iterate_succ_apply', Function.iterate_succ_apply', ih,
      h _ (resampleOne_iterate P s k).1]

/-- R231: from a positive `rcAcc` the least number of outputs that takes it above 0 is at most
`ceil(Fo/Fi)`. -/
theorem outputs_le_ceil {acc : ℤ} {fo fi k : ℕ} (hfi : 0 < fi) (hacc : 0 < acc)
    (hleast : ∀ j < k, acc - fo + j * fi ≤ 0) : k ≤ (fo + fi - 1) / fi := by
  cases k with
  | zero => exact Nat.zero_le _
  | succ j =>
    have hj : acc - fo + j * fi ≤ 0 := hleast j (Nat.lt_succ_self j)
    have hlt : j * fi < fo := by zify; omega
    rw [Nat.le_div_iff_mul_le hfi, Nat.succ_mul]
    omega

/-- R95: SAMPLE on a configured block. -/
theorem sampleOn_of_configured (P : Params) (i q : BitVec 24) {s : State}
    (hfault : s.status.fault = false) (hconf : s.configured = true) (hrate : s.cfg.inputRate ≠ 0) :
    sampleOn P i q s = .next (feed P (inputSample i q) s) := by
  simp only [sampleOn, unlessFaulted_of_not hfault, if_pos hconf, if_neg hrate]

/-- R98: SAMPLE on a block that is not configured. -/
theorem sampleOn_of_not_configured (P : Params) (i q : BitVec 24) {s : State}
    (hfault : s.status.fault = false) (hconf : s.configured = false) :
    sampleOn P i q s = .next (raiseFault .notConfigured s) := by
  simp [sampleOn, hfault, hconf]

/-- Settles O22: the cases of SAMPLE, and on a configured block the rounds of the rate converter
from the state MIX and the history update leave. -/
theorem sampleMixesResamplesAndProcesses : Obligations.SampleMixesResamplesAndProcesses := by
  intro i q s
  refine ⟨fun hfault => unlessFaulted_of hfault _, sampleOn_of_not_configured _ i q, ?_⟩
  intro hfault hconf hrate P fi m ready one
  obtain ⟨k, hfeed, hleast, hpos⟩ := feed_eq P (inputSample i q) s hrate
  have hfi : 0 < fi := by bv_omega
  have hone (t : State) (ht : t.cfg = ready.cfg) : one t = resampleOne P t := by
    simp [one, resampleOne, ht, ready, fi, unsignedHz, outputDelay]
  refine ⟨k, hleast, hpos, fun hacc => outputs_le_ceil hfi hacc hleast, ?_⟩
  calc exec (.sample i q) s
      = .next (feed P (inputSample i q) s) := sampleOn_of_configured P i q hfault hconf hrate
    _ = .next ((resampleOne P)^[k] ready) := congrArg _ hfeed
    _ = .next (one^[k] ready) := congrArg _ (iterate_eq_resampleOne_iterate hone k).symm

end Sys2Proof.Machine
end

section
/-!
PROOF. The discriminator (R110 to R116): the frequency it measures, and the decisions, which do not
depend on its scale.
-/

namespace Sys2Proof.Machine

/-! ### DISC -/

/-- R111: DISC in exact arithmetic. -/
theorem real_discFreq {P : Params} (hP : P.IsReference) (s : State) (ci : CVal) :
    P.real (discFreq P s ci) =
      Complex.arg ((starRingEnd ℂ) (P.complex s.discPrev) * P.complex ci) / Real.pi *
        P.real s.derived.discScale := by
  have hdz : P.complex (phaseProduct s.discPrev ci) =
      (starRingEnd ℂ) (P.complex s.discPrev) * P.complex ci := by simp [phaseProduct]
  obtain ⟨hnum, -⟩ := hP
  rw [← hdz]
  simp [discFreq, hnum, Num.exact, exactDisc, CVal.toComplex]

/-- R26: the number `discScale` is. -/
theorem real_discScaleOf (P : Params) (cfg : ChannelConfig) :
    P.real (discScaleOf P cfg) = P.internalRate / (2 * cfg.fmDeviation.toNat) := by
  simp [discScaleOf, unsignedHz]

/-- The phase product of a non-zero number and its rotation has the angle of the rotation. -/
theorem arg_conj_mul_rotation {z : ℂ} (hz : z ≠ 0) {θ : ℝ}
    (hθ : θ ∈ Set.Ioc (-Real.pi) Real.pi) :
    Complex.arg ((starRingEnd ℂ) z * (z * Complex.exp (θ * Complex.I))) = θ := by
  rw [← mul_assoc, mul_comm _ z, Complex.mul_conj, Complex.exp_mul_I,
    Complex.arg_mul_cos_add_sin_mul_I (Complex.normSq_pos.2 hz) hθ]

/-- Settles O28: the angle of the phase product is the phase step, which `discScale` turns into
units of the deviation. -/
theorem discriminatorMeasuresFrequency : Obligations.DiscriminatorMeasuresFrequency := by
  intro P s ci hP hscale hdev
  have hfm := real_discFreq hP s ci
  rw [hscale, real_discScaleOf] at hfm
  refine ⟨hfm, fun f hprev hhalf hstep => ?_⟩
  have hrate : (0 : ℝ) < P.internalRate := Nat.cast_pos.2 (Params.internalRate_pos P)
  have hpi := Real.pi_pos
  have hdev' : (s.cfg.fmDeviation.toNat : ℝ) ≠ 0 := Nat.cast_ne_zero.2 (by bv_omega)
  obtain ⟨hlo, hhi⟩ := abs_lt.1 hhalf
  have hangle : 2 * Real.pi * f / P.internalRate ∈ Set.Ioc (-Real.pi) Real.pi := by
    constructor
    · rw [lt_div_iff₀ hrate]; nlinarith
    · rw [div_le_iff₀ hrate]; nlinarith
  have harg := arg_conj_mul_rotation hprev hangle
  push_cast at harg
  rw [hfm, hstep, harg]
  field_simp

/-! ### Scaled values -/

section Scaled

variable {ρ : Nat → ℝ} {c : ℝ}

theorem scaled_minus {a b a' b' : Val} (ha : Scaled ρ c a a') (hb : Scaled ρ c b b') :
    Scaled ρ c (a.minus b) (a'.minus b') := by
  simp only [Scaled, Val.toReal_minus] at *
  rw [ha, hb, mul_sub]

theorem scaled_set {l l' : List Val} {v v' : Val} (hl : List.Forall₂ (Scaled ρ c) l l')
    (hv : Scaled ρ c v v') (n : Nat) : List.Forall₂ (Scaled ρ c) (l.set n v) (l'.set n v') := by
  induction hl generalizing n with
  | nil => exact .nil
  | cons hhead htail ih =>
    cases n with
    | zero => exact .cons hv htail
    | succ n => exact .cons hhead (ih n)

theorem scaled_pushNewest {l l' : List Val} {v v' : Val} (hl : List.Forall₂ (Scaled ρ c) l l')
    (hv : Scaled ρ c v v') : List.Forall₂ (Scaled ρ c) (pushNewest v l) (pushNewest v' l') := by
  rw [pushNewest, pushNewest, ← hl.length_eq]
  exact List.forall₂_take _ (.cons hv hl)

/-- A slot that is not there reads 0 on both sides. -/
theorem scaled_getD {l l' : List Val} (hl : List.Forall₂ (Scaled ρ c) l l') (n : Nat) :
    Scaled ρ c (l.getD n (.rat 0)) (l'.getD n (.rat 0)) := by
  induction hl generalizing n with
  | nil => simp [Scaled]
  | cons hv _ ih =>
    cases n with
    | zero => exact hv
    | succ n => exact ih n

/-! ### The numeric stages are linear -/

/-- R123: CORR is linear in the ring. -/
theorem complex_exactCorr_scaled {ring ring' : List Val}
    (hring : List.Forall₂ (Scaled ρ c) ring ring') (toneRef : List CVal) (corrIdx : Nat) :
    (exactCorr toneRef ring' corrIdx).toComplex ρ =
      c * (exactCorr toneRef ring corrIdx).toComplex ρ := by
  simp only [exactCorr, CVal.toComplex_sum, List.map_map, ← List.sum_map_mul_left]
  refine congrArg List.sum (List.map_congr_left fun entry _ => ?_)
  have hslot := scaled_getD hring (ringSlot corrIdx entry.2 toneRef.length)
  simp only [Function.comp_apply, CVal.toComplex_scale]
  rw [hslot]
  push_cast
  ring

/-- R123: so are its magnitudes, `c` being positive. -/
theorem scaled_modulus_exactCorr (hc : 0 < c) {ring ring' : List Val}
    (hring : List.Forall₂ (Scaled ρ c) ring ring') (toneRef : List CVal) (corrIdx : Nat) :
    Scaled ρ c (exactCorr toneRef ring corrIdx).modulus
      (exactCorr toneRef ring' corrIdx).modulus := by
  rw [Scaled, CVal.toReal_modulus, CVal.toReal_modulus, complex_exactCorr_scaled hring, norm_mul,
    Complex.norm_of_nonneg hc.le]

/-- R130: LPF is linear in the history. -/
theorem scaled_exactLpf (taps : List Val) {hist hist' : List Val}
    (hhist : List.Forall₂ (Scaled ρ c) hist hist') :
    Scaled ρ c (exactLpf taps hist) (exactLpf taps hist') := by
  simp only [Scaled, exactLpf, Val.toReal_sum]
  induction hhist generalizing taps with
  | nil => simp
  | cons hv _ ih =>
    cases taps with
    | nil => simp
    | cons tap taps =>
      simp only [List.zipWith_cons_cons, List.map_cons, List.sum_cons, Val.toReal_times, ih taps]
      rw [hv]
      ring

end Scaled

/-! ### Every stage keeps the relation -/

section Stages

variable {P : Params} {c : ℝ} {s t : State}

/-- R113, R191: what the meter and the taps write is not compared. -/
theorem ScaledDatapath.of_sameButTaps {s' t' : State} (h : ScaledDatapath P.constant c s t)
    (hs : SameButTaps s s') (ht : SameButTaps t t') : ScaledDatapath P.constant c s' t' := by
  rw [← hs, ← ht]
  exact { h with }

theorem sameButTaps_levelStage (P : Params) (pw : Val) (s : State) :
    SameButTaps s (levelStage P pw s) := rfl

theorem sameButTaps_analyzerStage (P : Params) (fm : Val) (s : State) :
    SameButTaps s (analyzerStage P fm s) := by
  unfold analyzerStage
  split <;> rfl

theorem sameButTaps_scopeStage (P : Params) (ci : CVal) (pw fm : Val) (s : State) :
    SameButTaps s (scopeStage P ci pw fm s) := by
  unfold scopeStage
  split <;> rfl

/-- R111: DISC is linear in its scale. -/
theorem scaled_discFreq (hP : P.IsReference) (h : ScaledDatapath P.constant c s t) (ci : CVal) :
    Scaled P.constant c (discFreq P s ci) (discFreq P t ci) := by
  have hscale : P.real t.derived.discScale = c * P.real s.derived.discScale := h.discScale
  calc P.real (discFreq P t ci)
      = Complex.arg ((starRingEnd ℂ) (P.complex s.discPrev) * P.complex ci) / Real.pi *
          (c * P.real s.derived.discScale) := by rw [real_discFreq hP, ← h.discPrev, hscale]
    _ = c * P.real (discFreq P s ci) := by rw [real_discFreq hP]; ring

theorem clearStrobe_scaled (h : ScaledDatapath P.constant c s t) :
    ScaledDatapath P.constant c (clearStrobe s) (clearStrobe t) :=
  { h with decisions := congrArg (fun b : BitSync => { b with bitStrobe := false }) h.decisions }

theorem storePrev_scaled (h : ScaledDatapath P.constant c s t) (ci : CVal) :
    ScaledDatapath P.constant c (storePrev ci s) (storePrev ci t) :=
  { h with discPrev := rfl }

/-- R124: which internal samples are updates depends on the fill counter alone. -/
theorem isUpdate_congr (P : Params) {a b : Correlator} (hcnt : a.cnt = b.cnt) (fm fm' : Val) :
    isUpdate P fm a = isUpdate P fm' b := by
  simp [isUpdate, ringPush, hcnt]

/-- R122, R123: CORR keeps the relation, whether the ring is full or not. -/
theorem corrStage_scaled (hP : P.IsReference) (hc : 0 < c) (h : ScaledDatapath P.constant c s t)
    {fm fm' : Val} (hfm : Scaled P.constant c fm fm') :
    ScaledDatapath P.constant c (corrStage P fm s) (corrStage P fm' t) := by
  have hring : List.Forall₂ (Scaled P.constant c) (ringPush P fm s.corr).ring
      (ringPush P fm' t.corr).ring := by
    simp only [ringPush, h.corrIdx]
    exact scaled_set h.ring hfm _
  have hidx : (ringPush P fm s.corr).idx = (ringPush P fm' t.corr).idx := by
    simp only [ringPush, h.corrIdx]
  have hcnt : (ringPush P fm s.corr).cnt = (ringPush P fm' t.corr).cnt := by
    simp only [ringPush, h.corrCnt]
  have hmag (toneRef : List CVal) : Scaled P.constant c
      (P.num.corrFn toneRef (ringPush P fm s.corr).ring (ringPush P fm s.corr).idx).modulus
      (P.num.corrFn toneRef (ringPush P fm' t.corr).ring (ringPush P fm' t.corr).idx).modulus := by
    rw [hP.1, hidx]
    exact scaled_modulus_exactCorr hc hring toneRef _
  obtain ⟨htone0, htone1⟩ := h.tones
  unfold corrStage corrUpdate
  rw [isUpdate_congr P h.corrCnt fm fm']
  split
  · exact
      { h with
        ring := hring
        corrIdx := hidx
        corrCnt := congrArg (· - 1) hcnt
        mag0 := by
          simp only [correlate, htone0]
          exact hmag _
        mag1 := by
          simp only [correlate, htone1]
          exact hmag _ }
  · exact { h with ring := hring, corrIdx := hidx, corrCnt := hcnt }

/-- R130: LPF keeps the relation. -/
theorem lpfStage_scaled (hP : P.IsReference) (h : ScaledDatapath P.constant c s t) :
    ScaledDatapath P.constant c (lpfStage P s) (lpfStage P t) := by
  obtain ⟨hnum, -⟩ := hP
  have hist0 := scaled_pushNewest h.hist0 h.mag0
  have hist1 := scaled_pushNewest h.hist1 h.mag1
  have hlpf : P.num.lpfFn = exactLpf := by rw [hnum]; rfl
  exact
    { h with
      hist0
      hist1
      filt0 := by
        simp only [lpfStage, lpfUpdate, hlpf]
        exact scaled_exactLpf _ hist0
      filt1 := by
        simp only [lpfStage, lpfUpdate, hlpf]
        exact scaled_exactLpf _ hist1 }

/-- R141: a positive factor keeps the sign, so the decision. -/
theorem decisionBit_scaled (hP : P.IsReference) (hc : 0 < c) {v w : Val}
    (h : Scaled P.constant c v w) : decisionBit P v = decisionBit P w := by
  have hsign : 0 ≤ P.real v ↔ 0 ≤ P.real w := by
    rw [show P.real w = c * P.real v from h, mul_nonneg_iff_of_pos_left hc]
  rw [Bool.eq_iff_iff, decisionBit_iff P (hP.2 v), decisionBit_iff P (hP.2 w), hsign]

/-- R150, R158: FRAME on the same bit keeps the relation, and emits the same packet. -/
theorem frameStage_scaled (h : ScaledDatapath P.constant c s t) (bit : Bool) :
    ScaledDatapath P.constant c (frameStage P bit s) (frameStage P bit t) := by
  have hemit : ScaledDatapath P.constant c (emitStage P s) (emitStage P t) :=
    { h with
      tsDraws := by simp [emitStage_eq, h.tsDraws]
      packets := by simp [emitStage_eq, h.packets, h.tsDraws, h.frame] }
  unfold frameStage
  rw [h.frame]
  split
  · exact { hemit with frame := rfl }
  · exact { h with frame := rfl }

/-- R142 to R144: of the synchroniser and the decision variable, BITSYNC reads the decision bits and
the countdown. -/
theorem syncUpdate_congr {b b' : BitSync} {v w : Val} (hb : { b with diff := b'.diff } = b')
    (hbit : decisionBit P v = decisionBit P w) :
    { syncUpdate P v b with diff := w } = syncUpdate P w b' := by
  rw [← hb]
  simp only [syncUpdate, hbit]
  rfl

/-- R141 to R144: the same decision, so the same bit to FRAME or none. -/
theorem bitSyncStage_scaled (hP : P.IsReference) (hc : 0 < c)
    (h : ScaledDatapath P.constant c s t) :
    ScaledDatapath P.constant c (bitSyncStage P s) (bitSyncStage P t) := by
  have hdiff : Scaled P.constant c (decisionDiff s.lpf) (decisionDiff t.lpf) :=
    scaled_minus h.filt1 h.filt0
  have hbit := decisionBit_scaled hP hc hdiff
  have hsynced : ScaledDatapath P.constant c
      { s with sync := syncUpdate P (decisionDiff s.lpf) s.sync }
      { t with sync := syncUpdate P (decisionDiff t.lpf) t.sync } :=
    { h with
      diff := hdiff
      decisions := syncUpdate_congr h.decisions hbit }
  have hboundary (bit : Bool) : isBoundary bit s.sync = isBoundary bit t.sync := by
    rw [← h.decisions]
    rfl
  unfold bitSyncStage
  simp only [hbit, hboundary]
  split
  · exact frameStage_scaled hsynced _
  · exact hsynced

/-- R104: one internal sample keeps the relation. -/
theorem process_scaled (hP : P.IsReference) (hc : 0 < c) (h : ScaledDatapath P.constant c s t)
    (ci : CVal) : ScaledDatapath P.constant c (process P ci s) (process P ci t) := by
  have hfm := scaled_discFreq hP h ci
  have hmeter := (storePrev_scaled (clearStrobe_scaled h) ci).of_sameButTaps
    (sameButTaps_levelStage P (powerEstimate ci) _) (sameButTaps_levelStage P (powerEstimate ci) _)
  have htapped := hmeter.of_sameButTaps
    (sameButTaps_analyzerStage P (discFreq P s ci) _)
    (sameButTaps_analyzerStage P (discFreq P t ci) _)
  have hcorr := corrStage_scaled hP hc htapped hfm
  refine ScaledDatapath.of_sameButTaps ?_ (sameButTaps_scopeStage ..) (sameButTaps_scopeStage ..)
  rw [isUpdate_congr P htapped.corrCnt (discFreq P s ci) (discFreq P t ci)]
  split
  · exact bitSyncStage_scaled hP hc (lpfStage_scaled hP hcorr)
  · exact hcorr

/-- R100: the same output instant, so the same internal sample. -/
theorem resampleOne_scaled (hP : P.IsReference) (hc : 0 < c)
    (h : ScaledDatapath P.constant c s t) :
    ScaledDatapath P.constant c (resampleOne P s) (resampleOne P t) := by
  have hci : P.num.rcFn s.derived.rcKernelCfg s.rc.hist (outputDelay P s) =
      P.num.rcFn t.derived.rcKernelCfg t.rc.hist (outputDelay P t) := by
    simp only [outputDelay, h.kernel, h.rc]
  unfold resampleOne
  rw [hci]
  have hdone := process_scaled hP hc h
    (P.num.rcFn t.derived.rcKernelCfg t.rc.hist (outputDelay P t))
  exact { hdone with rc := by simp only [hdone.rc, hdone.inputRate] }

/-- R100: the loop goes round as often on both sides. -/
theorem resampleLoop_scaled (hP : P.IsReference) (hc : 0 < c) (n : Nat)
    (h : ScaledDatapath P.constant c s t) :
    ScaledDatapath P.constant c (resampleLoop P n s) (resampleLoop P n t) := by
  induction n generalizing s t with
  | zero => exact h
  | succ n ih =>
    simp only [resampleLoop, h.rc]
    split
    · exact ih (resampleOne_scaled hP hc h)
    · exact h

/-- R95 to R101: MIX and the history update are the same on both sides; the loop keeps the
relation. -/
theorem feed_scaled (hP : P.IsReference) (hc : 0 < c) (h : ScaledDatapath P.constant c s t)
    (x : CVal) : ScaledDatapath P.constant c (feed P x s) (feed P x t) := by
  have hmixed : mixed P x s = mixed P x t := by simp only [mixed, h.ncoAcc, h.inputRate]
  have hready : ScaledDatapath P.constant c
      (consumeInput P (pushMixed (mixed P x t) (advancePhase s)))
      (consumeInput P (pushMixed (mixed P x t) (advancePhase t))) :=
    { h with
      ncoAcc := by simp [h.ncoAcc, h.ncoStep, h.inputRate]
      rc := by simp [h.rc] }
  simp only [feed, resample, hmixed, hready.rc, hready.inputRate]
  exact resampleLoop_scaled hP hc _ hready

end Stages

/-- Settles O51: a command the block ignores or refuses keeps the relation trivially; on a
configured block every stage keeps it. -/
theorem decisionsIgnoreTheDeviation : Obligations.DecisionsIgnoreTheDeviation := by
  intro P c i q s t s' hP hc h hs
  obtain ⟨hfault, e⟩ | ⟨hfault, hconf, e⟩ | ⟨-, -, -, e⟩ | ⟨hfault, hconf, hrate, e⟩ :=
    sampleOn_cases P i q s <;> rw [hs] at e
  · cases e
    exact ⟨t, unlessFaulted_of (h.status ▸ hfault) _, h⟩
  · cases e
    exact ⟨_, sampleOn_of_not_configured P i q (h.status ▸ hfault) (h.configured ▸ hconf),
      { h with status := rfl }⟩
  · cases e
  · cases e
    exact ⟨_, sampleOn_of_configured P i q (h.status ▸ hfault) (h.configured ▸ hconf)
      (h.inputRate ▸ hrate), feed_scaled hP hc h _⟩

end Sys2Proof.Machine
end

section
/-!
PROOF. The correlator and the smoothing filters (R120 to R130): one step of the ring, CORR and LPF
as sums in exact arithmetic, and the matched-filter law.
-/

namespace Sys2Proof.Machine

/-! ### One step -/

/-- Settles O37: the two cases of CORR, an update being exactly a counter that has reached `L`. -/
theorem correlatorStep : Obligations.CorrelatorStep := by
  intro P fm s ring idx cnt
  have hL := Params.corrLen_pos P
  have hupdate : isUpdate P fm s.corr = true ↔ P.corrLen ≤ cnt := decide_eq_true_iff
  refine ⟨?_, hupdate, fun hcnt => ⟨min_eq_left hcnt, ?_⟩⟩
  · show corrUpdate P s.derived fm s.corr = _
    obtain ⟨h, e⟩ | ⟨h, e⟩ := corrUpdate_cases P s.derived fm s.corr
    · rw [e, if_pos (hupdate.1 h)]
      rfl
    · rw [e, if_neg (mt hupdate.2 (Bool.eq_false_iff.1 h))]
      rfl
  · show (corrUpdate P s.derived fm s.corr).cnt < P.corrLen
    rw [corrUpdate_cnt]
    omega

/-! ### CORR and LPF as sums -/

/-- The slot of tone entry `i`, without negative numbers. -/
theorem ringSlot_eq {idx i len : ℕ} (hi : i ≤ len) :
    ringSlot idx i len = (idx + len - i) % len := by
  have hshift : ((idx + len - i : ℕ) : ℤ) = (idx : ℤ) - i + len := by omega
  rw [ringSlot, ← Int.add_emod_right, ← hshift, ← Int.natCast_emod, Int.toNat_natCast]

/-- R121: CORR in exact arithmetic, over the entries of the table. -/
theorem complex_exactCorr (ρ : ℕ → ℝ) (tone : List CVal) (ring : List Val) (idx : ℕ) :
    (exactCorr tone ring idx).toComplex ρ =
      ∑ i ∈ Finset.range tone.length, (tone.getD i ⟨.rat 0, .rat 0⟩).toComplex ρ *
        ((ring.getD ((idx + tone.length - i) % tone.length) (.rat 0)).toReal ρ : ℂ) := by
  rw [exactCorr, CVal.toComplex_sum, Finset.sum_range, ← List.sum_ofFn]
  congr 1
  refine List.ext_getElem (by simp) fun i hi _ => ?_
  have hi : i < tone.length := by simpa using hi
  simp [ringSlot_eq hi.le]

/-- R130: LPF in exact arithmetic, over the taps; a history slot that is not there reads 0. -/
theorem real_exactLpf (ρ : ℕ → ℝ) (taps hist : List Val) :
    (exactLpf taps hist).toReal ρ = ∑ a ∈ Finset.range taps.length,
      (taps.getD a (.rat 0)).toReal ρ * (hist.getD a (.rat 0)).toReal ρ := by
  rw [exactLpf, Val.toReal_sum]
  induction taps generalizing hist with
  | nil => rfl
  | cons tap taps ih =>
    cases hist with
    | nil => simp
    | cons v hist =>
      rw [List.length_cons, Finset.sum_range_succ', add_comm, List.zipWith_cons_cons, List.map_cons,
        List.sum_cons, ih, Val.toReal_times]
      rfl

/-- R123: the magnitude is the Euclidean modulus. -/
theorem real_modulus (P : Params) (z : CVal) : P.real z.modulus = ‖P.complex z‖ :=
  CVal.toReal_modulus _ z

/-- The reference's CORR, over a table of `L` entries. -/
theorem complex_corrFn {P : Params} (hP : P.IsReference) {tone : List CVal}
    (htone : tone.length = P.corrLen) (ring : List Val) (idx : ℕ) :
    P.complex (P.num.corrFn tone ring idx) =
      ∑ i ∈ Finset.range P.corrLen, P.complex (tone.getD i ⟨.rat 0, .rat 0⟩) *
        (P.real (ring.getD ((idx + P.corrLen - i) % P.corrLen) (.rat 0)) : ℂ) := by
  obtain ⟨hnum, -⟩ := hP
  rw [hnum, ← htone]
  exact complex_exactCorr _ tone ring idx

/-- The reference's LPF at LPF_TAPS. -/
theorem real_lpfFn {P : Params} (hP : P.IsReference) (hist : List Val) :
    P.real (P.num.lpfFn P.lpfTaps hist) = ∑ a ∈ Finset.range P.lpfN,
      P.real (P.lpfTaps.getD a (.rat 0)) * P.real (hist.getD a (.rat 0)) := by
  obtain ⟨hnum, -⟩ := hP
  rw [hnum]
  exact real_exactLpf _ P.lpfTaps hist

/-- Settles O38: entry 0 reads the slot `corrIdx`, entry `i >= 1` the slot `corrIdx - i`. -/
theorem correlatorPairsLiterally : Obligations.CorrelatorPairsLiterally := by
  intro P tone ring idx hP htone _ _ x ref c
  have hL := Params.corrLen_pos P
  have hsum : P.complex (P.num.corrFn tone ring idx) = c := by
    rw [complex_corrFn hP htone, Finset.sum_range_eq_add_Ico _ hL]
    have holdest : idx + P.corrLen - 1 - (P.corrLen - 1) = idx := by omega
    refine congrArg₂ _ ?_ (Finset.sum_congr rfl fun i hi => ?_)
    · simp only [x, ref, holdest, Nat.sub_zero, Nat.add_mod_right]
    · have hage : idx + P.corrLen - 1 - (i - 1) = idx + P.corrLen - i := by
        have := Finset.mem_Ico.1 hi
        omega
      simp only [x, ref, hage]
  exact ⟨hsum, by rw [real_modulus, hsum]⟩

/-- A shift of a history that holds something: the newest in front, the oldest dropped. -/
theorem pushNewest_eq_cons_dropLast {α : Type} (a : α) {l : List α} (hl : 0 < l.length) :
    pushNewest a l = a :: l.dropLast := by
  rw [← List.dropLast_cons_of_ne_nil (List.ne_nil_of_length_pos hl), List.dropLast_eq_take]
  rfl

/-- Settles O41: both histories shift, and LPF is one sum over the shifted history. -/
theorem smoothingFiltersAreFir : Obligations.SmoothingFiltersAreFir := by
  intro P s hP hlen0 hlen1 f
  have hN : 0 < P.lpfN := Nat.succ_pos _
  exact ⟨pushNewest_eq_cons_dropLast _ (hlen0 ▸ hN), pushNewest_eq_cons_dropLast _ (hlen1 ▸ hN),
    real_lpfFn hP _, real_lpfFn hP _⟩

/-! ### The matched-filter law -/

/-- The `n` samples of a tone that turns `k/n` a sample add up to 0, unless it stands still. -/
theorem sum_exp_turn {n : ℕ} (hn : n ≠ 0) (k : ℤ) :
    ∑ i ∈ Finset.range n, Complex.exp (2 * Real.pi * (k * i / n) * Complex.I) =
      if (n : ℤ) ∣ k then (n : ℂ) else 0 := by
  have hζ := Complex.isPrimitiveRoot_exp n hn
  set ζ := Complex.exp (2 * Real.pi * Complex.I / n)
  have hpow (i : ℕ) : Complex.exp (2 * Real.pi * (k * i / n) * Complex.I) = (ζ ^ k) ^ i := by
    rw [← Complex.exp_int_mul, ← Complex.exp_nat_mul]
    congr 1
    ring
  simp only [hpow]
  split_ifs with hdvd
  · simp [(hζ.zpow_eq_one_iff_dvd k).2 hdvd]
  · have hne : 1 - ζ ^ k ≠ 0 := sub_ne_zero.2 fun h => hdvd ((hζ.zpow_eq_one_iff_dvd k).1 h.symm)
    have hfull : (ζ ^ k) ^ n = 1 := by
      rw [← zpow_natCast, zpow_comm, zpow_natCast, hζ.pow_eq_one, one_zpow]
    have hgeom := mul_neg_geom_sum (ζ ^ k) n
    rw [hfull, sub_self] at hgeom
    exact (mul_eq_zero.1 hgeom).resolve_left hne

/-- A real sinusoid turned back by a phasor: its two halves, at the difference and at the sum. -/
theorem exp_turn_mul_cos (x y θ : ℂ) :
    Complex.exp (2 * Real.pi * x * Complex.I) * Complex.cos (θ - 2 * Real.pi * y) =
      (Complex.exp (θ * Complex.I) * Complex.exp (2 * Real.pi * (x - y) * Complex.I) +
        Complex.exp (-θ * Complex.I) * Complex.exp (2 * Real.pi * (x + y) * Complex.I)) / 2 := by
  rw [Complex.cos, mul_div_assoc', mul_add, ← Complex.exp_add, ← Complex.exp_add,
    ← Complex.exp_add, ← Complex.exp_add]
  ring_nf

/-- The correlation of a sinusoid at bin `k` of `n`, read backwards, with the tone at bin `b`. -/
theorem sum_exp_turn_mul_cos {n : ℕ} (hn : n ≠ 0) (b k : ℕ) (a θ : ℝ) :
    ∑ i ∈ Finset.range n, Complex.exp (2 * Real.pi * (b * i / n) * Complex.I) *
        (a * Complex.cos (θ - 2 * Real.pi * (k * i / n))) =
      a / 2 * (Complex.exp (θ * Complex.I) * (if (n : ℤ) ∣ b - k then (n : ℂ) else 0) +
        Complex.exp (-θ * Complex.I) * (if (n : ℤ) ∣ b + k then (n : ℂ) else 0)) := by
  rw [← sum_exp_turn hn, ← sum_exp_turn hn, Finset.mul_sum, Finset.mul_sum,
    ← Finset.sum_add_distrib, Finset.mul_sum]
  refine Finset.sum_congr rfl fun i _ => ?_
  rw [mul_left_comm, exp_turn_mul_cos, ← sub_div, ← add_div, ← sub_mul, ← add_mul]
  push_cast
  ring

/-- A tone at bin `b` of `L` turns `b/L` a sample. -/
theorem tone_div_internalRate {P : Params} {f : Val} {b : ℕ}
    (hf : P.real f * P.corrLen = b * P.internalRate) :
    P.real f / P.internalRate = (b / P.corrLen : ℝ) := by
  have hL : (P.corrLen : ℝ) ≠ 0 := Nat.cast_ne_zero.2 (Params.corrLen_pos P).ne'
  have hR : (P.internalRate : ℝ) ≠ 0 := Nat.cast_ne_zero.2 (Params.internalRate_pos P).ne'
  rwa [div_eq_div_iff hR hL]

/-- R120: the table entries of a tone at bin `b`. -/
theorem complex_toneTable_getD {P : Params} {f : Val} {b : ℕ}
    (hf : P.real f * P.corrLen = b * P.internalRate) {i : ℕ} (hi : i < P.corrLen) :
    P.complex ((toneTable P f).getD i ⟨.rat 0, .rat 0⟩) =
      Complex.exp (2 * Real.pi * (b * i / P.corrLen) * Complex.I) := by
  have hturn : P.real f * (i / P.internalRate) = (b * i / P.corrLen : ℝ) := by
    rw [mul_div_left_comm, tone_div_internalRate hf]
    ring
  have hentry : P.complex ((toneTable P f).getD i ⟨.rat 0, .rat 0⟩) =
      Complex.exp (2 * Real.pi * (P.real f * (i / P.internalRate) : ℝ) * Complex.I) := by
    simp [toneTable, hi, toneEntry]
  rw [hentry, hturn]
  push_cast
  rfl

/-- The ring holds a sinusoid of the tone `f`, amplitude `a` and phase `θ` at the oldest sample
(R127). -/
def HoldsSinusoid (P : Params) (f : Val) (ring : List Val) (idx : ℕ) (a θ : ℝ) : Prop :=
  ∀ t < P.corrLen, P.real (ring.getD ((idx + t) % P.corrLen) (.rat 0)) =
    a * Real.cos (2 * Real.pi * P.real f * t / P.internalRate + θ)

/-- The window is a whole number of periods of a tone on a bin, so entry `i` of the table meets the
sinusoid `i` samples before the oldest one. -/
theorem HoldsSinusoid.real_getD_back {P : Params} {f : Val} {b : ℕ} {ring : List Val} {idx : ℕ}
    {a θ : ℝ} (h : HoldsSinusoid P f ring idx a θ)
    (hf : P.real f * P.corrLen = b * P.internalRate) {i : ℕ} (hi : i < P.corrLen) :
    P.real (ring.getD ((idx + P.corrLen - i) % P.corrLen) (.rat 0)) =
      a * Real.cos (θ - 2 * Real.pi * (b * i / P.corrLen)) := by
  obtain rfl | hpos := Nat.eq_zero_or_pos i
  · simpa using h 0 hi
  · have hL : (P.corrLen : ℝ) ≠ 0 := Nat.cast_ne_zero.2 (by omega)
    have hphase : 2 * Real.pi * P.real f * (P.corrLen - i : ℕ) / P.internalRate + θ =
        θ - 2 * Real.pi * (b * i / P.corrLen) + b * (2 * Real.pi) := by
      rw [mul_assoc, mul_div_assoc, mul_div_right_comm, tone_div_internalRate hf,
        Nat.cast_sub hi.le]
      field_simp
      ring
    rw [Nat.add_sub_assoc hi.le, h _ (by omega), hphase, Real.cos_add_nat_mul_two_pi]

/-- The reference's CORR of the tone at bin `b` on a window that holds the tone at bin `k`. -/
theorem HoldsSinusoid.complex_corrFn {P : Params} {f g : Val} {b k : ℕ} {ring : List Val} {idx : ℕ}
    {a θ : ℝ} (h : HoldsSinusoid P g ring idx a θ) (hP : P.IsReference)
    (hf : P.real f * P.corrLen = b * P.internalRate)
    (hg : P.real g * P.corrLen = k * P.internalRate) :
    P.complex (P.num.corrFn (toneTable P f) ring idx) =
      a / 2 *
        (Complex.exp (θ * Complex.I) * (if (P.corrLen : ℤ) ∣ b - k then (P.corrLen : ℂ) else 0) +
          Complex.exp (-θ * Complex.I) *
            (if (P.corrLen : ℤ) ∣ b + k then (P.corrLen : ℂ) else 0)) := by
  rw [Machine.complex_corrFn hP (by simp [toneTable]),
    ← sum_exp_turn_mul_cos (Params.corrLen_pos P).ne']
  refine Finset.sum_congr rfl fun i hi => ?_
  have hi := Finset.mem_range.1 hi
  rw [complex_toneTable_getD hf hi, h.real_getD_back hg hi]
  push_cast
  rfl

/-- The two halves of a sinusoid that both stand still add up to its cosine. -/
theorem halves_eq_cos (a θ : ℝ) (n : ℕ) :
    (a / 2 * (Complex.exp (θ * Complex.I) * n + Complex.exp (-θ * Complex.I) * n) : ℂ) =
      (a * n * Real.cos θ : ℝ) := by
  push_cast [Complex.cos]
  ring

/-- Settles O40: for different bins both halves of the sinusoid turn, so both sums vanish; on the
own bin the difference stands still, and at `L/2` the sum does too. -/
theorem matchedFilterLaw : Obligations.MatchedFilterLaw := by
  intro P f0 f1 b0 b1 ring idx a θ hP _ _ ha hf0 hf1 hb0 hb0' hb1 hb1' hne hwindow
  have hsin : HoldsSinusoid P f1 ring idx a θ := hwindow
  have hsum (b : ℕ) (h1 : 1 ≤ b) (h2 : b + b1 < P.corrLen) : ¬(P.corrLen : ℤ) ∣ b + b1 :=
    fun h => absurd (Int.le_of_dvd (by omega) h) (by omega)
  rw [real_modulus, real_modulus, hsin.complex_corrFn hP hf0 hf1,
    hsin.complex_corrFn hP hf1 hf1]
  constructor
  · have hdiff : ¬(P.corrLen : ℤ) ∣ b0 - b1 := fun h =>
      absurd (Int.eq_zero_of_abs_lt_dvd h (by rw [abs_lt]; omega)) (by omega)
    simp [hdiff, hsum b0 hb0 (by omega)]
  · have hself : (P.corrLen : ℤ) ∣ b1 - b1 := by simp
    rw [if_pos hself]
    obtain hlt | hhalf := hb1'.lt_or_eq
    · have hamp : ‖(a / 2 : ℂ)‖ = a / 2 := by simp [abs_of_pos ha]
      rw [if_neg (hsum b1 hb1 (by omega)), if_pos hlt, mul_zero, add_zero, norm_mul, norm_mul,
        Complex.norm_exp_ofReal_mul_I, Complex.norm_natCast, hamp]
      ring
    · have hdvd : (P.corrLen : ℤ) ∣ b1 + b1 := ⟨1, by omega⟩
      have hamp : 0 ≤ a * P.corrLen := by positivity
      rw [if_pos hdvd, if_neg hhalf.not_lt, halves_eq_cos, Complex.norm_real, Real.norm_eq_abs,
        abs_mul, abs_of_nonneg hamp]

end Sys2Proof.Machine
end

section
/-!
PROOF. The frame assembler's search (R151 to R154, R160, R161): the accumulator holds a list of
received bits, a shift-in appends to the list, and the 17-bit test reads it as R160's sync word.
-/

namespace Sys2Proof.Machine

/-! ### The accumulator as a list of bits -/

/-- R52: the number a list of bits writes is that of the library's little-endian bit vector. -/
theorem lsbFirst_eq_toNat (w : List Bool) : lsbFirst w = (BitVec.ofBoolListLE w).toNat := by
  induction w with
  | nil => rfl
  | cons b w ih =>
    rw [lsbFirst, ih, BitVec.ofBoolListLE, BitVec.toNat_concat]
    omega

/-- The bits of an accumulator that holds `w`; a bit not received reads 0. -/
theorem getLsbD_ofNat_lsbFirst {n i : ℕ} (w : List Bool) (hi : i < n) :
    (BitVec.ofNat n (lsbFirst w)).getLsbD i = w.getD i false := by
  rw [BitVec.getLsbD_ofNat, lsbFirst_eq_toNat, ← BitVec.getLsbD, BitVec.getLsbD_ofBoolListLE,
    decide_eq_true hi, Bool.true_and]

/-- The assembler `f` with `w` in its accumulator, the first bit least significant. -/
def Framer.holding (f : Framer) (w : List Bool) : Framer :=
  { f with bits := BitVec.ofNat 32 (lsbFirst w), bitCount := w.length }

/-- R151: while there is room, a shift-in appends the bit. -/
theorem shiftIn_holding (b : Bool) (f : Framer) {w : List Bool} (hw : w.length < 32) :
    shiftIn b (f.holding w) = f.holding (w ++ [b]) := by
  have hbits : BitVec.ofNat 32 (lsbFirst w) ||| ((BitVec.ofBool b).setWidth 32 <<< w.length) =
      BitVec.ofNat 32 (lsbFirst (w ++ [b])) := by
    refine BitVec.eq_of_getLsbD_eq fun i hi => ?_
    rw [BitVec.getLsbD_or, getLsbD_ofNat_lsbFirst w hi, getLsbD_ofNat_lsbFirst _ hi]
    obtain hlt | rfl | hgt := Nat.lt_trichotomy i w.length
    · simp [hlt, List.getElem?_append_left]
    · simp [hw]
    · have hpast : (w ++ [b]).length ≤ i := by simpa using hgt
      have hzero : i - w.length ≠ 0 := by omega
      simp [hgt.le, hzero, List.getElem?_eq_none hpast]
  simp only [shiftIn, Framer.holding, hbits, List.length_append, List.length_singleton]

/-- R154: a right shift drops the oldest bit. -/
theorem ofNat_lsbFirst_ushiftRight {w : List Bool} (hw : w.length ≤ 32) :
    BitVec.ofNat 32 (lsbFirst w) >>> 1 = BitVec.ofNat 32 (lsbFirst (w.drop 1)) := by
  refine BitVec.eq_of_getLsbD_eq fun i hi => ?_
  rw [BitVec.getLsbD_ushiftRight, getLsbD_ofNat_lsbFirst _ hi, List.getD_eq_getElem?_getD,
    List.getElem?_drop, ← List.getD_eq_getElem?_getD]
  obtain hlt | hge := Nat.lt_or_ge (1 + i) 32
  · exact getLsbD_ofNat_lsbFirst w hlt
  · rw [BitVec.getLsbD_of_ge _ _ hge, List.getD_eq_default _ _ (hw.trans hge)]

/-- R153, R160: the test of the 17-bit window is the test for the sync word. -/
theorem syncMatches_ofNat_lsbFirst (P : Params) {w : List Bool} (hw : w.length = 17) :
    syncMatches P (BitVec.ofNat 32 (lsbFirst w)) = true ↔ IsSyncWord P w := by
  have hmatch : syncMatches P (BitVec.ofNat 32 (lsbFirst w)) = true ↔
      ∀ i < 17, w[i]? = some (P.syncPattern.getLsbD i) := by
    rw [syncMatches, beq_iff_eq, BitVec.eq_of_getLsbD_eq_iff]
    refine forall₂_congr fun i (hi : i < 17) => ?_
    rw [BitVec.getLsbD_extractLsb', Nat.zero_add, getLsbD_ofNat_lsbFirst w (by omega),
      BitVec.getLsbD_setWidth]
    simp [syncWindow, hi, hw]
  have htop : P.syncPattern.getLsbD 16 = false := BitVec.getLsbD_of_ge _ _ le_rfl
  rw [hmatch, Nat.forall_lt_succ_right, htop]
  exact (and_iff_right hw).symm

/-! ### The search -/

/-- What a search holds of the bits it was given: the last 16. -/
def searchWindow (ws : List Bool) : List Bool := ws.drop (ws.length - 16)

theorem length_searchWindow (ws : List Bool) : (searchWindow ws).length = min ws.length 16 := by
  rw [searchWindow, List.length_drop]
  omega

theorem length_searchWindow_concat_le (ws : List Bool) (b : Bool) :
    (searchWindow ws ++ [b]).length ≤ 17 := by
  rw [List.length_append, length_searchWindow, List.length_singleton]
  omega

/-- The window of the bits up to and with `b`: the bits held, and `b`. -/
theorem drop_concat_eq_searchWindow (ws : List Bool) (b : Bool) :
    (ws ++ [b]).drop (ws.length - 16) = searchWindow ws ++ [b] :=
  List.drop_append_of_le_length (Nat.sub_le _ _)

/-- Only the bits held matter to what is held next. -/
theorem searchWindow_concat (ws : List Bool) (b : Bool) :
    searchWindow (ws ++ [b]) = searchWindow (searchWindow ws ++ [b]) := by
  rw [← drop_concat_eq_searchWindow, searchWindow, searchWindow, List.drop_drop]
  congr 1
  simp only [List.length_drop, List.length_append, List.length_singleton]
  omega

/-- R152: while SEARCHING, a bit is shifted in and the window tested. -/
theorem frameUpdate_of_searching (P : Params) (b : Bool) {f : Framer} (hf : f.gotSOP = false) :
    frameUpdate P b f = searchStep P (shiftIn b f) := by
  simp [frameUpdate, shiftIn, hf]

/-- R152, R154: a window that is not the sync word drops its oldest bit once it is full. -/
theorem searchStep_holding_of_not_sync {P : Params} (f : Framer) {v : List Bool}
    (hlen : v.length ≤ 17) (hsync : ¬IsSyncWord P v) :
    searchStep P (f.holding v) = f.holding (searchWindow v) := by
  obtain hlt | hfull := hlen.lt_or_eq
  · have hwindow : searchWindow v = v := by
      rw [searchWindow, Nat.sub_eq_zero_of_le (by omega), List.drop_zero]
    rw [hwindow]
    exact if_neg (not_le.2 hlt)
  · have hwindow : searchWindow v = v.drop 1 := by rw [searchWindow, hfull]
    have hmiss := mt (syncMatches_ofNat_lsbFirst P hfull).1 hsync
    rw [hwindow]
    simp [searchStep, Framer.holding, syncWindow, hfull, hmiss, ofNat_lsbFirst_ushiftRight]

/-- R153, R161: the sync word starts the frame, everything cleared. -/
theorem searchStep_holding_of_sync {P : Params} (f : Framer) {v : List Bool}
    (hsync : IsSyncWord P v) :
    searchStep P (f.holding v) =
      { f with gotSOP := true, bits := 0, bitCount := 0, byteCount := 0 } := by
  have ⟨hfull, _⟩ := hsync
  have hmatch := (syncMatches_ofNat_lsbFirst P hfull).2 hsync
  simp [searchStep, Framer.holding, syncWindow, hfull, hmatch]

/-- R157: a searching assembler emits nothing. -/
theorem frameStage_packetOut_of_searching (P : Params) (b : Bool) {s : State}
    (h : s.frame.gotSOP = false) : (frameStage P b s).packetOut = s.packetOut := by
  obtain ⟨hcomplete, -⟩ | ⟨-, -, e⟩ := frameStage_emits P b s
  · obtain ⟨hreceiving, -⟩ := (isComplete_shiftIn_iff b s.frame).1 hcomplete
    rw [h] at hreceiving
    cases hreceiving
  · exact e

theorem frameAll_concat (P : Params) (ws : List Bool) (b : Bool) (s : State) :
    frameAll P (ws ++ [b]) s = frameStage P b (frameAll P ws s) :=
  List.foldl_concat ..

/-- One more bit to an assembler that holds the last 16 of `ws`. -/
theorem frame_frameStage_of_holding (P : Params) (b : Bool) {f : Framer} {s : State}
    {ws : List Bool} (hf : f.gotSOP = false) (hs : s.frame = f.holding (searchWindow ws)) :
    (frameStage P b s).frame = searchStep P (f.holding (searchWindow ws ++ [b])) := by
  have hroom : (searchWindow ws).length < 32 := by
    have := length_searchWindow ws
    omega
  calc (frameStage P b s).frame
      = frameUpdate P b (f.holding (searchWindow ws)) := congrArg (frameUpdate P b) hs
    _ = searchStep P (shiftIn b (f.holding (searchWindow ws))) := frameUpdate_of_searching P b hf
    _ = searchStep P (f.holding (searchWindow ws ++ [b])) := by rw [shiftIn_holding b f hroom]

/-- A sync word in a bitstream is still there when a bit follows. -/
theorem IsSyncWord.concat {P : Params} {ws : List Bool} {k : ℕ}
    (h : IsSyncWord P ((ws.drop k).take 17)) (b : Bool) :
    IsSyncWord P (((ws ++ [b]).drop k).take 17) := by
  have ⟨hlen, _⟩ := h
  have hroom : 17 ≤ (ws.drop k).length := by simpa using hlen
  have hk : k ≤ ws.length := by
    rw [List.length_drop] at hroom
    omega
  rwa [List.drop_append_of_le_length hk, List.take_append_of_le_length hroom]

/-- R160: an empty search that meets no sync word holds the last 16 bits and has emitted nothing. -/
theorem frameAll_of_no_sync {P : Params} {s : State} {ws : List Bool}
    (hs : s.frame.gotSOP = false) (hbits : s.frame.bits = 0) (hcount : s.frame.bitCount = 0)
    (hsync : ∀ k, ¬IsSyncWord P ((ws.drop k).take 17)) :
    (frameAll P ws s).frame = s.frame.holding (searchWindow ws) ∧
      (frameAll P ws s).packetOut = s.packetOut := by
  induction ws using List.reverseRecOn with
  | nil =>
    refine ⟨?_, rfl⟩
    show s.frame = { s.frame with bits := 0, bitCount := 0 }
    rw [← hbits, ← hcount]
  | append_singleton ws b ih =>
    obtain ⟨hframe, hout⟩ := ih fun k h => hsync k (h.concat b)
    have hlen := length_searchWindow_concat_le ws b
    have hmiss : ¬IsSyncWord P (searchWindow ws ++ [b]) := by
      have h := hsync (ws.length - 16)
      rwa [drop_concat_eq_searchWindow, List.take_of_length_le hlen] at h
    rw [frameAll_concat, searchWindow_concat]
    refine ⟨?_, ?_⟩
    · rw [frame_frameStage_of_holding P b hs hframe, searchStep_holding_of_not_sync _ hlen hmiss]
    · rw [frameStage_packetOut_of_searching P b (by rw [hframe]; exact hs), hout]

/-- Settles O45: the search holds the last 16 bits, so the window it tests on the next bit is the
last 17. -/
theorem slidingSearchFindsTheSyncWord : Obligations.SlidingSearchFindsTheSyncWord := by
  intro P ws b s hs hbits hcount hnone
  obtain ⟨hframe, hout⟩ := frameAll_of_no_sync hs hbits hcount hnone
  refine ⟨⟨?_, hout⟩, fun hsync => ?_⟩
  · rw [hframe, Framer.holding, length_searchWindow]
    rfl
  · have hlen := length_searchWindow_concat_le ws b
    rw [drop_concat_eq_searchWindow, List.take_of_length_le hlen] at hsync
    rw [frameAll_concat, frame_frameStage_of_holding P b hs hframe,
      searchStep_holding_of_sync _ hsync,
      frameStage_packetOut_of_searching P b (by rw [hframe]; exact hs)]
    exact ⟨rfl, hout⟩

end Sys2Proof.Machine
end

section
/-!
PROOF. Consumers do not matter (R159, R192): a command commutes with putting older events in front
of the output traces.
-/

namespace Sys2Proof.Machine

/-- The block `t` with what `o` has emitted in front of its own output traces. -/
def afterOutputs (o t : State) : State :=
  { t with
    packetOut := o.packetOut ++ t.packetOut
    scopeOut := o.scopeOut ++ t.scopeOut
    analyzerOut := o.analyzerOut ++ t.analyzerOut }

/-- The outcome with what `o` has emitted in front of its output traces. -/
def afterOutputsOf (o : State) : Result → Result
  | .next t => .next (afterOutputs o t)
  | .fault f => .fault f
  | .refused r => .refused r

/-- Every block is the one without its output traces, after those traces. -/
theorem afterOutputs_forgetOutputs (s : State) : afterOutputs s (forgetOutputs s) = s := by
  simp [afterOutputs, forgetOutputs]

theorem forgetOutputsOf_afterOutputsOf (o : State) (r : Result) :
    forgetOutputsOf (afterOutputsOf o r) = forgetOutputsOf r := by
  cases r <;> rfl

/-! ### The stages that emit -/

/-- R189, R190: ANALYZER. -/
theorem analyzerStage_afterOutputs (P : Params) (fm : Val) (o t : State) :
    analyzerStage P fm (afterOutputs o t) = afterOutputs o (analyzerStage P fm t) := by
  by_cases hfull : t.ana.cnt + 1 = P.analyzerBatch <;>
    simp [analyzerStage, afterOutputs, emitAnalyzer, hfull]

/-- R187, R188: SCOPE. -/
theorem scopeStage_afterOutputs (P : Params) (ci : CVal) (pw fm : Val) (o t : State) :
    scopeStage P ci pw fm (afterOutputs o t) = afterOutputs o (scopeStage P ci pw fm t) := by
  by_cases hfull : t.scope.cnt + 1 = P.scopeBatch <;>
    simp [scopeStage, afterOutputs, emitScope, scopeRecord, hfull]

/-- R150, R158: FRAME and EMIT. -/
theorem frameStage_afterOutputs (P : Params) (bit : Bool) (o t : State) :
    frameStage P bit (afterOutputs o t) = afterOutputs o (frameStage P bit t) := by
  cases hcomplete : isComplete (shiftIn bit t.frame) <;>
    simp [frameStage, afterOutputs, emitStage_eq, hcomplete]

/-- R144: BITSYNC, which sends FRAME its bit. -/
theorem bitSyncStage_afterOutputs (P : Params) (o t : State) :
    bitSyncStage P (afterOutputs o t) = afterOutputs o (bitSyncStage P t) := by
  have hsent := frameStage_afterOutputs P (decisionBit P (decisionDiff t.lpf)) o
    { t with sync := syncUpdate P (decisionDiff t.lpf) t.sync }
  unfold bitSyncStage
  dsimp only
  rw [apply_ite (afterOutputs o)]
  exact if_congr .rfl hsent rfl

/-! ### The commands -/

/-- R104: the stages of an internal sample before SCOPE. -/
theorem beforeScope_afterOutputs (P : Params) (ci : CVal) (o t : State) :
    beforeScope P ci (afterOutputs o t) = afterOutputs o (beforeScope P ci t) := by
  have hfm : discFreq P (afterOutputs o t) ci = discFreq P t ci := rfl
  have hmeter : levelStage P (powerEstimate ci) (storePrev ci (clearStrobe (afterOutputs o t))) =
      afterOutputs o (levelStage P (powerEstimate ci) (storePrev ci (clearStrobe t))) := rfl
  have hcorr (u : State) : corrStage P (discFreq P t ci) (afterOutputs o u) =
      afterOutputs o (corrStage P (discFreq P t ci) u) := rfl
  have hupdate (u : State) : onUpdate P (afterOutputs o u) = afterOutputs o (onUpdate P u) :=
    bitSyncStage_afterOutputs P o (lpfStage P u)
  simp only [beforeScope, hfm, hmeter, analyzerStage_afterOutputs, hcorr, hupdate,
    apply_ite (afterOutputs o)]
  rfl

/-- R104: one internal sample. -/
theorem process_afterOutputs (P : Params) (ci : CVal) (o t : State) :
    process P ci (afterOutputs o t) = afterOutputs o (process P ci t) := by
  rw [process_eq, process_eq, beforeScope_afterOutputs]
  exact scopeStage_afterOutputs P ci _ _ o _

/-- R100, R101: one output of the rate converter. -/
theorem resampleOne_afterOutputs (P : Params) (o t : State) :
    resampleOne P (afterOutputs o t) = afterOutputs o (resampleOne P t) := by
  simp only [resampleOne, process_afterOutputs]
  rfl

/-- R100: the loop of the rate converter. -/
theorem resampleLoop_afterOutputs (P : Params) (n : ℕ) (o t : State) :
    resampleLoop P n (afterOutputs o t) = afterOutputs o (resampleLoop P n t) := by
  induction n generalizing t with
  | zero => rfl
  | succ n ih =>
    rw [resampleLoop, resampleLoop, resampleOne_afterOutputs, ih, apply_ite (afterOutputs o)]
    rfl

/-- R95: SAMPLE's effect on a configured block. -/
theorem feed_afterOutputs (P : Params) (x : CVal) (o t : State) :
    feed P x (afterOutputs o t) = afterOutputs o (feed P x t) :=
  resampleLoop_afterOutputs P _ o (consumeInput P (pushMixed (mixed P x t) (advancePhase t)))

/-- R176: the effects of the changed keys. -/
theorem keyEffects_afterOutputs (P : Params) (ch : Key → Bool) (o t : State) :
    keyEffects P ch (afterOutputs o t) = afterOutputs o (keyEffects P ch t) := by
  rw [keyEffects_eq, keyEffects_eq]
  rfl

/-- R206: a command the block ignores leaves the old events in front, as one it performs. -/
theorem unlessFaulted_afterOutputs (o t : State) {k k' : Result} (h : k = afterOutputsOf o k') :
    unlessFaulted (afterOutputs o t) k = afterOutputsOf o (unlessFaulted t k') := by
  rw [unlessFaulted, unlessFaulted, apply_ite (afterOutputsOf o), h]
  rfl

/-- R174, R175: a forced APPLY. -/
theorem applyForced_afterOutputs (P : Params) (o t : State) :
    applyForced P (afterOutputs o t) = afterOutputs o (applyForced P t) := by
  simp only [applyForced, apply_ite (afterOutputs o)]
  rfl

/-- R172, R177: a non-forced APPLY. -/
theorem applySelected_afterOutputs (P : Params) (mask : BitVec 4) (o t : State) :
    applySelected P mask (afterOutputs o t) = afterOutputs o (applySelected P mask t) := by
  have hkeys := keyEffects_afterOutputs P
    (isChanged mask (selectConfig mask t.stg.value t.cfg) t.cfg) o
    { t with cfg := selectConfig mask t.stg.value t.cfg }
  simp only [applySelected, apply_ite (afterOutputs o)]
  exact if_congr .rfl (if_congr .rfl rfl hkeys) rfl

/-- R171: APPLY. -/
theorem applyOn_afterOutputs (P : Params) (force : Bool) (mask : BitVec 4) (o t : State) :
    applyOn P force mask (afterOutputs o t) = afterOutputsOf o (applyOn P force mask t) := by
  refine unlessFaulted_afterOutputs o t (congrArg _ ?_)
  rw [applyForced_afterOutputs, applySelected_afterOutputs, apply_ite (afterOutputs o)]

/-- R95: SAMPLE. -/
theorem sampleOn_afterOutputs (P : Params) (i q : BitVec 24) (o t : State) :
    sampleOn P i q (afterOutputs o t) = afterOutputsOf o (sampleOn P i q t) := by
  refine unlessFaulted_afterOutputs o t ?_
  rw [apply_ite (afterOutputsOf o), apply_ite (afterOutputsOf o)]
  refine if_congr .rfl (if_congr .rfl rfl ?_) rfl
  exact congrArg _ (feed_afterOutputs P _ o t)

/-- R5: every command. -/
theorem exec_afterOutputs (i : Instr) (o t : State) :
    exec i (afterOutputs o t) = afterOutputsOf o (exec i t) := by
  cases i with
  | reset => rfl
  | setOffset v | setInputRate v | setRfBw v | setFmDev v =>
    exact unlessFaulted_afterOutputs o t rfl
  | apply force mask => exact applyOn_afterOutputs _ force mask o t
  | sample i q => exact sampleOn_afterOutputs _ i q o t

/-- Settles O52: with and without the old events in front, the outcome is the same but for them. -/
theorem consumersDoNotMatter : Obligations.ConsumersDoNotMatter := by
  intro i s
  have hexec : exec i s = afterOutputsOf s (exec i (forgetOutputs s)) := by
    rw [← exec_afterOutputs, afterOutputs_forgetOutputs]
  refine ⟨by rw [hexec, forgetOutputsOf_afterOutputsOf], fun t t' ht ht' => ?_⟩
  rw [hexec, ht'] at ht
  cases ht
  exact ⟨rfl, rfl, rfl⟩

end Sys2Proof.Machine
end

section
/-!
PROOF. The configuration commands (R170 to R177): what SET and the two forms of APPLY answer in each
of their cases, and which keys a non-forced APPLY takes from staging.
-/

namespace Sys2Proof.Machine

/-! ### SET -/

/-- R170: SET on a block that is not faulted. -/
theorem setOn_of_not_faulted (k : Key) (v : BitVec 32) {s : State} (hfault : s.status.fault = false) :
    setOn k v s = .next (stageKey k v s) :=
  unlessFaulted_of_not hfault _

/-- Settles O10: each SET stages its own key, whose valid bit `setValid` sets. -/
theorem setStagesItsKey : Obligations.SetStagesItsKey := by
  intro v s
  refine ⟨fun hfault => ⟨setOn_of_not_faulted .offset v hfault,
    setOn_of_not_faulted .inputRate v hfault, setOn_of_not_faulted .rfBandwidth v hfault,
    setOn_of_not_faulted .fmDeviation v hfault⟩, fun hfault i hi => ?_⟩
  simp only [List.mem_cons, List.not_mem_nil, or_false] at hi
  obtain rfl | rfl | rfl | rfl := hi <;> exact unlessFaulted_of hfault _

/-! ### What APPLY answers -/

theorem allStaged_iff_eq (valid : BitVec 4) : allStaged valid = true ↔ valid = 15 := beq_iff_eq

theorem configUnusable_iff (c : ChannelConfig) :
    configUnusable c = true ↔ c.inputRate = 0 ∨ c.fmDeviation = 0 := by
  simp only [configUnusable, Bool.or_eq_true, beq_iff_eq]

theorem configUnusable_eq_false_iff (c : ChannelConfig) :
    configUnusable c = false ↔ c.inputRate ≠ 0 ∧ c.fmDeviation ≠ 0 := by
  rw [← Bool.not_eq_true, configUnusable_iff, not_or]

section Apply
variable (P : Params) (mask : BitVec 4) {s : State}

/-- R174, R202: a forced APPLY with a key not staged. -/
theorem applyOn_forced_of_not_staged (hfault : s.status.fault = false) (hvalid : s.stg.valid ≠ 15) :
    applyOn P true mask s = .next (raiseFault .notConfigured s) := by
  rw [applyOn, unlessFaulted_of_not hfault, if_pos rfl, applyForced,
    if_neg (mt (allStaged_iff_eq _).1 hvalid)]

/-- R174, R204: a forced APPLY of an unusable configuration. -/
theorem applyOn_forced_of_unusable (hfault : s.status.fault = false) (hvalid : s.stg.valid = 15)
    (hzero : configUnusable s.stg.value = true) :
    applyOn P true mask s = .next (raiseFault .configInvalid s) := by
  rw [applyOn, unlessFaulted_of_not hfault, if_pos rfl, applyForced,
    if_pos ((allStaged_iff_eq _).2 hvalid), if_pos hzero]

/-- R174, R175: a forced APPLY that takes effect. -/
theorem applyOn_forced_of_usable (hfault : s.status.fault = false) (hvalid : s.stg.valid = 15)
    (husable : configUnusable s.stg.value = false) :
    applyOn P true mask s =
      .next (forceRebuild P { s with cfg := s.stg.value, configured := true }) := by
  rw [applyOn, unlessFaulted_of_not hfault, if_pos rfl, applyForced,
    if_pos ((allStaged_iff_eq _).2 hvalid), if_neg (Bool.eq_false_iff.1 husable)]

/-- R173: a non-forced APPLY on a block that is not configured. -/
theorem applyOn_selected_of_not_configured (hfault : s.status.fault = false)
    (hconf : s.configured = false) :
    applyOn P false mask s = .next (raiseFault .notConfigured s) := by
  rw [applyOn, unlessFaulted_of_not hfault, if_neg Bool.false_ne_true, applySelected,
    if_neg (Bool.eq_false_iff.1 hconf)]

/-- R172, R176: a non-forced APPLY that takes effect. -/
theorem applyOn_selected_of_usable (hfault : s.status.fault = false) (hconf : s.configured = true)
    (husable : configUnusable (selectConfig mask s.stg.value s.cfg) = false) :
    applyOn P false mask s =
      .next (keyEffects P (isChanged mask (selectConfig mask s.stg.value s.cfg) s.cfg)
        { s with cfg := selectConfig mask s.stg.value s.cfg }) := by
  rw [applyOn, unlessFaulted_of_not hfault, if_neg Bool.false_ne_true, applySelected, if_pos hconf]
  exact congrArg _ (if_neg (Bool.eq_false_iff.1 husable))

end Apply

/-! ### Forced APPLY -/

/-- R175: every derived value is recomputed from the active configuration. -/
theorem derivedCurrent_forceRebuild (P : Params) (s : State) :
    DerivedCurrent P (forceRebuild P s).cfg (forceRebuild P s).derived :=
  ⟨rfl, rfl, rfl, rfl, rfl⟩

/-- Settles O60: a forced APPLY that takes effect is FORCE_REBUILD on the staged configuration, whose
pipeline is that of the power-on state, as RESET's is. -/
theorem forcedApplyLeavesTheResetState : Obligations.ForcedApplyLeavesTheResetState := by
  intro mask s hfault
  refine ⟨applyOn_forced_of_not_staged _ mask hfault, fun hvalid hzero =>
    applyOn_forced_of_unusable _ mask hfault hvalid ((configUnusable_iff _).2 hzero), ?_⟩
  intro hvalid hrate hdev
  have husable := (configUnusable_eq_false_iff _).2 ⟨hrate, hdev⟩
  refine ⟨_, _, applyOn_forced_of_usable _ mask hfault hvalid husable, resetOn_eq _ s, ?_⟩
  exact ⟨rfl, rfl, derivedCurrent_forceRebuild _ _, rfl, rfl, rfl, rfl, rfl, rfl, rfl, rfl, rfl, rfl,
    rfl, rfl, rfl, rfl, rfl, rfl, rfl⟩

/-! ### Non-forced APPLY -/

/-- R177: a key is changed exactly when its selected value differs from the active one; outside the
mask the two are the same. -/
theorem isChanged_selectConfig_iff (mask : BitVec 4) (stg cfg : ChannelConfig) (k : Key) :
    isChanged mask (selectConfig mask stg cfg) cfg k = true ↔
      selectKey mask stg cfg k ≠ getKey cfg k := by
  rw [isChanged, Bool.and_eq_true, bne_iff_ne, getKey_selectConfig]
  exact and_iff_right_of_imp fun hne => by_contra fun hmask => hne (if_neg hmask)

/-- Settles O12: KEY_EFFECTS as one state, whose changed keys `isChanged_selectConfig_iff` names. -/
theorem selectiveApplyCommitsTheMaskedKeys : Obligations.SelectiveApplyCommitsTheMaskedKeys := by
  intro mask s hfault
  refine ⟨applyOn_selected_of_not_configured _ mask hfault, ?_⟩
  intro pick offset rate bw dev hconf hrate hdev
  have husable : configUnusable (selectConfig mask s.stg.value s.cfg) = false :=
    (configUnusable_eq_false_iff _).2 ⟨hrate, hdev⟩
  refine (applyOn_selected_of_usable _ mask hfault hconf husable).trans ?_
  rw [keyEffects_eq]
  simp only [Bool.or_eq_true, isChanged_selectConfig_iff]
  rfl

/-! ### Staging -/

theorem keyEffects_cfg (P : Params) (ch : Key → Bool) (s : State) :
    (keyEffects P ch s).cfg = s.cfg := by
  rw [keyEffects_eq]

/-- R172: the configuration a non-forced APPLY leaves active, where it takes effect. -/
theorem cfg_of_applyOn_selected {P : Params} {mask : BitVec 4} {s t : State}
    (happly : applyOn P false mask s = .next t) (hok : t.status.fault = false) :
    t.cfg = selectConfig mask s.stg.value s.cfg := by
  obtain ⟨hfault, h⟩ | ⟨-, -, h⟩ | ⟨-, -, -, h⟩ | ⟨-, hforce, -⟩ | ⟨-, -, -, -, h⟩ :=
    applyOn_cases P false mask s
  · cases h.symm.trans happly
    exact absurd (hok.symm.trans hfault) Bool.false_ne_true
  · cases h.symm.trans happly
    exact absurd hok.symm Bool.false_ne_true
  · cases h.symm.trans happly
    exact absurd hok.symm Bool.false_ne_true
  · exact absurd hforce Bool.false_ne_true
  · cases h.symm.trans happly
    exact keyEffects_cfg P _ _

/-- R171: APPLY keeps staging, and a block it leaves configured was so before or had all four keys
staged. -/
theorem stg_configured_of_applyOn {P : Params} {force : Bool} {mask : BitVec 4} {s t : State}
    (happly : applyOn P force mask s = .next t) :
    t.stg = s.stg ∧ (t.configured = true → s.configured = true ∨ s.stg.valid = 15) := by
  obtain ⟨-, h⟩ | ⟨-, -, h⟩ | ⟨-, -, -, h⟩ | ⟨-, -, hvalid, -, h⟩ | ⟨-, -, -, -, h⟩ :=
    applyOn_cases P force mask s <;> cases h.symm.trans happly
  · exact ⟨rfl, .inl⟩
  · exact ⟨rfl, .inl⟩
  · exact ⟨rfl, .inl⟩
  · exact ⟨rfl, fun _ => .inr ((allStaged_iff_eq _).1 hvalid)⟩
  · rw [keyEffects_eq]
    exact ⟨rfl, .inl⟩

/-- R179: SAMPLE keeps staging and `configured`. -/
theorem stg_configured_of_sampleOn {P : Params} {i q : BitVec 24} {s t : State}
    (hsample : sampleOn P i q s = .next t) : t.stg = s.stg ∧ t.configured = s.configured := by
  obtain ⟨-, h⟩ | ⟨-, -, h⟩ | ⟨-, -, -, h⟩ | ⟨-, -, hrate, h⟩ := sampleOn_cases P i q s
  · cases h.symm.trans hsample
    exact ⟨rfl, rfl⟩
  · cases h.symm.trans hsample
    exact ⟨rfl, rfl⟩
  · exact nomatch h.symm.trans hsample
  · cases h.symm.trans hsample
    obtain ⟨hstg, -, hconf, -⟩ := feed_fields P (inputSample i q) s hrate
    exact ⟨hstg, hconf⟩

/-- R22: where all four valid bits are set, a SET changes none. -/
theorem setValid_fifteen (k : Key) : setValid 15 k = 15 := by cases k <;> rfl

/-- R22, R170: a SET keeps "configured implies all four keys staged". -/
theorem setOn_keeps_staged {k : Key} {v : BitVec 32} {s t : State}
    (hs : s.configured = true → s.stg.valid = 15) (hset : setOn k v s = .next t) :
    t.configured = true → t.stg.valid = 15 := by
  obtain ⟨-, h⟩ | ⟨-, h⟩ := setOn_cases k v s
  · cases h.symm.trans hset
    exact hs
  · cases h.symm.trans hset
    intro hconf
    calc setValid s.stg.valid k = setValid 15 k := by rw [hs hconf]
      _ = 15 := setValid_fifteen k

/-- R22, R24: every command keeps "configured implies all four keys staged". -/
theorem exec_keeps_staged {i : Instr} {s t : State} (hs : s.configured = true → s.stg.valid = 15)
    (hexec : exec i s = .next t) : t.configured = true → t.stg.valid = 15 := by
  cases i with
  | reset =>
    cases hexec
    exact fun hconf => absurd hconf Bool.false_ne_true
  | setOffset v | setInputRate v | setRfBw v | setFmDev v => exact setOn_keeps_staged hs hexec
  | apply force mask =>
    obtain ⟨hstg, hconf⟩ := stg_configured_of_applyOn hexec
    exact fun ht => hstg ▸ (hconf ht).elim hs id
  | sample i q =>
    obtain ⟨hstg, hconf⟩ := stg_configured_of_sampleOn hexec
    rwa [hstg, hconf]

/-- Settles O13: the selected configuration key by key, and the step lemma for the valid bits. -/
theorem nonForcedSelection : Obligations.NonForcedSelection := by
  refine ⟨fun mask s t happly hok k => ?_, fun force mask s t happly => ?_, ?_,
    fun _ _ _ => exec_keeps_staged⟩
  · rw [cfg_of_applyOn_selected happly hok, getKey_selectConfig]
    rfl
  · exact (stg_configured_of_applyOn happly).1
  · exact fun hconf => absurd hconf Bool.false_ne_true

end Sys2Proof.Machine
end

section
/-!
PROOF. The taps interfere with nothing (R191): a state with other taps, on an instance with other
tap parameters, goes the same way, stage by stage.
-/

namespace Sys2Proof.Machine

/-! ### Other taps -/

/-- The block `s` with the taps of `o` and what `o` has emitted at their ports. -/
def withTaps (o s : State) : State :=
  { s with
    level := o.level, scope := o.scope, ana := o.ana,
    scopeOut := o.scopeOut, analyzerOut := o.analyzerOut }

/-- The elaboration parameters only the taps read. -/
structure TapParams (P : Params) where
  levelN : ℕ+
  scopeBatch : ℕ+
  analyzerBatch : ℕ+
  scale : Val
  truncate : Truncation P.constant P.compare.IsNumber scale

/-- The instance `P` with other tap parameters. -/
def retapped (P : Params) (T : TapParams P) : Params :=
  { P with
    levelN := T.levelN, scopeBatch := T.scopeBatch, analyzerBatch := T.analyzerBatch,
    analyzerScale := T.scale, truncate := T.truncate }

theorem SameButTaps.exists_eq_withTaps {s t : State} (h : SameButTaps s t) :
    ∃ o, t = withTaps o s :=
  ⟨t, h.symm⟩

theorem SameButTaps.symm {s t : State} (h : SameButTaps s t) : SameButTaps t s := by
  obtain ⟨o, rfl⟩ := h.exists_eq_withTaps
  rfl

theorem SameButTaps.trans {s t u : State} (hst : SameButTaps s t) (htu : SameButTaps t u) :
    SameButTaps s u := by
  obtain ⟨o, rfl⟩ := hst.exists_eq_withTaps
  exact htu

theorem SameButTaps.packetOut {s t : State} (h : SameButTaps s t) : s.packetOut = t.packetOut := by
  obtain ⟨o, rfl⟩ := h.exists_eq_withTaps
  rfl

/-- R191: what only writes its tap may run on either side. -/
theorem SameButTaps.of_taps {s t s' t' : State} (h : SameButTaps s t) (hs : SameButTaps s s')
    (ht : SameButTaps t t') : SameButTaps s' t' :=
  hs.symm.trans (h.trans ht)

/-- A function that neither reads nor writes the taps keeps the relation. -/
theorem SameButTaps.map {f : State → State} (hf : ∀ o u, f (withTaps o u) = withTaps o (f u))
    {s t : State} (h : SameButTaps s t) : SameButTaps (f s) (f t) := by
  obtain ⟨o, rfl⟩ := h.exists_eq_withTaps
  rw [hf]
  rfl

/-- The same branch on both sides. -/
theorem SameButTaps.ite {c : Prop} [Decidable c] {s t s' t' : State} (h : SameButTaps s t)
    (h' : SameButTaps s' t') : SameButTaps (if c then s else s') (if c then t else t') := by
  rw [apply_ite₂ SameButTaps]
  split <;> assumption

/-! ### The stages -/

/-- R150, R158: FRAME and EMIT read no tap. -/
theorem frameStage_withTaps (P : Params) (bit : Bool) (o s : State) :
    frameStage P bit (withTaps o s) = withTaps o (frameStage P bit s) := by
  cases hcomplete : isComplete (shiftIn bit s.frame) <;>
    simp [frameStage, withTaps, emitStage_eq, hcomplete]

/-- R130, R144: neither do LPF and BITSYNC, which sends FRAME its bit. -/
theorem onUpdate_withTaps (P : Params) (o s : State) :
    onUpdate P (withTaps o s) = withTaps o (onUpdate P s) := by
  unfold onUpdate bitSyncStage
  rw [apply_ite (withTaps o), ← frameStage_withTaps]
  rfl

section Retapped

variable {P : Params} (T : TapParams P) {s t : State}

/-- R191: the stages that are no tap read no tap parameter. -/
theorem retapped_stages :
    discFreq (retapped P T) = discFreq P ∧ isUpdate (retapped P T) = isUpdate P ∧
      corrStage (retapped P T) = corrStage P ∧ onUpdate (retapped P T) = onUpdate P :=
  ⟨rfl, rfl, rfl, rfl⟩

/-- R104, R191: one internal sample keeps the relation: the stages between the taps read no tap, and
each tap writes itself only. -/
theorem process_sameButTaps (h : SameButTaps s t) (ci : CVal) :
    SameButTaps (process P ci s) (process (retapped P T) ci t) := by
  obtain ⟨o, rfl⟩ := h.exists_eq_withTaps
  obtain ⟨hdisc, hupdate, hcorrStage, honUpdate⟩ := retapped_stages T
  have hfm : discFreq P (withTaps o s) ci = discFreq P s ci := rfl
  have hprev : SameButTaps (storePrev ci (clearStrobe s))
      (storePrev ci (clearStrobe (withTaps o s))) := rfl
  have htapped := hprev.of_taps
    ((sameButTaps_levelStage P (powerEstimate ci) _).trans
      (sameButTaps_analyzerStage P (discFreq P s ci) _))
    ((sameButTaps_levelStage (retapped P T) (powerEstimate ci) _).trans
      (sameButTaps_analyzerStage (retapped P T) (discFreq P s ci) _))
  have hcorr := htapped.map (f := corrStage P (discFreq P s ci)) fun _ _ => rfl
  rw [process_eq, process_eq]
  refine SameButTaps.of_taps ?_ (sameButTaps_scopeStage ..) (sameButTaps_scopeStage ..)
  simp only [beforeScope, hdisc, hfm, hupdate, hcorrStage, honUpdate]
  exact (hcorr.map (onUpdate_withTaps P)).ite hcorr

/-- R100, R101: so does one output of the rate converter. -/
theorem resampleOne_sameButTaps (h : SameButTaps s t) :
    SameButTaps (resampleOne P s) (resampleOne (retapped P T) t) := by
  obtain ⟨o, rfl⟩ := h.exists_eq_withTaps
  have hdone := process_sameButTaps T h
    (P.num.rcFn s.derived.rcKernelCfg s.rc.hist (outputDelay P s))
  exact hdone.map
    (f := fun u => { u with rc := { u.rc with acc := u.rc.acc + unsignedHz u.cfg.inputRate } })
    fun _ _ => rfl

/-- R100: the loop goes round as often on both sides. -/
theorem resampleLoop_sameButTaps (n : ℕ) (h : SameButTaps s t) :
    SameButTaps (resampleLoop P n s) (resampleLoop (retapped P T) n t) := by
  induction n generalizing s t with
  | zero => exact h
  | succ n ih =>
    have hround := ih (resampleOne_sameButTaps T h)
    obtain ⟨o, rfl⟩ := h.exists_eq_withTaps
    exact hround.ite h

/-- R95: SAMPLE's effect on a configured block. -/
theorem feed_sameButTaps (h : SameButTaps s t) (x : CVal) :
    SameButTaps (feed P x s) (feed (retapped P T) x t) := by
  obtain ⟨o, rfl⟩ := h.exists_eq_withTaps
  have hready : SameButTaps (consumeInput P (pushMixed (mixed P x s) (advancePhase s)))
      (consumeInput P (pushMixed (mixed P x s) (advancePhase (withTaps o s)))) := rfl
  exact resampleLoop_sameButTaps T _ hready

/-! ### The commands -/

/-- R174, R175: a forced APPLY. -/
theorem applyForced_sameButTaps (h : SameButTaps s t) :
    SameButTaps (applyForced P s) (applyForced (retapped P T) t) := by
  obtain ⟨o, rfl⟩ := h.exists_eq_withTaps
  have hrebuilt : SameButTaps (forceRebuild P { s with cfg := s.stg.value, configured := true })
      (forceRebuild (retapped P T)
        { withTaps o s with cfg := s.stg.value, configured := true }) := rfl
  exact SameButTaps.ite (SameButTaps.ite rfl hrebuilt) rfl

/-- R176: the effects of the changed keys read no tap. -/
theorem keyEffects_withTaps (P : Params) (ch : Key → Bool) (o s : State) :
    keyEffects P ch (withTaps o s) = withTaps o (keyEffects P ch s) := by
  rw [keyEffects_eq, keyEffects_eq]
  rfl

/-- R172, R177: a non-forced APPLY. -/
theorem applySelected_sameButTaps (mask : BitVec 4) (h : SameButTaps s t) :
    SameButTaps (applySelected P mask s) (applySelected (retapped P T) mask t) := by
  obtain ⟨o, rfl⟩ := h.exists_eq_withTaps
  have hkeys := SameButTaps.map
    (keyEffects_withTaps P (isChanged mask (selectConfig mask s.stg.value s.cfg) s.cfg))
    (show SameButTaps { s with cfg := selectConfig mask s.stg.value s.cfg }
      { withTaps o s with cfg := selectConfig mask s.stg.value s.cfg } from rfl)
  exact SameButTaps.ite (SameButTaps.ite rfl hkeys) rfl

/-- Two answers of a command: states equal but for the taps, or the same stop. -/
inductive SameButTapsOf : Result → Result → Prop
  | next {s t : State} (h : SameButTaps s t) : SameButTapsOf (.next s) (.next t)
  | fault (f : Fault) : SameButTapsOf (.fault f) (.fault f)

theorem SameButTapsOf.exists_next {s' : State} {r : Result} (h : SameButTapsOf (.next s') r) :
    ∃ t', r = .next t' ∧ SameButTaps s' t' := by
  cases h with
  | next h => exact ⟨_, rfl, h⟩

theorem SameButTapsOf.ite {c : Prop} [Decidable c] {k k' r r' : Result} (h : SameButTapsOf k k')
    (h' : SameButTapsOf r r') : SameButTapsOf (if c then k else r) (if c then k' else r') := by
  rw [apply_ite₂ SameButTapsOf]
  split <;> assumption

/-- R206: both sides ignore the command, or neither does. -/
theorem unlessFaulted_sameButTaps (h : SameButTaps s t) {k k' : Result}
    (hk : SameButTapsOf k k') : SameButTapsOf (unlessFaulted s k) (unlessFaulted t k') := by
  have hsame := SameButTapsOf.ite (c := s.status.fault = true) (.next h) hk
  obtain ⟨o, rfl⟩ := h.exists_eq_withTaps
  exact hsame

/-- R171: APPLY. -/
theorem applyOn_sameButTaps (force : Bool) (mask : BitVec 4) (h : SameButTaps s t) :
    SameButTapsOf (applyOn P force mask s) (applyOn (retapped P T) force mask t) :=
  unlessFaulted_sameButTaps h
    (.next ((applyForced_sameButTaps T h).ite (applySelected_sameButTaps T mask h)))

/-- R95: SAMPLE. -/
theorem sampleOn_sameButTaps (i q : BitVec 24) (h : SameButTaps s t) :
    SameButTapsOf (sampleOn P i q s) (sampleOn (retapped P T) i q t) := by
  refine unlessFaulted_sameButTaps h ?_
  have hfeed := SameButTapsOf.next (feed_sameButTaps T h (inputSample i q))
  obtain ⟨o, rfl⟩ := h.exists_eq_withTaps
  exact .ite (.ite (.fault .inputRateZero) hfeed) (.next rfl)

/-- R5: every command. -/
theorem execOn_sameButTaps (i : Instr) (h : SameButTaps s t) :
    SameButTapsOf (execOn P i s) (execOn (retapped P T) i t) := by
  cases i with
  | reset =>
    obtain ⟨o, rfl⟩ := h.exists_eq_withTaps
    exact .next rfl
  | setOffset v | setInputRate v | setRfBw v | setFmDev v =>
    exact unlessFaulted_sameButTaps h (.next (h.map fun _ _ => rfl))
  | apply force mask => exact applyOn_sameButTaps T force mask h
  | sample i q => exact sampleOn_sameButTaps T i q h

end Retapped

/-- Settles O35: the power-on states are so by definition; every command keeps the relation, of which
equal packet traces are a part. -/
theorem tapsDoNotInterfere : Obligations.TapsDoNotInterfere := by
  intro P levelN scopeBatch analyzerBatch scale tr i s t s' Q
  refine ⟨rfl, fun h hexec => ?_⟩
  have hsame := execOn_sameButTaps (P := P) ⟨levelN, scopeBatch, analyzerBatch, scale, tr⟩ i h
  rw [hexec] at hsame
  obtain ⟨t', ht', htaps⟩ := hsame.exists_next
  exact ⟨t', ht', htaps, htaps.packetOut⟩

end Sys2Proof.Machine
end

section
/-!
PROOF. The batches of the taps (R188, R190): both taps are one batch buffer, into which each internal
sample pushes a value, and whose first full batch is the list of the values pushed.
-/

namespace Sys2Proof.Machine

/-! ### One batch buffer -/

/-- A tap as R187 and R189 write it: its slots, its count, and what its port has emitted. -/
structure BatchBuffer (α : Type) where
  buf : List α
  cnt : ℕ
  out : List (List α)

section Push
variable {α : Type}

/-- Buffer one value; with `n` values the batch is emitted and the buffer starts again. -/
def BatchBuffer.push (n : ℕ) (b : BatchBuffer α) (v : α) : BatchBuffer α :=
  if b.cnt + 1 = n then
    { buf := b.buf.set b.cnt v, cnt := 0, out := b.out ++ [b.buf.set b.cnt v] }
  else { b with buf := b.buf.set b.cnt v, cnt := b.cnt + 1 }

/-- The next slot of a partly filled buffer. -/
theorem set_append_drop_length {buf vs : List α} (v : α) (h : vs.length < buf.length) :
    (vs ++ buf.drop vs.length).set vs.length v = vs ++ [v] ++ buf.drop (vs.length + 1) := by
  rw [List.drop_eq_getElem_cons h, List.set_append_right _ _ le_rfl, Nat.sub_self, List.set_cons_zero,
    List.append_assoc, List.singleton_append]

/-- Fewer values than slots fill the first slots, in order, and emit nothing. -/
theorem foldl_push_of_lt {buf vs : List α} (out : List (List α)) (h : vs.length < buf.length) :
    vs.foldl (BatchBuffer.push buf.length) ⟨buf, 0, out⟩ =
      ⟨vs ++ buf.drop vs.length, vs.length, out⟩ := by
  induction vs using List.reverseRecOn with
  | nil => rfl
  | append_singleton vs v ih =>
    rw [List.length_append, List.length_singleton] at h ⊢
    have hlt : vs.length < buf.length := Nat.lt_of_succ_lt h
    rw [List.foldl_concat, ih hlt, BatchBuffer.push, if_neg h.ne, set_append_drop_length v hlt]

/-- As many values as slots are emitted as one batch, in order, and the count is back at 0. -/
theorem foldl_push_of_eq {buf vs : List α} (out : List (List α)) (h : vs.length = buf.length)
    (hpos : 0 < buf.length) :
    vs.foldl (BatchBuffer.push buf.length) ⟨buf, 0, out⟩ = ⟨vs, 0, out ++ [vs]⟩ := by
  obtain rfl | ⟨vs, v, rfl⟩ := vs.eq_nil_or_concat'
  · exact absurd h hpos.ne
  · rw [List.length_append, List.length_singleton] at h
    have hlt : vs.length < buf.length := Nat.lt_of_succ_le h.le
    rw [List.foldl_concat, foldl_push_of_lt out hlt, BatchBuffer.push, if_pos h,
      set_append_drop_length v hlt, h, List.drop_length, List.append_nil]

end Push

/-! ### The values of a run -/

/-- The state after one more sample of a run. -/
theorem processAll_take_succ (P : Params) {cis : List CVal} {j : ℕ} {ci : CVal} (s : State)
    (h : cis[j]? = some ci) :
    processAll P (cis.take (j + 1)) s = process P ci (processAll P (cis.take j) s) := by
  rw [List.take_add_one, h, processAll, List.foldl_append]
  rfl

section Run
variable {α : Type} (P : Params) (val : State → CVal → α)

/-- What a tap that pushes `val` is given during a run: one value for each internal sample. -/
def valuesOf : List CVal → State → List α
  | [], _ => []
  | ci :: cis, s => val s ci :: valuesOf cis (process P ci s)

theorem length_valuesOf (cis : List CVal) (s : State) :
    (valuesOf P val cis s).length = cis.length := by
  induction cis generalizing s with
  | nil => rfl
  | cons ci cis ih => exact congrArg Nat.succ (ih _)

/-- The `j`-th value is that of the `j`-th sample, in the state the samples before it leave. -/
theorem getElem?_valuesOf {cis : List CVal} {j : ℕ} {ci : CVal} (s : State)
    (h : cis[j]? = some ci) :
    (valuesOf P val cis s)[j]? = some (val (processAll P (cis.take j) s) ci) := by
  induction cis generalizing s j with
  | nil => simp at h
  | cons first cis ih =>
    cases j with
    | zero =>
      cases h
      rfl
    | succ j => exact ih _ h

variable {P val} {tap : State → BatchBuffer α} {n : ℕ}

/-- A run pushes its values. -/
theorem tap_processAll (htap : ∀ ci s, tap (process P ci s) = (tap s).push n (val s ci))
    (cis : List CVal) (s : State) :
    tap (processAll P cis s) = (valuesOf P val cis s).foldl (BatchBuffer.push n) (tap s) := by
  induction cis generalizing s with
  | nil => rfl
  | cons ci cis ih =>
    calc tap (processAll P cis (process P ci s))
        = (valuesOf P val cis (process P ci s)).foldl (.push n) (tap (process P ci s)) := ih _
      _ = (valuesOf P val (ci :: cis) s).foldl (.push n) (tap s) := by rw [htap]; rfl

/-- R188, R190: from an empty buffer, a run shorter than a batch emits nothing, and a run as long as a
batch emits its values, oldest first. -/
theorem batch_of_run (htap : ∀ ci s, tap (process P ci s) = (tap s).push n (val s ci)) (hn : 0 < n)
    (cis : List CVal) {s : State} (hcnt : (tap s).cnt = 0) (hlen : (tap s).buf.length = n) :
    let after := tap (processAll P cis s)
    (cis.length < n → after.out = (tap s).out ∧ after.cnt = cis.length) ∧
    (cis.length = n →
      after.cnt = 0 ∧
      ∃ batch, after.out = (tap s).out ++ [batch] ∧ batch.length = cis.length ∧
        ∀ j ci, cis[j]? = some ci → batch[j]? = some (val (processAll P (cis.take j) s) ci)) := by
  intro after
  have hstart : tap s = ⟨(tap s).buf, 0, (tap s).out⟩ := by rw [← hcnt]
  have hafter : after = (valuesOf P val cis s).foldl (.push (tap s).buf.length)
      ⟨(tap s).buf, 0, (tap s).out⟩ := by
    rw [← hstart, hlen]
    exact tap_processAll htap cis s
  have hvals := length_valuesOf P val cis s
  subst hlen
  refine ⟨fun hlt => ?_, fun heq => ?_⟩
  · rw [hafter, foldl_push_of_lt _ (hvals.trans_lt hlt)]
    exact ⟨rfl, hvals⟩
  · rw [hafter, foldl_push_of_eq _ (hvals.trans heq) hn]
    exact ⟨rfl, _, rfl, hvals, fun j ci => getElem?_valuesOf P val s⟩

end Run

/-! ### The two taps -/

/-- ANALYZER's tap and its port. -/
def analyzerTap (s : State) : BatchBuffer (BitVec 16) := ⟨s.ana.buf, s.ana.cnt, s.analyzerOut⟩

/-- SCOPE's tap and its port. -/
def scopeTap (s : State) : BatchBuffer ScopeRecord := ⟨s.scope.buf, s.scope.cnt, s.scopeOut⟩

/-- R186: the record of one internal sample, its fields those of the state the sample leaves. -/
def recordOf (P : Params) (s : State) (ci : CVal) : ScopeRecord :=
  scopeRecord ci (powerEstimate ci) (discFreq P s ci) (process P ci s)

/-- R189, R190: ANALYZER pushes the sample's analyzer value. -/
theorem analyzerTap_process (P : Params) (ci : CVal) (s : State) :
    analyzerTap (process P ci s) =
      (analyzerTap s).push P.analyzerBatch (analyzerValue P (discFreq P s ci)) := by
  obtain ⟨hana, hout⟩ := process_ana P ci s
  rw [analyzerTap, hana, hout]
  exact apply_ite analyzerTap _ _ _

/-- R187, R188: SCOPE pushes the sample's record. -/
theorem scopeTap_process (P : Params) (ci : CVal) (s : State) :
    scopeTap (process P ci s) = (scopeTap s).push P.scopeBatch (recordOf P s ci) := by
  have hbefore : scopeTap (beforeScope P ci s) = scopeTap s := by
    simp only [scopeTap, beforeScope_fields]
  rw [recordOf, ← process_scope, process_eq, ← hbefore]
  exact apply_ite scopeTap _ _ _

/-- R37, R175, R220: RESET and a forced APPLY that takes effect empty both counts and emit
nothing. -/
theorem taps_of_restart {P : Params} {s t : State} (h : resetOn P s = .next t ∨
      ∃ mask, applyOn P true mask s = .next t ∧ t.status.fault = false) :
    (t.ana.cnt = 0 ∧ t.analyzerOut = s.analyzerOut) ∧
      t.scope.cnt = 0 ∧ t.scopeOut = s.scopeOut := by
  obtain hreset | ⟨mask, happly, hok⟩ := h
  · cases hreset
    exact ⟨⟨rfl, rfl⟩, rfl, rfl⟩
  · obtain ⟨hfault, e⟩ | ⟨-, -, e⟩ | ⟨-, -, -, e⟩ | ⟨-, -, -, -, e⟩ | ⟨-, hforce, -⟩ :=
      applyOn_cases P true mask s
    · cases e.symm.trans happly
      exact absurd (hok.symm.trans hfault) Bool.false_ne_true
    · cases e.symm.trans happly
      exact absurd hok.symm Bool.false_ne_true
    · cases e.symm.trans happly
      exact absurd hok.symm Bool.false_ne_true
    · cases e.symm.trans happly
      exact ⟨⟨rfl, rfl⟩, rfl, rfl⟩
    · exact absurd hforce.symm Bool.false_ne_true

/-- Settles O33: a run pushes its analyzer values into the analyzer's batch buffer. -/
theorem analyzerBatchHoldsTheLastValues : Obligations.AnalyzerBatchHoldsTheLastValues :=
  ⟨fun _ _ _ h => (taps_of_restart h).1, fun P cis _ hcnt hlen =>
    batch_of_run (analyzerTap_process P) P.analyzerBatch.pos cis hcnt hlen⟩

/-- Settles O34: a run pushes its records into the scope's batch buffer, each with the fields its
sample leaves. -/
theorem scopeBatchHoldsTheLastRecords : Obligations.ScopeBatchHoldsTheLastRecords := by
  refine ⟨fun _ _ _ h => (taps_of_restart h).2, fun P cis s hcnt hlen => ?_⟩
  obtain ⟨hpartial, hwhole⟩ := batch_of_run (scopeTap_process P) P.scopeBatch.pos cis hcnt hlen
  refine ⟨hpartial, fun heq => ?_⟩
  obtain ⟨hempty, batch, hout, hlength, hrecords⟩ := hwhole heq
  refine ⟨hempty, batch, hout, hlength, fun j ci hj => ?_⟩
  rw [processAll_take_succ P s hj]
  exact hrecords j ci hj

end Sys2Proof.Machine
end

section
/-!
PROOF. The word of a command decodes to it (R72, R78): the three formats with operands read back what
was put in, and their reserved bits are zero.
-/

namespace Sys2Proof

/-- A word of format V, by its number (R72). -/
theorem formatV_of_toNat {w : Word} {op : ℕ} {v : BitVec 32} (h : w.toNat = op * 2 ^ 56 + v.toNat) :
    w.toNat / 2 ^ 56 = op ∧ w.toNat / 2 ^ 32 % 2 ^ 24 = 0 ∧ v = valueField w := by
  have := v.isLt
  refine ⟨by omega, by omega, BitVec.eq_of_toNat_eq ?_⟩
  rw [valueField_toNat]
  omega

/-- A word of format A, by its number (R72). -/
theorem formatA_of_toNat {w : Word} {op : ℕ} {force : Bool} {mask : BitVec 4}
    (h : w.toNat = op * 2 ^ 56 + force.toNat * 2 ^ 8 + mask.toNat) :
    w.toNat / 2 ^ 56 = op ∧ (w.toNat / 2 ^ 9 % 2 ^ 47 = 0 ∧ w.toNat / 2 ^ 4 % 2 ^ 4 = 0) ∧
      force = forceField w ∧ mask = maskField w := by
  have := mask.isLt
  have := force.toNat_lt
  refine ⟨by omega, by omega, ?_, BitVec.eq_of_toNat_eq ?_⟩
  · rw [Bool.eq_iff_iff, forceField_iff, ← Bool.toNat_eq_one]
    omega
  · rw [maskField_toNat]
    omega

/-- A word of format S, by its number (R72). -/
theorem formatS_of_toNat {w : Word} {op : ℕ} {i q : BitVec 24}
    (h : w.toNat = op * 2 ^ 56 + i.toNat * 2 ^ 24 + q.toNat) :
    w.toNat / 2 ^ 56 = op ∧ w.toNat / 2 ^ 48 % 2 ^ 8 = 0 ∧ i = iField w ∧ q = qField w := by
  have := i.isLt
  have := q.isLt
  refine ⟨by omega, by omega, BitVec.eq_of_toNat_eq ?_, BitVec.eq_of_toNat_eq ?_⟩
  · rw [iField_toNat]
    omega
  · rw [qField_toNat]
    omega

/-- The word of a command decodes to it: its opcode selects its format, and its operands fill the
bits the format does not reserve (R72, R78). -/
theorem decode_encode (i : Instr) : decode (encode i) = .ok i := by
  have hword := encode_toNat i
  rw [decode_eq_ok_iff_toNat]
  cases i with
  | reset => exact .inl ⟨rfl, rfl, rfl⟩
  | setOffset v =>
    obtain ⟨hop, hr, hv⟩ := formatV_of_toNat hword
    exact .inr (.inl ⟨hop, hr, congrArg _ hv⟩)
  | setInputRate v =>
    obtain ⟨hop, hr, hv⟩ := formatV_of_toNat hword
    exact .inr (.inr (.inl ⟨hop, hr, congrArg _ hv⟩))
  | setRfBw v =>
    obtain ⟨hop, hr, hv⟩ := formatV_of_toNat hword
    exact .inr (.inr (.inr (.inl ⟨hop, hr, congrArg _ hv⟩)))
  | setFmDev v =>
    obtain ⟨hop, hr, hv⟩ := formatV_of_toNat hword
    exact .inr (.inr (.inr (.inr (.inl ⟨hop, hr, congrArg _ hv⟩))))
  | apply force mask =>
    obtain ⟨hop, hr, hforce, hmask⟩ := formatA_of_toNat hword
    exact .inr (.inr (.inr (.inr (.inr (.inl ⟨hop, hr, congrArg₂ _ hforce hmask⟩)))))
  | sample i q =>
    obtain ⟨hop, hr, hi, hq⟩ := formatS_of_toNat hword
    exact .inr (.inr (.inr (.inr (.inr (.inr ⟨hop, hr, congrArg₂ _ hi hq⟩)))))

end Sys2Proof
end

section
/-!
PROOF. The faults (R200 to R207): what a word does on a faulted block and on one that is not, in the
order of the checks, and that a fault writes the status alone.
-/

namespace Sys2Proof.Machine

/-! ### One word -/

section Word
variable {s : State} {w : Word} {rest : List Word}

/-- R5: a step on a legal word. -/
theorem step_of_decode_ok {i : Instr} (hw : s.commands = w :: rest) (hd : decode w = .ok i) :
    step s = exec i { s with commands := rest } := by
  rw [step, hw]
  simp only [hd]

/-- R203, R206: a step on an illegal word. -/
theorem step_of_decode_error {e : DecodeError} (hw : s.commands = w :: rest)
    (hd : decode w = .error e) : step s = illegalWord { s with commands := rest } := by
  rw [step, hw]
  simp only [hd]

/-- R206: a faulted block ignores an illegal word. -/
theorem illegalWord_of_faulted (hfault : s.status.fault = true) : illegalWord s = .next s :=
  unlessFaulted_of hfault _

/-- R203: an illegal word on a block that is not faulted. -/
theorem illegalWord_of_not_faulted (hfault : s.status.fault = false) :
    illegalWord s = .next (raiseFault .illegalCommand s) :=
  unlessFaulted_of_not hfault _

/-- R206: a faulted block ignores every command but RESET. -/
theorem exec_of_faulted {i : Instr} (hfault : s.status.fault = true) (hi : i ≠ .reset) :
    exec i s = .next s := by
  cases i with
  | reset => exact absurd rfl hi
  | setOffset | setInputRate | setRfBw | setFmDev | apply | sample => exact unlessFaulted_of hfault _

/-- R206, R207: on a faulted block every word but RESET's is taken and nothing else happens; whether
it is legal does not matter. -/
theorem step_of_faulted (hfault : s.status.fault = true) (hw : s.commands = w :: rest)
    (hreset : decode w ≠ .ok .reset) : step s = .next { s with commands := rest } := by
  cases hd : decode w with
  | error e => exact (step_of_decode_error hw hd).trans (illegalWord_of_faulted hfault)
  | ok i =>
    have hi : i ≠ .reset := fun h => hreset (h ▸ hd)
    exact (step_of_decode_ok hw hd).trans (exec_of_faulted hfault hi)

/-- R203: a step on an illegal word raises `ILLEGAL_COMMAND`, unless the block is faulted. -/
theorem step_of_illegal {e : DecodeError} (hfault : s.status.fault = false)
    (hw : s.commands = w :: rest) (hd : decode w = .error e) :
    step s = .next (raiseFault .illegalCommand { s with commands := rest }) :=
  (step_of_decode_error hw hd).trans (illegalWord_of_not_faulted hfault)

end Word

/-- Settles O19: RESET's word is the only one that is performed on a faulted block. -/
theorem faultedBlockIgnoresEverythingButReset :
    Obligations.FaultedBlockIgnoresEverythingButReset := by
  intro s w rest hfault hw
  refine ⟨step_of_faulted hfault hw, fun hd => ?_⟩
  have hstep := step_of_decode_ok hw hd
  exact ⟨hstep, _, hstep.trans (resetOn_eq _ _), rfl⟩

/-- Settles O7: a word that decodes has an assigned opcode and zero reserved bits, so these words do
not, and an illegal word raises the fault. -/
theorem illegalWordsRaiseIllegalCommand : Obligations.IllegalWordsRaiseIllegalCommand := by
  intro s w rest hw hfault hbad
  cases hd : decode w with
  | ok i =>
    have hlegal := (decode_eq_ok_iff_toNat w i).1 hd
    dsimp only at hbad
    omega
  | error e => exact step_of_illegal hfault hw hd

/-! ### APPLY and SAMPLE -/

/-- R204: a non-forced APPLY of an unusable configuration. -/
theorem applyOn_selected_of_unusable (P : Params) (mask : BitVec 4) {s : State}
    (hfault : s.status.fault = false) (hconf : s.configured = true)
    (hzero : configUnusable (selectConfig mask s.stg.value s.cfg) = true) :
    applyOn P false mask s = .next (raiseFault .configInvalid s) := by
  rw [applyOn, unlessFaulted_of_not hfault, if_neg Bool.false_ne_true, applySelected, if_pos hconf]
  exact congrArg _ (if_pos hzero)

/-- R170, R220: after RESET or a SET a block that was not faulted is not faulted. -/
theorem exec_reset_or_set_not_faulted {s : State} (hfault : s.status.fault = false)
    (v : BitVec 32) :
    ∀ i ∈ [Instr.reset, .setOffset v, .setInputRate v, .setRfBw v, .setFmDev v],
      ∃ t, exec i s = .next t ∧ t.status.fault = false := by
  have hset (k : Key) : ∃ t, setOn k v s = .next t ∧ t.status.fault = false :=
    ⟨_, setOn_of_not_faulted k v hfault, hfault⟩
  intro i hi
  simp only [List.mem_cons, List.not_mem_nil, or_false] at hi
  obtain rfl | rfl | rfl | rfl | rfl := hi
  · exact ⟨_, resetOn_eq _ s, rfl⟩
  · exact hset .offset
  · exact hset .inputRate
  · exact hset .rfBandwidth
  · exact hset .fmDeviation

/-- Settles O16: the first check of SAMPLE and of each form of APPLY, and that RESET and SET have
none. -/
theorem notConfiguredIsRaised : Obligations.NotConfiguredIsRaised := fun _ hfault =>
  ⟨fun hconf => ⟨fun i q => sampleOn_of_not_configured _ i q hfault hconf,
      fun mask => applyOn_selected_of_not_configured _ mask hfault hconf⟩,
    fun hvalid mask => applyOn_forced_of_not_staged _ mask hfault hvalid,
    exec_reset_or_set_not_faulted hfault⟩

/-- Settles O17: the new configuration is staging under force and the selected one otherwise, and
`configUnusable` tests its rate and its deviation alone. -/
theorem configInvalidIsRaised : Obligations.ConfigInvalidIsRaised := by
  intro force mask s hfault hfirst
  cases force with
  | true =>
    refine ⟨fun hzero => ?_, fun hrate hdev => ?_⟩
    · exact applyOn_forced_of_unusable _ mask hfault hfirst ((configUnusable_iff _).2 hzero)
    · have husable := (configUnusable_eq_false_iff s.stg.value).2 ⟨hrate, hdev⟩
      exact ⟨_, applyOn_forced_of_usable _ mask hfault hfirst husable, hfault, rfl, rfl, rfl, rfl⟩
  | false =>
    refine ⟨fun hzero => ?_, fun hrate hdev => ?_⟩
    · exact applyOn_selected_of_unusable _ mask hfault hfirst ((configUnusable_iff _).2 hzero)
    · have husable := (configUnusable_eq_false_iff (selectConfig mask s.stg.value s.cfg)).2
        ⟨hrate, hdev⟩
      refine ⟨_, applyOn_selected_of_usable _ mask hfault hfirst husable, ?_⟩
      rw [keyEffects_eq]
      exact ⟨hfault, rfl, rfl, rfl, rfl⟩

/-- Settles O21: each clause is a case of the command, its word decoded first. -/
theorem faultPriority : Obligations.FaultPriority := by
  intro s w rest hw after
  let taken : State := { s with commands := rest }
  refine ⟨fun hfault hreset => ?_, fun hfault => ?_⟩
  · exact step_of_faulted hfault hw fun hd => hreset (encode_eq_of_decode_eq_ok hd).symm
  have htaken : taken.status.fault = false := hfault
  have hstep (i : Instr) (hi : w = encode i) : step s = exec i taken :=
    step_of_decode_ok hw (hi ▸ decode_encode i)
  refine ⟨fun e hd => step_of_illegal hfault hw hd, fun mask hi => ?_, fun mask hi => ?_,
    fun i q hi => ?_⟩
  · rw [hstep _ hi]
    exact ⟨applyOn_forced_of_not_staged _ mask htaken, fun hvalid hzero =>
      applyOn_forced_of_unusable _ mask htaken hvalid ((configUnusable_iff _).2 hzero)⟩
  · rw [hstep _ hi]
    exact ⟨applyOn_selected_of_not_configured _ mask htaken,
      applyOn_selected_of_unusable _ mask htaken⟩
  · rw [hstep _ hi]
    refine ⟨sampleOn_of_not_configured _ i q htaken, fun hconf hrate => ?_⟩
    obtain ⟨-, -, -, -, hstatus, -⟩ := feed_fields Config.params (inputSample i q) taken hrate
    exact ⟨_, sampleOn_of_configured _ i q htaken hconf hrate, hstatus⟩

/-! ### Precision -/

/-- R201: a raised fault has a code of 1 to 3. -/
theorem FaultCode.code_range {c : FaultCode} (hc : c ≠ .none) :
    1 ≤ c.code.toNat ∧ c.code.toNat ≤ 3 := by
  cases c with
  | none => exact absurd rfl hc
  | illegalCommand | notConfigured | configInvalid => decide

/-- R205: a command on a block that is not faulted leaves it so, or is fault entry and nothing
else. -/
theorem exec_not_faulted_or_raiseFault {i : Instr} {s t : State} (hfault : s.status.fault = false)
    (hexec : exec i s = .next t) :
    t.status.fault = false ∨ ∃ c ≠ FaultCode.none, t = raiseFault c s := by
  cases i with
  | reset =>
    cases hexec
    exact .inl rfl
  | setOffset v | setInputRate v | setRfBw v | setFmDev v =>
    cases (setOn_of_not_faulted _ v hfault).symm.trans hexec
    exact .inl hfault
  | apply force mask =>
    obtain ⟨-, h⟩ | ⟨-, -, h⟩ | ⟨-, -, -, h⟩ | ⟨-, -, -, -, h⟩ | ⟨-, -, -, -, h⟩ :=
      applyOn_cases Config.params force mask s <;> cases h.symm.trans hexec
    · exact .inl hfault
    · exact .inr ⟨.notConfigured, nofun, rfl⟩
    · exact .inr ⟨.configInvalid, nofun, rfl⟩
    · exact .inl hfault
    · rw [keyEffects_eq]
      exact .inl hfault
  | sample i q =>
    obtain ⟨-, h⟩ | ⟨-, -, h⟩ | ⟨-, -, -, h⟩ | ⟨-, -, hrate, h⟩ :=
      sampleOn_cases Config.params i q s <;> cases h.symm.trans hexec
    · exact .inl hfault
    · exact .inr ⟨.notConfigured, nofun, rfl⟩
    · obtain ⟨-, -, -, -, hstatus, -⟩ := feed_fields Config.params (inputSample i q) s hrate
      exact .inl (hstatus ▸ hfault)

/-- Settles O18: a step that faults takes a word and is fault entry, legal or not. -/
theorem faultsArePrecise : Obligations.FaultsArePrecise := by
  intro s t hfault hstep ht
  obtain ⟨-, h⟩ | ⟨w, rest, i, hw, -, h⟩ | ⟨w, rest, e, hw, hd, -⟩ := step_cases s
  · cases h.symm.trans hstep
    exact absurd (hfault.symm.trans ht) Bool.false_ne_true
  · obtain hok | ⟨c, hc, rfl⟩ :=
      exec_not_faulted_or_raiseFault (s := { s with commands := rest }) hfault (h.symm.trans hstep)
    · exact absurd (hok.symm.trans ht) Bool.false_ne_true
    · obtain ⟨hlow, hhigh⟩ := FaultCode.code_range hc
      exact ⟨w, rest, c.code, hw, hlow, hhigh, rfl⟩
  · cases (step_of_illegal hfault hw hd).symm.trans hstep
    exact ⟨w, rest, 1, hw, by decide, by decide, rfl⟩

/-! ### The signal path -/

/-- R159, R192: a command only extends the output traces, since it goes the same way with empty
ones. -/
theorem exec_extends_outputs {i : Instr} {s t : State} (hexec : exec i s = .next t) :
    s.packetOut <+: t.packetOut ∧ s.scopeOut <+: t.scopeOut ∧ s.analyzerOut <+: t.analyzerOut := by
  rw [← afterOutputs_forgetOutputs s, exec_afterOutputs] at hexec
  generalize exec i (forgetOutputs s) = new at hexec
  cases new with
  | next u =>
    cases hexec
    exact ⟨List.prefix_append _ _, List.prefix_append _ _, List.prefix_append _ _⟩
  | fault | refused => exact nomatch hexec

/-- Settles O24: a configured block performs SAMPLE, whose frame is `feed_fields`. -/
theorem signalPathNeverFaults : Obligations.SignalPathNeverFaults := by
  intro i q s hfault hconf hrate
  have hexec : exec (.sample i q) s = .next (feed Config.params (inputSample i q) s) :=
    sampleOn_of_configured _ i q hfault hconf hrate
  obtain ⟨hstg, hcfg, hconfigured, hderived, hstatus, hcommands, -⟩ :=
    feed_fields Config.params (inputSample i q) s hrate
  exact ⟨_, hexec, hstatus, hstg, hcfg, hconfigured, hderived, hcommands, exec_extends_outputs hexec⟩

end Sys2Proof.Machine
end

section
/-!
PROOF. RESET (R220): the values it writes are those at power-on, so a second RESET finds the state it
would leave.
-/

namespace Sys2Proof.Machine

/-- A state whose tap buffers have their lengths, and whose staging is all valid if it is configured,
agrees with itself wherever it is defined. -/
theorem SameWhereDefined.refl {P : Params} {s : State}
    (hstaged : s.configured = true → allStaged s.stg.valid = true)
    (hscope : s.scope.buf.length = P.scopeBatch) (hana : s.ana.buf.length = P.analyzerBatch) :
    SameWhereDefined P s s where
  rest := rfl
  valid := rfl
  staged _ _ := rfl
  active hconf := ⟨rfl, rfl, hstaged hconf⟩
  scopeCnt := rfl
  scopeLen := ⟨hscope, hscope⟩
  scopeBuf := rfl
  anaCnt := rfl
  anaLen := ⟨hana, hana⟩
  anaBuf := rfl

/-- RESET writes the same values whatever the state holds, so it keeps the state it leaves (R220). -/
theorem resetOn_of_resetOn {P : Params} {s t : State} (h : resetOn P s = .next t) :
    resetOn P t = .next t := by
  cases (resetOn_eq P s).symm.trans h
  exact resetOn_eq P _

/-- After RESET the block is not configured and the tap buffers have their lengths, so the state is
its own equal wherever it is defined (R220). -/
theorem sameWhereDefined_of_resetOn {P : Params} {s t : State} (h : resetOn P s = .next t) :
    SameWhereDefined P t t := by
  cases (resetOn_eq P s).symm.trans h
  exact .refl nofun (by simp [State.powerOn]) (by simp [State.powerOn])

/-- The RESET word of R76, and no other, decodes to RESET. -/
theorem decode_eq_reset_iff (w : Word) : decode w = .ok .reset ↔ w = 0x0100000000000000#64 :=
  ⟨fun h => (encode_eq_of_decode_eq_ok h).symm, fun h => h ▸ decode_encode .reset⟩

/-- Settles O8: RESET answers the power-on state with the ports kept (`resetOn_eq`), and a second
RESET answers that same state. -/
theorem resetWritesTheResetValues : Obligations.ResetWritesTheResetValues := by
  refine ⟨decode_eq_reset_iff, fun s => ⟨_, resetOn_eq Config.params s, ?_⟩⟩
  have hagain := resetOn_of_resetOn (resetOn_eq Config.params s)
  have hsame := sameWhereDefined_of_resetOn (resetOn_eq Config.params s)
  exact ⟨rfl, rfl, rfl, rfl, rfl, rfl, rfl, rfl, rfl, rfl, rfl, rfl, rfl, rfl, rfl, rfl, rfl, rfl,
    _, hagain, hsame⟩

end Sys2Proof.Machine
end

section
/-!
PROOF. The encoding read both ways (R78, R79), and the assembler's operands (R81).
-/

namespace Sys2Proof

/-- Settles O2: this is `decode_encode`. -/
theorem decodeOfEncodeIsTheCommand : Obligations.DecodeOfEncodeIsTheCommand := decode_encode

/-- Settles O3: this is `encode_eq_of_decode_eq_ok`. -/
theorem encodeOfDecodeIsTheWord : Obligations.EncodeOfDecodeIsTheWord :=
  fun _ _ => encode_eq_of_decode_eq_ok

/-! ### The assembler -/

/-- R81: an assembly command that stands for one command, operands in range, is that command's word. -/
theorem assemble_of_wellFormed {c : AsmCommand} {i : Instr} (hexpand : c.expand = [i])
    (hc : c.wellFormed = true) : assemble c = some [encode i] := by
  rw [assemble, if_pos hc, hexpand]
  rfl

/-- R81: an operand out of range is refused. -/
theorem assemble_of_not_wellFormed {c : AsmCommand} (hc : ¬c.wellFormed = true) :
    assemble c = none :=
  if_neg hc

/-- R81: an unsigned operand in its range is written in its field unchanged. -/
theorem toNat_ofInt_of_range {n : ℕ} {v : ℤ} (hlow : 0 ≤ v) (hhigh : v < 2 ^ n) :
    ((BitVec.ofInt n v).toNat : ℤ) = v := by
  rw [BitVec.toNat_ofInt, Int.emod_eq_of_lt hlow (by exact_mod_cast hhigh), Int.toNat_of_nonneg hlow]

/-- R81: so are the two signed operands of SAMPLE (R75). -/
theorem inputSample_ofInt {i q : ℤ} (hi : -(2 ^ 23) ≤ i ∧ i < 2 ^ 23)
    (hq : -(2 ^ 23) ≤ q ∧ q < 2 ^ 23) :
    Machine.inputSample (BitVec.ofInt 24 i) (BitVec.ofInt 24 q) = CVal.ofInts i q := by
  rw [Machine.inputSample, BitVec.toInt_ofInt_eq_self (by decide) hi.1 hi.2,
    BitVec.toInt_ofInt_eq_self (by decide) hq.1 hq.2]

/-- R81: the range check of SAMPLE is that of both components. -/
theorem wellFormed_sample_iff (i q : ℤ) : (AsmCommand.sample i q).wellFormed = true ↔
    -(2 ^ 23) ≤ i ∧ i < 2 ^ 23 ∧ -(2 ^ 23) ≤ q ∧ q < 2 ^ 23 := by
  rw [AsmCommand.wellFormed, Bool.and_eq_true, inS24, inS24, decide_eq_true_iff, decide_eq_true_iff,
    and_assoc]

/-- Settles O57: the range check is that of each operand, and an operand in range fits its field. -/
theorem assemblerNeverWraps : Obligations.AssemblerNeverWraps := by
  refine ⟨fun hz => ⟨fun hin => ?_, fun hout => ?_⟩, fun hz => ⟨fun hin => ?_, fun hout => ?_⟩,
    fun m => ⟨fun hin => ?_, fun hout => ?_⟩, fun i q => ⟨fun hin => ?_, fun hout => ?_⟩⟩
  · exact ⟨_, _, assemble_of_wellFormed rfl (decide_eq_true hin), decode_encode _,
      BitVec.toInt_ofInt_eq_self (by decide) hin.1 hin.2⟩
  · exact assemble_of_not_wellFormed (mt of_decide_eq_true hout)
  · have hword := toNat_ofInt_of_range hin.1 hin.2
    exact ⟨⟨_, _, assemble_of_wellFormed rfl (decide_eq_true hin), decode_encode _, hword⟩,
      ⟨_, _, assemble_of_wellFormed rfl (decide_eq_true hin), decode_encode _, hword⟩,
      ⟨_, _, assemble_of_wellFormed rfl (decide_eq_true hin), decode_encode _, hword⟩⟩
  · have hrefused := mt of_decide_eq_true hout
    exact ⟨assemble_of_not_wellFormed hrefused, assemble_of_not_wellFormed hrefused,
      assemble_of_not_wellFormed hrefused⟩
  · exact ⟨_, _, assemble_of_wellFormed rfl (decide_eq_true hin), decode_encode _,
      toNat_ofInt_of_range hin.1 hin.2⟩
  · exact assemble_of_not_wellFormed (mt of_decide_eq_true hout)
  · have hwf := (wellFormed_sample_iff i q).2 hin
    obtain ⟨hi, hi', hq, hq'⟩ := hin
    exact ⟨_, _, _, assemble_of_wellFormed rfl hwf, decode_encode _,
      inputSample_ofInt ⟨hi, hi'⟩ ⟨hq, hq'⟩⟩
  · exact assemble_of_not_wellFormed (mt (wellFormed_sample_iff i q).1 hout)

end Sys2Proof
end

section
/-!
PROOF. The invariant of R41: it holds at power-on, every command keeps it, and where it holds every
command completes, since SAMPLE at a zero rate is the only stop.
-/

namespace Sys2Proof.Machine

/-! ### What can stop -/

/-- R204: the states in which SAMPLE stops. -/
def StopsAtZeroRate (i : Instr) (s : State) : Prop :=
  (∃ re im, i = .sample re im) ∧ s.status.fault = false ∧ s.configured = true ∧ s.cfg.inputRate = 0

/-- A command answers a next state, or it is SAMPLE at a zero rate. -/
theorem exec_next_or_stops (i : Instr) (s : State) :
    (∃ t, exec i s = .next t) ∨ (exec i s = .fault .inputRateZero ∧ StopsAtZeroRate i s) := by
  cases i with
  | reset => exact .inl ⟨_, resetOn_eq _ s⟩
  | setOffset v | setInputRate v | setRfBw v | setFmDev v =>
    obtain ⟨-, h⟩ | ⟨-, h⟩ := setOn_cases _ v s <;> exact .inl ⟨_, h⟩
  | apply force mask =>
    obtain ⟨-, h⟩ | ⟨-, -, h⟩ | ⟨-, -, -, h⟩ | ⟨-, -, -, -, h⟩ | ⟨-, -, -, -, h⟩ :=
      applyOn_cases Config.params force mask s <;> exact .inl ⟨_, h⟩
  | sample re im =>
    obtain ⟨-, h⟩ | ⟨-, -, h⟩ | ⟨hfault, hconf, hrate, h⟩ | ⟨-, -, -, h⟩ :=
      sampleOn_cases Config.params re im s
    · exact .inl ⟨_, h⟩
    · exact .inl ⟨_, h⟩
    · exact .inr ⟨h, ⟨re, im, rfl⟩, hfault, hconf, hrate⟩
    · exact .inl ⟨_, h⟩

/-- R204: SAMPLE at a zero rate. -/
theorem exec_of_stopsAtZeroRate {i : Instr} {s : State} (h : StopsAtZeroRate i s) :
    exec i s = .fault .inputRateZero := by
  obtain ⟨⟨re, im, rfl⟩, hfault, hconf, hrate⟩ := h
  show sampleOn _ re im s = _
  rw [sampleOn, unlessFaulted_of_not hfault, if_pos hconf, if_pos hrate]

/-- Settles O25: a stop is the second case of `exec_next_or_stops`. -/
theorem onlySampleAtZeroRateStops : Obligations.OnlySampleAtZeroRateStops := by
  intro i s
  refine ⟨fun r hr => ?_, fun f => ⟨fun hf => ?_, ?_⟩⟩
  · obtain ⟨t, h⟩ | ⟨h, -⟩ := exec_next_or_stops i s <;> exact nomatch h.symm.trans hr
  · obtain ⟨t, h⟩ | ⟨h, hstops⟩ := exec_next_or_stops i s
    · exact nomatch h.symm.trans hf
    · cases h.symm.trans hf
      exact ⟨rfl, hstops⟩
  · rintro ⟨rfl, hstops⟩
    exact exec_of_stopsAtZeroRate hstops

/-! ### Power-on -/

/-- R40, R221: at power-on, with any words, draws and events at the ports. -/
theorem Inv.powerOn (P : Params) (ports : State) :
    Inv P { State.powerOn P with
      commands := ports.commands, tsDraws := ports.tsDraws, packetOut := ports.packetOut,
      scopeOut := ports.scopeOut, analyzerOut := ports.analyzerOut } := by
  have hpipeline : PipelineLegal P (resetPipeline P { State.powerOn P with
      commands := ports.commands, tsDraws := ports.tsDraws, packetOut := ports.packetOut,
      scopeOut := ports.scopeOut, analyzerOut := ports.analyzerOut }) :=
    .reset _ (by simp [State.powerOn]) (by simp [State.powerOn]) (by simp [State.powerOn])
      (by simp [State.powerOn])
  exact (inv_iff P _).2 ⟨.inr ⟨rfl, rfl⟩, hpipeline,
    Int.natCast_pos.2 (Params.internalRate_pos P), nofun⟩

/-- Settles O47: power-on, with nothing at the ports. -/
theorem resetMeetsTheInvariant : Obligations.ResetMeetsTheInvariant :=
  Inv.powerOn Config.params State.reset

/-! ### The commands -/

section Commands
variable {P : Params} {s : State}

/-- R5: taking a word from the stream. -/
theorem Inv.take (h : Inv P s) (rest : List Word) : Inv P { s with commands := rest } :=
  { h with
    arrays := { h.arrays with }
    counters := { h.counters with }
    config := fun hconf => { h.config hconf with } }

/-- R205: fault entry. -/
theorem Inv.raiseFault (h : Inv P s) {c : FaultCode} (hc : c ≠ .none) :
    Inv P (raiseFault c s) :=
  { status := .inl ⟨rfl, FaultCode.code_range hc⟩
    arrays := { h.arrays with }
    counters := { h.counters with }
    frame := h.frame
    config := fun hconf => { h.config hconf with } }

/-- R170: SET changes no valid bit of a configured block. -/
theorem Inv.stageKey (h : Inv P s) (k : Key) (v : BitVec 32) : Inv P (stageKey k v s) :=
  { status := h.status
    arrays := { h.arrays with }
    counters := { h.counters with }
    frame := h.frame
    config := fun hconf =>
      { h.config hconf with
        staged := by
          have hvalid := (allStaged_iff_eq _).1 (h.config hconf).staged
          show allStaged (setValid s.stg.valid k) = true
          rw [hvalid, setValid_fifteen]
          rfl } }

/-- R204: a usable configuration has a rate above 0. -/
theorem rate_pos_of_usable {c : ChannelConfig} (h : configUnusable c = false) :
    0 < unsignedHz c.inputRate := by
  obtain ⟨hrate, -⟩ := (configUnusable_eq_false_iff c).1 h
  rw [unsignedHz]
  bv_omega

/-- R175: FORCE_REBUILD from a staged, usable configuration. -/
theorem Inv.forceRebuild (h : Inv P s) (hstaged : allStaged s.stg.valid = true)
    (husable : configUnusable s.stg.value = false) :
    Inv P (forceRebuild P { s with cfg := s.stg.value, configured := true }) := by
  have hpipeline : PipelineLegal P
      (Machine.forceRebuild P { s with cfg := s.stg.value, configured := true }) :=
    .reset _ (by simp [toneBuild, toneTable]) (by simp [toneBuild, toneTable]) h.arrays.scopeBuf
      h.arrays.anaBuf
  exact (inv_iff P _).2 ⟨h.status, hpipeline, Int.natCast_pos.2 (Params.internalRate_pos P), fun _ =>
    { staged := hstaged
      usable := husable
      derived := derivedCurrent_forceRebuild P _
      phase := rate_pos_of_usable husable
      timing := Int.ofNat_le.2 (le_max_right _ _) }⟩

/-- R177: a key that is not changed has the same value in the selected configuration. -/
theorem getKey_eq_of_not_changed {mask : BitVec 4} {stg cfg : ChannelConfig} {k : Key}
    (h : ¬isChanged mask (selectConfig mask stg cfg) cfg k = true) :
    getKey (selectConfig mask stg cfg) k = getKey cfg k := by
  rw [getKey_selectConfig]
  exact not_not.1 (mt (isChanged_selectConfig_iff mask stg cfg k).2 h)

/-- R172, R176: a non-forced APPLY that takes effect. -/
def commitSelected (P : Params) (mask : BitVec 4) (s : State) : State :=
  keyEffects P (isChanged mask (selectConfig mask s.stg.value s.cfg) s.cfg)
    { s with cfg := selectConfig mask s.stg.value s.cfg }

/-- R176: KEY_EFFECTS brings the derived values into step with the selected configuration. -/
theorem DerivedCurrent.commitSelected (h : DerivedCurrent P s.cfg s.derived) (mask : BitVec 4) :
    DerivedCurrent P (selectConfig mask s.stg.value s.cfg) (commitSelected P mask s).derived := by
  have same {k : Key} := getKey_eq_of_not_changed (mask := mask) (stg := s.stg.value) (cfg := s.cfg)
    (k := k)
  rw [Machine.commitSelected, keyEffects_eq]
  refine ⟨ite_eq_left_iff.2 fun hch => ?_, ite_eq_left_iff.2 fun hch => ?_,
    ite_eq_left_iff.2 fun hch => ?_, h.tone0, h.tone1⟩
  · rw [Bool.or_eq_true, not_or] at hch
    have hoffset : (selectConfig mask s.stg.value s.cfg).offset = s.cfg.offset := same hch.1
    have hrate : (selectConfig mask s.stg.value s.cfg).inputRate = s.cfg.inputRate := same hch.2
    simp only [h.step, ncoStepOf, hoffset, hrate]
  · have hdev : (selectConfig mask s.stg.value s.cfg).fmDeviation = s.cfg.fmDeviation := same hch
    simp only [h.scale, discScaleOf, hdev]
  · rw [Bool.or_eq_true, not_or] at hch
    have hrate : (selectConfig mask s.stg.value s.cfg).inputRate = s.cfg.inputRate := same hch.1
    have hbw : (selectConfig mask s.stg.value s.cfg).rfBandwidth = s.cfg.rfBandwidth := same hch.2
    simp only [h.kernel, rcKernelOf, hrate, hbw]

/-- R172, R176: a usable selected configuration takes effect. -/
theorem Inv.commitSelected (h : Inv P s) (hconf : s.configured = true) (mask : BitVec 4)
    (husable : configUnusable (selectConfig mask s.stg.value s.cfg) = false) :
    Inv P (commitSelected P mask s) := by
  have hc := h.config hconf
  have hderived := hc.derived.commitSelected mask
  have hFo := Params.internalRate_pos P
  have same : ¬isChanged mask (selectConfig mask s.stg.value s.cfg) s.cfg .inputRate = true →
      (selectConfig mask s.stg.value s.cfg).inputRate = s.cfg.inputRate :=
    getKey_eq_of_not_changed
  rw [Machine.commitSelected, keyEffects_eq] at hderived ⊢
  refine
    { status := h.status
      arrays := { h.arrays with }
      counters := { h.counters with timing := ?_ }
      frame := h.frame
      config := fun _ =>
        { staged := hc.staged, usable := husable, derived := hderived, phase := ?_, timing := ?_ } }
  all_goals dsimp only; split
  · exact Int.natCast_pos.2 hFo
  · exact h.counters.timing
  · exact rate_pos_of_usable husable
  · rw [same ‹_›]
    exact hc.phase
  · exact Int.ofNat_le.2 (le_max_right _ _)
  · rw [same ‹_›]
    exact hc.timing

/-- R95: SAMPLE on a configured block. -/
theorem Inv.feed (h : Inv P s) (hconf : s.configured = true) (hrate : s.cfg.inputRate ≠ 0)
    (x : CVal) : Inv P (feed P x s) := by
  obtain ⟨hstatus, hpipeline, htiming, -⟩ := (inv_iff P s).1 h
  have hc := h.config hconf
  obtain ⟨hpos, hmax⟩ := feed_acc P x s hrate
  obtain ⟨hstg, hcfg, -, hderived, hstatus', -, hphase⟩ := feed_fields P x s hrate
  refine (inv_iff P _).2 ⟨hstatus' ▸ hstatus, hpipeline.feed x hrate, hpos, fun _ => ?_⟩
  have htime := hc.timing
  exact
    { staged := hstg ▸ hc.staged
      usable := hcfg ▸ hc.usable
      derived := by rw [hcfg, hderived]; exact hc.derived
      phase := by
        rw [hphase, hcfg]
        exact Nat.mod_lt _ (rate_pos_of_usable hc.usable)
      timing := by
        rw [hcfg]
        omega }

/-- R171: APPLY. -/
theorem Inv.applyOn (h : Inv P s) {force : Bool} {mask : BitVec 4} {t : State}
    (happly : applyOn P force mask s = .next t) : Inv P t := by
  obtain ⟨-, e⟩ | ⟨-, -, e⟩ | ⟨-, -, -, e⟩ | ⟨-, -, hstaged, husable, e⟩ |
    ⟨-, -, hconf, husable, e⟩ := applyOn_cases P force mask s <;> cases e.symm.trans happly
  · exact h
  · exact h.raiseFault nofun
  · exact h.raiseFault nofun
  · exact h.forceRebuild hstaged husable
  · exact h.commitSelected hconf mask husable

/-- R95: SAMPLE. -/
theorem Inv.sampleOn (h : Inv P s) {i q : BitVec 24} {t : State}
    (hsample : sampleOn P i q s = .next t) : Inv P t := by
  obtain ⟨-, e⟩ | ⟨-, -, e⟩ | ⟨-, -, -, e⟩ | ⟨-, hconf, hrate, e⟩ := sampleOn_cases P i q s <;>
    cases e.symm.trans hsample
  · exact h
  · exact h.raiseFault nofun
  · exact h.feed hconf hrate _

/-- R170: SET. -/
theorem Inv.setOn (h : Inv P s) {k : Key} {v : BitVec 32} {t : State}
    (hset : setOn k v s = .next t) : Inv P t := by
  obtain ⟨-, e⟩ | ⟨-, e⟩ := setOn_cases k v s <;> cases e.symm.trans hset
  · exact h
  · exact h.stageKey k v

/-- R41: every command. -/
theorem Inv.execOn (h : Inv P s) {i : Instr} {t : State} (hexec : execOn P i s = .next t) :
    Inv P t := by
  cases i with
  | reset =>
    cases hexec
    exact Inv.powerOn P s
  | setOffset v | setInputRate v | setRfBw v | setFmDev v => exact h.setOn hexec
  | apply force mask => exact h.applyOn hexec
  | sample i q => exact h.sampleOn hexec

/-- R203, R206: an illegal word. -/
theorem Inv.illegalWord (h : Inv P s) {t : State} (hill : illegalWord s = .next t) : Inv P t := by
  cases hfault : s.status.fault with
  | true =>
    cases (illegalWord_of_faulted hfault).symm.trans hill
    exact h
  | false =>
    cases (illegalWord_of_not_faulted hfault).symm.trans hill
    exact h.raiseFault nofun

end Commands

/-- Settles O48: taking the word keeps the invariant, and so does the command or the fault entry. -/
theorem stepKeepsTheInvariant : Obligations.StepKeepsTheInvariant := by
  intro s t h hstep
  obtain ⟨-, e⟩ | ⟨w, rest, i, -, -, e⟩ | ⟨w, rest, err, -, -, e⟩ := step_cases s
  · cases e.symm.trans hstep
    exact h
  · have hexec := (exec_eq_execOn i _).symm.trans (e.symm.trans hstep)
    exact (h.take rest).execOn hexec
  · exact (h.take rest).illegalWord (e.symm.trans hstep)

/-- R231: under the invariant no command stops, for a configured block has a rate above 0. -/
theorem Inv.exec_next {s : State} (h : Inv Config.params s) (i : Instr) :
    ∃ t, exec i s = .next t := by
  obtain hnext | ⟨-, -, -, hconf, hrate⟩ := exec_next_or_stops i s
  · exact hnext
  · obtain ⟨hne, -⟩ := (configUnusable_eq_false_iff s.cfg).1 (h.config hconf).usable
    exact absurd hrate hne

/-- Settles O49: a word that decodes runs its command, and an illegal one is ignored or faults. -/
theorem everyCommandCompletes : Obligations.EveryCommandCompletes := by
  intro s h
  obtain ⟨-, e⟩ | ⟨w, rest, i, -, -, e⟩ | ⟨w, rest, err, -, -, e⟩ := step_cases s <;> rw [e]
  · exact ⟨s, rfl⟩
  · exact (h.take rest).exec_next i
  · cases hfault : s.status.fault with
    | true => exact ⟨_, illegalWord_of_faulted (s := { s with commands := rest }) hfault⟩
    | false => exact ⟨_, illegalWord_of_not_faulted (s := { s with commands := rest }) hfault⟩

end Sys2Proof.Machine
end

section
/-!
PROOF. Unspecified elements are never read (R24, R40): a configured block is defined but for the tap
slots it has not filled, which a batch overwrites before it is emitted; before that only staging,
RESET and fault entry write anything, and a forced APPLY reads no key that is not staged.
-/

namespace Sys2Proof.Machine

/-! ### Batch buffers that agree where they are filled -/

/-- Two buffers of `n` slots with the same count and the same emissions, equal in the slots filled. -/
structure SameBatch {α : Type} (n : ℕ) (b c : BatchBuffer α) : Prop where
  cnt : b.cnt = c.cnt
  out : b.out = c.out
  len : b.buf.length = n ∧ c.buf.length = n
  filled : b.buf.take b.cnt = c.buf.take c.cnt

/-- The slots filled after a write to the next slot. -/
theorem take_succ_set {α : Type} (buf : List α) (cnt : ℕ) (v : α) :
    (buf.set cnt v).take (cnt + 1) = buf.take cnt ++ if cnt < buf.length then [v] else [] := by
  rw [List.take_add_one, List.take_set_of_le le_rfl]
  congr 1
  split
  · rw [List.getElem?_set_self ‹_›]
    rfl
  · rw [List.getElem?_eq_none (by simpa using not_lt.1 ‹¬_›)]
    rfl

/-- A push fills the next slot of both; a full buffer is the list of its filled slots. -/
theorem SameBatch.push {α : Type} {n : ℕ} {b c : BatchBuffer α} (h : SameBatch n b c) (v : α) :
    SameBatch n (b.push n v) (c.push n v) := by
  obtain ⟨buf, cnt, out⟩ := b
  obtain ⟨buf', cnt', out'⟩ := c
  obtain ⟨rfl : cnt = cnt', rfl : out = out', ⟨hb, hc⟩, hfilled⟩ := h
  have hlen : (buf.set cnt v).length = n ∧ (buf'.set cnt v).length = n := by
    rw [List.length_set, List.length_set]
    exact ⟨hb, hc⟩
  have hnext : (buf.set cnt v).take (cnt + 1) = (buf'.set cnt v).take (cnt + 1) := by
    rw [take_succ_set, take_succ_set, hb, hc]
    exact congrArg (· ++ _) hfilled
  by_cases hfull : cnt + 1 = n
  · have hbatch : buf.set cnt v = buf'.set cnt v := by
      rwa [hfull, List.take_of_length_le hlen.1.le, List.take_of_length_le hlen.2.le] at hnext
    simp only [BatchBuffer.push, if_pos hfull, hbatch]
    exact ⟨rfl, rfl, ⟨hlen.2, hlen.2⟩, rfl⟩
  · simp only [BatchBuffer.push, if_neg hfull]
    exact ⟨rfl, rfl, hlen, hnext⟩

/-! ### Blocks that differ in tap slots only -/

/-- The two blocks are equal but for tap slots that are not filled. -/
structure SameButSlots (P : Params) (s t : State) : Prop where
  taps : SameButTaps s t
  level : s.level = t.level
  scope : SameBatch P.scopeBatch (scopeTap s) (scopeTap t)
  ana : SameBatch P.analyzerBatch (analyzerTap s) (analyzerTap t)

/-- The tap parameters of the instance itself. -/
def ownTaps (P : Params) : TapParams P :=
  ⟨P.levelN, P.scopeBatch, P.analyzerBatch, P.analyzerScale, P.truncate⟩

section Slots
variable {P : Params} {s t : State}

/-- R186: the records of the two blocks are the same. -/
theorem SameButSlots.recordOf (h : SameButSlots P s t) (ci : CVal) :
    recordOf P s ci = recordOf P t ci := by
  have hdone : SameButTaps (process P ci s) (process P ci t) :=
    process_sameButTaps (ownTaps P) h.taps ci
  have hfm : discFreq P s ci = discFreq P t ci := by
    obtain ⟨o, rfl⟩ := h.taps.exists_eq_withTaps
    rfl
  rw [Machine.recordOf, Machine.recordOf, hfm]
  obtain ⟨o, ho⟩ := hdone.exists_eq_withTaps
  rw [ho]
  rfl

/-- R104: one internal sample. -/
theorem SameButSlots.process (h : SameButSlots P s t) (ci : CVal) :
    SameButSlots P (process P ci s) (process P ci t) := by
  have hfm : discFreq P s ci = discFreq P t ci := by
    obtain ⟨o, rfl⟩ := h.taps.exists_eq_withTaps
    rfl
  refine ⟨process_sameButTaps (ownTaps P) h.taps ci, ?_, ?_, ?_⟩
  · simp only [process_fields, h.level]
  · rw [scopeTap_process, scopeTap_process, h.recordOf]
    exact h.scope.push _
  · rw [analyzerTap_process, analyzerTap_process, hfm]
    exact h.ana.push _

/-- A function that neither reads nor writes the taps keeps the relation. -/
theorem SameButSlots.map {f : State → State} (hf : ∀ o u, f (withTaps o u) = withTaps o (f u))
    (h : SameButSlots P s t) : SameButSlots P (f s) (f t) := by
  have hkeep (u : State) : f u = withTaps u (f u) := hf u u
  refine ⟨h.taps.map hf, ?_, ?_, ?_⟩ <;> rw [hkeep s, hkeep t]
  · exact h.level
  · exact h.scope
  · exact h.ana

/-- R100, R101: one output of the rate converter. -/
theorem SameButSlots.resampleOne (h : SameButSlots P s t) :
    SameButSlots P (resampleOne P s) (resampleOne P t) := by
  have hdone := h.process (P.num.rcFn s.derived.rcKernelCfg s.rc.hist (outputDelay P s))
  obtain ⟨o, rfl⟩ := h.taps.exists_eq_withTaps
  exact hdone.map
    (f := fun u => { u with rc := { u.rc with acc := u.rc.acc + unsignedHz u.cfg.inputRate } })
    fun _ _ => rfl

/-- R100: the loop goes round as often on both blocks. -/
theorem SameButSlots.resampleLoop (n : ℕ) (h : SameButSlots P s t) :
    SameButSlots P (resampleLoop P n s) (resampleLoop P n t) := by
  induction n generalizing s t with
  | zero => exact h
  | succ n ih =>
    have hrc : s.rc = t.rc := by
      obtain ⟨o, rfl⟩ := h.taps.exists_eq_withTaps
      rfl
    rw [Machine.resampleLoop, Machine.resampleLoop, hrc]
    split
    · exact ih h.resampleOne
    · exact h

/-- R95: SAMPLE's effect on a configured block. -/
theorem SameButSlots.feed (h : SameButSlots P s t) (x : CVal) :
    SameButSlots P (feed P x s) (feed P x t) := by
  have hready := h.map
    (f := fun u => consumeInput P (pushMixed (mixed P x u) (advancePhase u))) fun _ _ => rfl
  have hloop := hready.resampleLoop
    (loopBound (s.rc.acc - P.internalRate) (unsignedHz s.cfg.inputRate))
  obtain ⟨o, rfl⟩ := h.taps.exists_eq_withTaps
  exact hloop

/-- R172, R176: a non-forced APPLY that takes effect. -/
theorem SameButSlots.commitSelected (h : SameButSlots P s t) (mask : BitVec 4) :
    SameButSlots P (commitSelected P mask s) (commitSelected P mask t) :=
  h.map fun o u => keyEffects_withTaps P (isChanged mask (selectConfig mask u.stg.value u.cfg) u.cfg)
    o { u with cfg := selectConfig mask u.stg.value u.cfg }

/-! ### Blocks that agree where they are defined -/

/-- R24, R40: equal but for slots not filled is equal wherever defined. -/
theorem SameButSlots.sameWhereDefined (h : SameButSlots P s t)
    (hstaged : s.configured = true → allStaged s.stg.valid = true) : SameWhereDefined P s t := by
  obtain ⟨htaps, hlevel, hscope, hana⟩ := h
  have hsame : s.stg = t.stg ∧ s.cfg = t.cfg ∧ s.derived = t.derived := by
    obtain ⟨o, rfl⟩ := htaps.exists_eq_withTaps
    exact ⟨rfl, rfl, rfl⟩
  obtain ⟨hstg, hcfg, hderived⟩ := hsame
  refine
    { rest := ?_
      valid := congrArg Staging.valid hstg
      staged := fun k _ => by rw [hstg]
      active := fun hconf => ⟨hcfg, hderived, hstaged hconf⟩
      scopeCnt := hscope.cnt, scopeLen := hscope.len, scopeBuf := hscope.filled
      anaCnt := hana.cnt, anaLen := hana.len, anaBuf := hana.filled }
  have hscopeOut : s.scopeOut = t.scopeOut := hscope.out
  have hanaOut : s.analyzerOut = t.analyzerOut := hana.out
  obtain ⟨o, rfl⟩ := htaps.exists_eq_withTaps
  simp only [withTaps] at *
  rw [hlevel, hscopeOut, hanaOut]

/-- R40: the elements that are always defined. -/
theorem SameWhereDefined.defined (h : SameWhereDefined P s t) :
    s.configured = t.configured ∧ s.level = t.level ∧ s.status = t.status ∧
      s.packetOut = t.packetOut ∧ s.scopeOut = t.scopeOut ∧ s.analyzerOut = t.analyzerOut := by
  rw [← h.rest]
  exact ⟨rfl, rfl, rfl, rfl, rfl, rfl⟩

/-- R22: where all four keys are staged, staging is defined. -/
theorem SameWhereDefined.stg_of_allStaged (h : SameWhereDefined P s t)
    (hstaged : allStaged s.stg.valid = true) : s.stg = t.stg := by
  have hvalue : s.stg.value = t.stg.value :=
    channelConfig_ext fun k => h.staged k ((allStaged_iff _).1 hstaged k)
  have hvalid := h.valid
  cases hs : s.stg
  cases ht : t.stg
  simp_all

/-- R24: a configured block is defined but for the slots not filled. -/
theorem SameWhereDefined.sameButSlots (h : SameWhereDefined P s t) (hconf : s.configured = true) :
    SameButSlots P s t := by
  obtain ⟨hcfg, hderived, hstaged⟩ := h.active hconf
  have hstg := h.stg_of_allStaged hstaged
  obtain ⟨-, hlevel, -, -, hscopeOut, hanaOut⟩ := h.defined
  refine ⟨?_, hlevel, ⟨h.scopeCnt, hscopeOut, h.scopeLen, h.scopeBuf⟩,
    ⟨h.anaCnt, hanaOut, h.anaLen, h.anaBuf⟩⟩
  have hrest := h.rest
  rw [← hstg, ← hcfg, ← hderived] at hrest
  rw [← hrest]
  rfl

/-- R205: fault entry. -/
theorem SameWhereDefined.raiseFault (h : SameWhereDefined P s t) (c : FaultCode) :
    SameWhereDefined P (raiseFault c s) (raiseFault c t) :=
  { h with rest := congrArg (Machine.raiseFault c) h.rest }

/-- R170: SET defines its key on both sides. -/
theorem SameWhereDefined.stageKey (h : SameWhereDefined P s t) (k : Key) (v : BitVec 32) :
    SameWhereDefined P (stageKey k v s) (stageKey k v t) := by
  refine
    { h with
      rest := ?_
      valid := congrArg (setValid · k) h.valid
      staged := fun j hj => ?_
      active := fun hconf => ?_ }
  · rw [← h.rest]
    rfl
  · obtain rfl | hne := eq_or_ne j k
    · simp only [stageKey_fields, getKey_putKey_self]
    · simp only [stageKey_fields, setValid_getLsbD, beq_eq_false_iff_ne.2 hne, Bool.or_false,
        getKey_putKey_of_ne _ _ hne] at hj ⊢
      exact h.staged j hj
  · obtain ⟨hcfg, hderived, hstaged⟩ := h.active hconf
    refine ⟨hcfg, hderived, ?_⟩
    show allStaged (setValid s.stg.valid k) = true
    rw [(allStaged_iff_eq _).1 hstaged, setValid_fifteen]
    rfl

/-- R175: FORCE_REBUILD writes everything but the slots from the staged keys. -/
theorem SameWhereDefined.forceRebuild (h : SameWhereDefined P s t)
    (hstaged : allStaged s.stg.valid = true) :
    SameWhereDefined P (forceRebuild P { s with cfg := s.stg.value, configured := true })
      (forceRebuild P { t with cfg := t.stg.value, configured := true }) := by
  have hstg := h.stg_of_allStaged hstaged
  obtain ⟨-, -, -, -, hscopeOut, hanaOut⟩ := h.defined
  refine SameButSlots.sameWhereDefined ⟨?_, rfl, ⟨rfl, hscopeOut, h.scopeLen, rfl⟩,
    ⟨rfl, hanaOut, h.anaLen, rfl⟩⟩ fun _ => hstaged
  rw [← h.rest, ← hstg]
  rfl

/-! ### The commands -/

/-- Two answers of a command: states that agree where they are defined, or the same stop. -/
inductive SameWhereDefinedOf (P : Params) : Result → Result → Prop
  | next {s t : State} (h : SameWhereDefined P s t) : SameWhereDefinedOf P (.next s) (.next t)
  | fault (f : Fault) : SameWhereDefinedOf P (.fault f) (.fault f)

/-- R206: both sides ignore the command, or neither does. -/
theorem SameWhereDefined.unlessFaulted (h : SameWhereDefined P s t) {k k' : Result}
    (hk : SameWhereDefinedOf P k k') :
    SameWhereDefinedOf P (unlessFaulted s k) (unlessFaulted t k') := by
  obtain ⟨-, -, hstatus, -⟩ := h.defined
  rw [Machine.unlessFaulted, Machine.unlessFaulted, hstatus]
  split
  · exact .next h
  · exact hk

/-- R174: a forced APPLY reads the keys once all are staged. -/
theorem SameWhereDefined.applyForced (h : SameWhereDefined P s t) :
    SameWhereDefined P (applyForced P s) (applyForced P t) := by
  rw [Machine.applyForced, Machine.applyForced, ← h.valid]
  split
  · have hstaged : allStaged s.stg.valid = true := ‹_›
    have hstg := h.stg_of_allStaged hstaged
    have hrebuilt := h.forceRebuild hstaged
    rw [← hstg] at hrebuilt ⊢
    split
    · exact h.raiseFault _
    · exact hrebuilt
  · exact h.raiseFault _

/-- R172: a non-forced APPLY reads staging and `cfg` on a configured block only. -/
theorem SameWhereDefined.applySelected (h : SameWhereDefined P s t) (mask : BitVec 4) :
    SameWhereDefined P (applySelected P mask s) (applySelected P mask t) := by
  obtain ⟨hconfigured, -⟩ := h.defined
  rw [Machine.applySelected, Machine.applySelected, ← hconfigured]
  split
  · obtain ⟨hcfg, -, hstaged⟩ := h.active ‹_›
    have hslots := h.sameButSlots ‹_›
    have hstg := h.stg_of_allStaged hstaged
    have hcommitted : SameWhereDefined P (commitSelected P mask s) (commitSelected P mask t) :=
      (hslots.commitSelected mask).sameWhereDefined fun _ => by
        rw [Machine.commitSelected, keyEffects_eq]
        exact hstaged
    rw [Machine.commitSelected, Machine.commitSelected, ← hstg, ← hcfg,
      ← hconfigured] at hcommitted
    dsimp only
    rw [← hstg, ← hcfg]
    split
    · exact h.raiseFault _
    · exact hcommitted
  · exact h.raiseFault _

/-- R95: SAMPLE reads the configuration of a configured block only. -/
theorem SameWhereDefined.sampleOn (h : SameWhereDefined P s t) (i q : BitVec 24) :
    SameWhereDefinedOf P (sampleOn P i q s) (sampleOn P i q t) := by
  refine h.unlessFaulted ?_
  obtain ⟨hconfigured, -⟩ := h.defined
  rw [← hconfigured]
  split
  · obtain ⟨hcfg, -, hstaged⟩ := h.active ‹_›
    have hslots := h.sameButSlots ‹_›
    rw [← hcfg]
    split
    · exact .fault _
    · obtain ⟨hstg, -⟩ := feed_fields P (inputSample i q) s ‹_›
      exact .next ((hslots.feed _).sameWhereDefined fun _ => hstg ▸ hstaged)
  · exact .next (h.raiseFault _)

end Slots

/-! ### Other unspecified values -/

/-- The instance `P` with other values for the elements R40 leaves unspecified. -/
def respecified (P : Params) (u : Unspecified) : Params := { P with unspecified := u }

/-- R220, R221: two power-on states, with the same at the ports. -/
theorem SameWhereDefined.powerOn (P : Params) (u : Unspecified) (ports : State) :
    SameWhereDefined P
      { State.powerOn P with
        commands := ports.commands, tsDraws := ports.tsDraws, packetOut := ports.packetOut,
        scopeOut := ports.scopeOut, analyzerOut := ports.analyzerOut }
      { State.powerOn (respecified P u) with
        commands := ports.commands, tsDraws := ports.tsDraws, packetOut := ports.packetOut,
        scopeOut := ports.scopeOut, analyzerOut := ports.analyzerOut } where
  rest := rfl
  valid := rfl
  staged k hk := by simp [State.powerOn] at hk
  active := nofun
  scopeCnt := rfl
  scopeLen := by simp [State.powerOn, respecified]
  scopeBuf := rfl
  anaCnt := rfl
  anaLen := by simp [State.powerOn, respecified]
  anaBuf := rfl

/-- R104: no stage reads them. -/
theorem respecified_stages (P : Params) (u : Unspecified) :
    discFreq (respecified P u) = discFreq P ∧ levelStage (respecified P u) = levelStage P ∧
      analyzerStage (respecified P u) = analyzerStage P ∧ isUpdate (respecified P u) = isUpdate P ∧
      corrStage (respecified P u) = corrStage P ∧ onUpdate (respecified P u) = onUpdate P ∧
      scopeStage (respecified P u) = scopeStage P ∧ outputDelay (respecified P u) = outputDelay P :=
  ⟨rfl, rfl, rfl, rfl, rfl, rfl, rfl, rfl⟩

/-- R100: nor does the rate converter. -/
theorem resampleLoop_respecified (P : Params) (u : Unspecified) (n : ℕ) :
    resampleLoop (respecified P u) n = resampleLoop P n := by
  obtain ⟨hdisc, hlevel, hana, hupdate, hcorr, hdecide, hscope, hdelay⟩ := respecified_stages P u
  have hround (s : State) : resampleOne (respecified P u) s = resampleOne P s := by
    simp only [resampleOne, process, hdisc, hlevel, hana, hupdate, hcorr, hdecide, hscope, hdelay]
    rfl
  induction n with
  | zero => rfl
  | succ n ih =>
    funext s
    rw [resampleLoop, resampleLoop, hround, ih]

/-- R40: only RESET reads the unspecified values. -/
theorem execOn_respecified (P : Params) (u : Unspecified) {i : Instr} (hi : i ≠ .reset) :
    execOn (respecified P u) i = execOn P i := by
  cases i with
  | reset => exact absurd rfl hi
  | setOffset | setInputRate | setRfBw | setFmDev | apply => rfl
  | sample i q =>
    have hloop := resampleLoop_respecified P u
    funext s
    show sampleOn (respecified P u) i q s = sampleOn P i q s
    simp only [sampleOn, feed, resample, hloop]
    rfl

/-- R5: every command. -/
theorem SameWhereDefined.execOn {P : Params} {s t : State} (h : SameWhereDefined P s t)
    (u : Unspecified) (i : Instr) :
    SameWhereDefinedOf P (execOn P i s) (execOn (respecified P u) i t) := by
  by_cases hi : i = .reset
  · subst hi
    have hreset := SameWhereDefined.powerOn P u s
    rw [← h.rest]
    exact .next hreset
  rw [execOn_respecified P u hi]
  cases i with
  | reset => exact absurd rfl hi
  | setOffset v | setInputRate v | setRfBw v | setFmDev v =>
    exact h.unlessFaulted (.next (h.stageKey _ v))
  | apply force mask =>
    refine h.unlessFaulted (.next ?_)
    cases force with
    | true => exact h.applyForced
    | false => exact h.applySelected mask
  | sample i q => exact h.sampleOn i q

/-- Settles O50: the power-on states agree where they are defined, every command keeps that, and the
status and the events are always defined. -/
theorem unspecifiedElementsAreNeverRead : Obligations.UnspecifiedElementsAreNeverRead := by
  intro P u i s t s' Q
  refine ⟨SameWhereDefined.powerOn P u State.reset, fun h hexec => ?_⟩
  have hsame := h.execOn u i
  rw [hexec] at hsame
  generalize hr : Machine.execOn (respecified P u) i t = r at hsame
  cases hsame with
  | next hst =>
    obtain ⟨-, -, hstatus, hevents⟩ := hst.defined
    exact ⟨_, hr, hst, hstatus, hevents⟩

end Sys2Proof.Machine
end

section
/-!
PROOF. The step and the commands that configure (R5, R170 to R178, R206, R220, R224): what a step
runs, that an APPLY which finds nothing changed changes nothing, and the boot sequence.
-/

namespace Sys2Proof.Machine

/-! ### The step -/

/-- R216: with no command delivered the block does nothing. -/
theorem step_of_no_command {s : State} (hs : s.commands = []) : step s = .next s := by
  rw [step, hs]

/-- Settles O6: one clause for each way the stream and the decoder can answer. -/
theorem stepRunsTheDecodedCommand : Obligations.StepRunsTheDecodedCommand :=
  fun _ => ⟨fun _ _ _ => step_of_decode_ok, fun _ _ _ => step_of_decode_error, step_of_no_command⟩

/-- Settles O20: on a faulted block every word but RESET's, whose encoding it is, keeps the status. -/
theorem onlyResetLeavesTheFaultedState : Obligations.OnlyResetLeavesTheFaultedState := by
  intro s t hfault hstep hstatus
  cases hw : s.commands with
  | nil =>
    cases (step_of_no_command hw).symm.trans hstep
    exact absurd rfl hstatus
  | cons w rest =>
    by_cases hreset : decode w = .ok .reset
    · exact ⟨rest, by rw [encode_eq_of_decode_eq_ok hreset]⟩
    · cases (step_of_faulted hfault hw hreset).symm.trans hstep
      exact absurd rfl hstatus

/-! ### RESET -/

/-- Settles O9: this is `resetOn_eq`. -/
theorem resetGivesThePowerOnState : Obligations.ResetGivesThePowerOnState :=
  resetOn_eq Config.params

/-! ### Forced APPLY -/

/-- Settles O11: the two checks, and FORCE_REBUILD as one state (`forceRebuild_eq`). -/
theorem forcedApplyRebuildsEverything : Obligations.ForcedApplyRebuildsEverything := by
  intro mask s hfault
  refine ⟨applyOn_forced_of_not_staged _ mask hfault, fun hvalid hzero =>
    applyOn_forced_of_unusable _ mask hfault hvalid ((configUnusable_iff _).2 hzero), ?_⟩
  intro hvalid hrate hdev
  have husable := (configUnusable_eq_false_iff _).2 ⟨hrate, hdev⟩
  refine (applyOn_forced_of_usable _ mask hfault hvalid husable).trans ?_
  rw [forceRebuild_eq]
  rfl

/-- R175, R178: a second FORCE_REBUILD of the same staging changes nothing. -/
theorem forceRebuild_forceRebuild (P : Params) (s : State) :
    let t := forceRebuild P { s with cfg := s.stg.value, configured := true }
    forceRebuild P { t with cfg := t.stg.value, configured := true } = t :=
  rfl

/-! ### Non-forced APPLY -/

/-- R177: with no key changed there is no effect. -/
theorem keyEffects_of_none_changed (P : Params) {ch : Key → Bool} (s : State)
    (h : ∀ k, ch k = false) : keyEffects P ch s = s := by
  simp [keyEffects, h]

/-- R172, R177: a non-forced APPLY that selects the active configuration changes nothing. -/
theorem commitSelected_of_selectConfig_eq (P : Params) {mask : BitVec 4} {s : State}
    (h : selectConfig mask s.stg.value s.cfg = s.cfg) : commitSelected P mask s = s := by
  have hnone (k : Key) : isChanged mask (selectConfig mask s.stg.value s.cfg) s.cfg k = false := by
    rw [h, isChanged, bne_self_eq_false, Bool.and_false]
  rw [commitSelected, keyEffects_of_none_changed P _ hnone, h]

/-- R172: masked keys staged at their active values select the active configuration. -/
theorem selectConfig_eq_of_unchanged {mask : BitVec 4} {stg cfg : ChannelConfig}
    (h : ∀ k : Key, mask.getLsbD k.index = true → getKey stg k = getKey cfg k) :
    selectConfig mask stg cfg = cfg := by
  refine channelConfig_ext fun k => ?_
  rw [getKey_selectConfig, selectKey]
  split
  · exact h k ‹_›
  · rfl

/-- R172, R178: what an APPLY selected, the same APPLY selects again. -/
theorem selectConfig_selectConfig (mask : BitVec 4) (stg cfg : ChannelConfig) :
    selectConfig mask stg (selectConfig mask stg cfg) = selectConfig mask stg cfg := by
  refine selectConfig_eq_of_unchanged fun k hk => ?_
  rw [getKey_selectConfig]
  exact (if_pos hk).symm

/-- Settles O14: the selected configuration is the active one. -/
theorem applyOfUnchangedKeysChangesNothing : Obligations.ApplyOfUnchangedKeysChangesNothing := by
  intro mask s hfault hconf hrate hdev hsame
  have hselect := selectConfig_eq_of_unchanged hsame
  have husable : configUnusable (selectConfig mask s.stg.value s.cfg) = false :=
    hselect.symm ▸ (configUnusable_eq_false_iff s.cfg).2 ⟨hrate, hdev⟩
  have happly := applyOn_selected_of_usable Config.params mask hfault hconf husable
  exact happly.trans (congrArg _ (commitSelected_of_selectConfig_eq _ hselect))

/-- R178: the same non-forced APPLY again changes nothing. -/
theorem applyOn_of_commitSelected (P : Params) (mask : BitVec 4) {s : State}
    (hfault : s.status.fault = false) (hconf : s.configured = true)
    (husable : configUnusable (selectConfig mask s.stg.value s.cfg) = false) :
    applyOn P false mask (commitSelected P mask s) = .next (commitSelected P mask s) := by
  have hfields : (commitSelected P mask s).status = s.status ∧
      (commitSelected P mask s).configured = s.configured ∧
      (commitSelected P mask s).stg = s.stg ∧
      (commitSelected P mask s).cfg = selectConfig mask s.stg.value s.cfg := by
    rw [commitSelected, keyEffects_eq]
    exact ⟨rfl, rfl, rfl, rfl⟩
  obtain ⟨hstatus, hconfigured, hstg, hcfg⟩ := hfields
  have hselect : selectConfig mask (commitSelected P mask s).stg.value (commitSelected P mask s).cfg =
      (commitSelected P mask s).cfg := by
    rw [hstg, hcfg, selectConfig_selectConfig]
  refine (applyOn_selected_of_usable P mask (hstatus ▸ hfault) (hconfigured ▸ hconf) ?_).trans ?_
  · rwa [hselect, hcfg]
  · exact congrArg _ (commitSelected_of_selectConfig_eq P hselect)

/-- Settles O15: a block that faulted ignores the second APPLY; one that took effect finds nothing
changed. -/
theorem applyTwiceIsApplyOnce : Obligations.ApplyTwiceIsApplyOnce := by
  intro force mask s t happly
  obtain ⟨-, e⟩ | ⟨-, -, e⟩ | ⟨-, -, -, e⟩ | ⟨hfault, rfl, hstaged, husable, e⟩ |
    ⟨hfault, rfl, hconf, husable, e⟩ := applyOn_cases Config.params force mask s
  · cases e.symm.trans happly
    exact happly
  · cases e.symm.trans happly
    exact exec_of_faulted rfl nofun
  · cases e.symm.trans happly
    exact exec_of_faulted rfl nofun
  · cases e.symm.trans happly
    refine (applyOn_forced_of_usable _ mask ?_ ((allStaged_iff_eq _).1 ?_) ?_).trans
      (congrArg _ (forceRebuild_forceRebuild Config.params s))
    · exact hfault
    · exact hstaged
    · exact husable
  · cases e.symm.trans happly
    exact applyOn_of_commitSelected _ mask hfault hconf husable

/-! ### Boot -/

/-- R76: the SET of a key. -/
def setInstr : Key → BitVec 32 → Instr
  | .offset => .setOffset
  | .inputRate => .setInputRate
  | .rfBandwidth => .setRfBw
  | .fmDeviation => .setFmDev

theorem exec_setInstr (k : Key) (v : BitVec 32) (s : State) : exec (setInstr k v) s = setOn k v s := by
  cases k <;> rfl

/-- R76: the SETs of two keys are different commands. -/
theorem setInstr_key_inj {j k : Key} {v w : BitVec 32} (h : setInstr j v = setInstr k w) : j = k := by
  cases j <;> cases k <;> cases h <;> rfl

/-- R22: the key `k` is staged at its value in `cfg`. -/
def StagedAs (cfg : ChannelConfig) (s : State) (k : Key) : Prop :=
  s.stg.valid.getLsbD k.index = true ∧ getKey s.stg.value k = getKey cfg k

/-- R170: a SET stages its key and leaves the others staged. -/
theorem stagedAs_stageKey {cfg : ChannelConfig} {s : State} {j k : Key}
    (h : j = k ∨ StagedAs cfg s k) : StagedAs cfg (stageKey j (getKey cfg j) s) k := by
  simp only [StagedAs, stageKey_fields, setValid_getLsbD]
  by_cases hjk : k = j
  · subst hjk
    exact ⟨by simp, getKey_putKey_self ..⟩
  · obtain ⟨hvalid, hvalue⟩ := h.resolve_left (Ne.symm hjk)
    exact ⟨by rw [hvalid, Bool.true_or], (getKey_putKey_of_ne _ _ hjk).trans hvalue⟩

theorem performAll_singleton (i : Instr) (s : State) : performAll [i] s = exec i s := by
  rw [performAll]
  cases exec i s <;> rfl

/-- R170: SETs of values in `cfg`, one after another, then the rest: the keys set are staged, and the
block is otherwise as configured and as faulted as before. -/
theorem performAll_sets {cfg : ChannelConfig} {sets : List Instr}
    (hsets : ∀ i ∈ sets, ∃ k, i = setInstr k (getKey cfg k)) (rest : List Instr) {s : State}
    (hfault : s.status.fault = false) :
    ∃ t, performAll (sets ++ rest) s = performAll rest t ∧ t.status = s.status ∧
      t.configured = s.configured ∧
      ∀ k, setInstr k (getKey cfg k) ∈ sets ∨ StagedAs cfg s k → StagedAs cfg t k := by
  induction sets generalizing s with
  | nil => exact ⟨s, rfl, rfl, rfl, fun k h => h.resolve_left List.not_mem_nil⟩
  | cons i sets ih =>
    obtain ⟨j, rfl⟩ := hsets i List.mem_cons_self
    obtain ⟨t, hperform, hstatus, hconf, hstaged⟩ :=
      ih (fun i hi => hsets i (List.mem_cons_of_mem _ hi)) (s := stageKey j (getKey cfg j) s) hfault
    refine ⟨t, ?_, hstatus, hconf, fun k hk => hstaged k ?_⟩
    · rw [← hperform, List.cons_append, performAll, exec_setInstr, setOn_of_not_faulted j _ hfault]
    · rw [List.mem_cons, or_assoc] at hk
      obtain hjk | hmem | hs := hk
      · exact .inr (stagedAs_stageKey (.inl (setInstr_key_inj hjk).symm))
      · exact .inl hmem
      · exact .inr (stagedAs_stageKey (.inr hs))

/-- Settles O54: in any order the four SETs stage the configuration, and the forced APPLY finds all
valid bits set. -/
theorem bootSequenceConfigures : Obligations.BootSequenceConfigures := by
  intro off rate bw dev mask sets hperm
  let cfg : ChannelConfig :=
    { offset := off, inputRate := rate, rfBandwidth := bw, fmDeviation := dev }
  have hsets : ∀ i ∈ sets, ∃ k, i = setInstr k (getKey cfg k) := by
    intro i hi
    have hmem := hperm.mem_iff.1 hi
    simp only [List.mem_cons, List.not_mem_nil, or_false] at hmem
    obtain rfl | rfl | rfl | rfl := hmem
    · exact ⟨.offset, rfl⟩
    · exact ⟨.inputRate, rfl⟩
    · exact ⟨.rfBandwidth, rfl⟩
    · exact ⟨.fmDeviation, rfl⟩
  have hall (k : Key) : setInstr k (getKey cfg k) ∈ sets := by
    rw [hperm.mem_iff]
    cases k <;> simp [setInstr, getKey, cfg]
  obtain ⟨t, hperform, hstatus, hconf, hstaged⟩ :=
    performAll_sets hsets [.apply true mask] (s := State.reset) rfl
  have hfault : t.status.fault = false := congrArg Status.fault hstatus
  have hvalid : t.stg.valid = 15 :=
    (allStaged_iff_eq _).1 ((allStaged_iff _).2 fun k => (hstaged k (.inl (hall k))).1)
  have hvalue : t.stg.value = cfg := channelConfig_ext fun k => (hstaged k (.inl (hall k))).2
  have happly {u : State} (h : applyOn Config.params true mask t = .next u) :
      performAll (sets ++ [.apply true mask]) State.reset = .next u :=
    hperform.trans ((performAll_singleton _ _).trans h)
  cases hzero : configUnusable t.stg.value with
  | true =>
    refine ⟨_, happly (applyOn_forced_of_unusable _ mask hfault hvalid hzero), fun hr hd => ?_,
      fun _ => ⟨hconf, rfl⟩⟩
    rw [hvalue, configUnusable_iff] at hzero
    exact (hzero.elim hr hd).elim
  | false =>
    refine ⟨_, happly (applyOn_forced_of_usable _ mask hfault hvalid hzero),
      fun _ _ => ⟨rfl, hstatus, hvalue⟩, fun h => ?_⟩
    rw [hvalue, configUnusable_eq_false_iff] at hzero
    exact (h.elim hzero.1 hzero.2).elim

end Sys2Proof.Machine
end

section
/-!
PROOF. The discriminator's corner cases and its scale invariance (R114, R115), the level meter (R113)
and the analyzer (R189).
-/

namespace Sys2Proof.Machine

/-! ### DISC -/

/-- R114: a phase product of 0 gives 0. -/
theorem real_discFreq_of_product_eq_zero {P : Params} (hP : P.IsReference) {s : State} {ci : CVal}
    (h : (starRingEnd ℂ) (P.complex s.discPrev) * P.complex ci = 0) :
    P.real (discFreq P s ci) = 0 := by
  rw [real_discFreq hP, h, Complex.arg_zero, zero_div, zero_mul]

/-- R114: the phase product of a non-zero number and its negative direction is a negative real. -/
theorem arg_conj_mul_neg {z : ℂ} (hz : z ≠ 0) {a : ℝ} (ha : 0 < a) :
    Complex.arg ((starRingEnd ℂ) z * (-(a : ℂ) * z)) = Real.pi := by
  have hproduct : (starRingEnd ℂ) z * (-(a : ℂ) * z) = ((-(a * Complex.normSq z) : ℝ) : ℂ) := by
    rw [mul_left_comm, mul_comm _ z, Complex.mul_conj]
    push_cast
    ring
  rw [hproduct]
  exact Complex.arg_ofReal_of_neg (neg_neg_of_pos (mul_pos ha (Complex.normSq_pos.2 hz)))

/-- Settles O29: the phase product is 0 in the first two cases, and a negative real in the third. -/
theorem discriminatorCornerCases : Obligations.DiscriminatorCornerCases := by
  intro P s ci next hP
  refine ⟨fun hprev => ?_, fun hci => ⟨?_, ?_⟩, fun a ha hprev hci => ?_⟩
  · exact real_discFreq_of_product_eq_zero hP (by rw [hprev, map_zero, zero_mul])
  · exact real_discFreq_of_product_eq_zero hP (by rw [hci, mul_zero])
  · exact real_discFreq_of_product_eq_zero hP (by simp only [storePrev_fields, hci, map_zero, zero_mul])
  · rw [real_discFreq hP, hci, arg_conj_mul_neg hprev ha, div_self Real.pi_ne_zero, one_mul]

/-- R112: the power is the squared magnitude. -/
theorem real_powerEstimate (P : Params) (ci : CVal) :
    P.real (powerEstimate ci) = Complex.normSq (P.complex ci) :=
  CVal.toReal_normSq _ ci

/-- Settles O30: the phase product is scaled by `a²`, which is positive, and so is the power. -/
theorem discriminatorIsScaleInvariant : Obligations.DiscriminatorIsScaleInvariant := by
  intro P s t ci cj a hP ha hscale hprev hcj
  refine ⟨?_, ?_⟩
  · have hproduct : (starRingEnd ℂ) (P.complex t.discPrev) * P.complex cj =
        ((a * a : ℝ) : ℂ) * ((starRingEnd ℂ) (P.complex s.discPrev) * P.complex ci) := by
      rw [hprev, hcj, map_mul, Complex.conj_ofReal]
      push_cast
      ring
    rw [real_discFreq hP, real_discFreq hP, hproduct, Complex.arg_real_mul _ (mul_pos ha ha), hscale]
  · rw [real_powerEstimate, real_powerEstimate, hcj, Complex.normSq_mul, Complex.normSq_ofReal,
      pow_two]

/-! ### LEVEL -/

/-- The peak is a number of the instance, and no lower than it was in `s`. -/
structure PeakRises (P : Params) (s t : State) : Prop where
  isNumber : PeakIsNumber P t
  le : P.real s.level.peak ≤ P.real t.level.peak

section Peak
variable {P : Params} {s t : State}

theorem PeakRises.of_level_eq (hs : PeakIsNumber P s) (h : t.level = s.level) : PeakRises P s t := by
  refine ⟨?_, ?_⟩
  · rwa [PeakIsNumber, h]
  · rw [h]

theorem PeakRises.trans {u : State} (hst : PeakRises P s t) (htu : PeakRises P t u) :
    PeakRises P s u :=
  ⟨htu.isNumber, hst.le.trans htu.le⟩

/-- R113: the maximum of the old peak and the power. -/
theorem PeakRises.resampleOne (hs : PeakIsNumber P s) : PeakRises P s (resampleOne P s) := by
  have hpw := powerEstimate_isNumber P s.derived.rcKernelCfg s.rc.hist (outputDelay P s)
  have hpeak : (Machine.resampleOne P s).level.peak =
      maxVal P s.level.peak (powerEstimate
        (P.num.rcFn s.derived.rcKernelCfg s.rc.hist (outputDelay P s))) := by
    simp only [Machine.resampleOne, process_fields, levelUpdate]
  refine ⟨?_, ?_⟩
  · rw [PeakIsNumber, hpeak]
    exact maxVal_isNumber P hs hpw
  · rw [hpeak, real_maxVal P hs hpw]
    exact le_max_left _ _

/-- R95: SAMPLE raises the peak once for each internal sample. -/
theorem PeakRises.feed (hs : PeakIsNumber P s) (hrate : s.cfg.inputRate ≠ 0) (x : CVal) :
    PeakRises P s (feed P x s) := by
  obtain ⟨k, hfeed, -, -⟩ := feed_eq P x s hrate
  rw [hfeed]
  clear hfeed
  induction k with
  | zero => exact .of_level_eq hs rfl
  | succ k ih =>
    rw [Function.iterate_succ_apply']
    exact ih.trans (.resampleOne ih.isNumber)

/-- R40: the peak at its reset value is a number of the instance. -/
theorem peakIsNumber_of_peak_eq_zero (h : s.level.peak = zeroVal) : PeakIsNumber P s := by
  rw [PeakIsNumber, h]
  exact P.compare.rat_isNumber 0

/-- R32, R113: every command keeps the peak a number, and only RESET and a forced APPLY lower it. -/
theorem execOn_peak (hs : PeakIsNumber P s) {i : Instr} (hexec : execOn P i s = .next t) :
    PeakIsNumber P t ∧ (i ≠ .reset → (∀ mask, i ≠ .apply true mask) →
      P.real s.level.peak ≤ P.real t.level.peak) := by
  have keeps (h : PeakRises P s t) : PeakIsNumber P t ∧ (i ≠ .reset →
      (∀ mask, i ≠ .apply true mask) → P.real s.level.peak ≤ P.real t.level.peak) :=
    ⟨h.isNumber, fun _ _ => h.le⟩
  cases i with
  | reset =>
    cases hexec
    exact ⟨peakIsNumber_of_peak_eq_zero rfl, fun hne => absurd rfl hne⟩
  | setOffset v | setInputRate v | setRfBw v | setFmDev v =>
    refine keeps ?_
    obtain ⟨-, e⟩ | ⟨-, e⟩ := setOn_cases _ v s <;> cases e.symm.trans hexec <;>
      exact .of_level_eq hs rfl
  | apply force mask =>
    obtain ⟨-, e⟩ | ⟨-, -, e⟩ | ⟨-, -, -, e⟩ | ⟨-, rfl, -, -, e⟩ | ⟨-, -, -, -, e⟩ :=
      applyOn_cases P force mask s <;> cases e.symm.trans hexec
    · exact keeps (.of_level_eq hs rfl)
    · exact keeps (.of_level_eq hs rfl)
    · exact keeps (.of_level_eq hs rfl)
    · exact ⟨peakIsNumber_of_peak_eq_zero rfl, fun _ hne => absurd rfl (hne mask)⟩
    · refine keeps (.of_level_eq hs ?_)
      rw [keyEffects_eq]
  | sample re im =>
    refine keeps ?_
    obtain ⟨-, e⟩ | ⟨-, -, e⟩ | ⟨-, -, -, e⟩ | ⟨-, -, hrate, e⟩ := sampleOn_cases P re im s <;>
      cases e.symm.trans hexec
    · exact .of_level_eq hs rfl
    · exact .of_level_eq hs rfl
    · exact .feed hs hrate _

end Peak

/-- R113: the average times the number of slots is their sum. -/
theorem real_levelUpdate_avg (P : Params) (pw : Val) (m : LevelMeter) :
    P.real (levelUpdate P pw m).avg * (P.levelN : ℕ) =
      ((levelUpdate P pw m).hist.map P.real).sum := by
  have hN : ((P.levelN : ℕ) : ℝ) ≠ 0 := Nat.cast_ne_zero.2 P.levelN.ne_zero
  rw [levelUpdate, Params.real, Val.toReal_times, Val.toReal_sum, Val.toReal_rat]
  push_cast
  rw [mul_assoc, one_div_mul_cancel hN, mul_one]

/-- Settles O31: one LEVEL by its definition, and the peak by `execOn_peak`. -/
theorem levelMeterAveragesAndPeaks : Obligations.LevelMeterAveragesAndPeaks := fun P =>
  ⟨fun pw s _ _ => ⟨rfl, rfl, real_levelUpdate_avg P pw s.level, real_maxVal P⟩,
    peakIsNumber_of_peak_eq_zero rfl, fun _ _ _ hs => execOn_peak hs⟩

/-! ### ANALYZER -/

/-- R189: the clamped value fits s16. -/
theorem analyzerValue_toInt (P : Params) (fm : Val) :
    (analyzerValue P fm).toInt =
      min (max (P.truncate.truncFn (fm.times P.analyzerScale)) (-32768)) 32767 := by
  rw [analyzerValue, clamp, BitVec.toInt_ofInt_eq_self (by decide)] <;> omega

/-- R189: the truncation is exact on numbers of the instance. -/
theorem truncFn_eq (P : Params) {fm : Val} (h : P.compare.IsNumber fm) :
    P.truncate.truncFn (fm.times P.analyzerScale) =
      if 0 ≤ P.real fm * P.real P.analyzerScale then ⌊P.real fm * P.real P.analyzerScale⌋
      else ⌈P.real fm * P.real P.analyzerScale⌉ := by
  rw [P.truncate.trunc_eq fm h, Val.toReal_times]
  rfl

/-- Settles O32: the value, its truncation, and the tap step by its definition. -/
theorem analyzerTruncatesAndSaturates : Obligations.AnalyzerTruncatesAndSaturates := fun P fm s =>
  ⟨analyzerValue_toInt P fm, discFreq_isNumber P s, truncFn_eq P, rfl⟩

end Sys2Proof.Machine
end

section
/-!
PROOF. The output timing over any number of samples (R102), systems of instances (R43, R214), and the
test instance (R8).
-/

namespace Sys2Proof.Machine

/-! ### The timing accumulator -/

/-- R102: `rcAcc` after a number of SAMPLEs from a timing restart. -/
def accAfter (fo fi : ℕ) : ℕ → ℤ
  | 0 => fo
  | n + 1 => fi - (n * fo % fi : ℕ)

/-- Division with remainder, as integers. -/
theorem mul_div_add_mod_cast (a b : ℕ) : (b : ℤ) * (a / b : ℕ) + (a % b : ℕ) = (a : ℕ) := by
  exact_mod_cast Nat.div_add_mod a b

/-- R102: the same, by the number of outputs made. -/
theorem accAfter_eq_outputs (fo fi : ℕ) {n : ℕ} (hn : n ≠ 0) :
    accAfter fo fi n = (fo : ℤ) - n * fo + ((n - 1) * fo / fi + 1 : ℕ) * fi := by
  obtain ⟨m, rfl⟩ := Nat.exists_eq_succ_of_ne_zero hn
  have hdiv := mul_div_add_mod_cast (m * fo) fi
  rw [accAfter, Nat.succ_sub_one]
  push_cast at hdiv ⊢
  linarith

/-- R100: a SAMPLE that starts with `rcAcc <= Fo + Fi` ends with the value in `1..Fi` that is congruent
to `rcAcc - Fo`. -/
theorem feed_acc_eq (P : Params) (x : CVal) {s : State} (hrate : s.cfg.inputRate ≠ 0)
    (hacc : s.rc.acc - P.internalRate ≤ s.cfg.inputRate.toNat) :
    (feed P x s).rc.acc =
      s.cfg.inputRate.toNat - (P.internalRate - s.rc.acc) % (s.cfg.inputRate.toNat : ℤ) := by
  obtain ⟨k, hfeed, -, -⟩ := feed_eq P x s hrate
  obtain ⟨hpos, hmax⟩ := feed_acc P x s hrate
  have hrounds : (feed P x s).rc.acc =
      s.rc.acc - P.internalRate + k * (s.cfg.inputRate.toNat : ℤ) := by
    rw [hfeed, (resampleOne_iterate P _ k).2]
    rfl
  have hle : (feed P x s).rc.acc ≤ s.cfg.inputRate.toNat := hmax.trans (max_le hacc le_rfl)
  have hmod : (s.cfg.inputRate.toNat - (feed P x s).rc.acc) % (s.cfg.inputRate.toNat : ℤ) =
      (P.internalRate - s.rc.acc) % (s.cfg.inputRate.toNat : ℤ) := by
    refine Int.ModEq.symm (Int.modEq_iff_dvd.2 ⟨1 - k, ?_⟩)
    rw [hrounds]
    ring
  rw [Int.emod_eq_of_lt (by omega) (by omega)] at hmod
  omega

/-- R102: one more SAMPLE. -/
theorem accAfter_succ {fo fi : ℕ} (n : ℕ) :
    accAfter fo fi n - fo ≤ fi ∧
      fi - (fo - accAfter fo fi n) % (fi : ℤ) = accAfter fo fi (n + 1) := by
  cases n with
  | zero => simp [accAfter]
  | succ n =>
    have hmod : ((fo : ℤ) - (fi - (n * fo % fi : ℕ))) % fi = ((n + 1) * fo % fi : ℕ) := by
      have hdiv := mul_div_add_mod_cast (n * fo) fi
      rw [Int.natCast_emod ((n + 1) * fo) fi]
      refine Int.modEq_iff_dvd.2 ⟨(n * fo / fi : ℕ) + 1, ?_⟩
      push_cast at hdiv ⊢
      linarith
    refine ⟨?_, ?_⟩
    · rw [accAfter]
      omega
    · rw [accAfter, hmod, accAfter]

/-- R102: SAMPLEs after `m` SAMPLEs from a timing restart. -/
theorem performAll_samples (xs : List (BitVec 24 × BitVec 24)) {s : State} {m : ℕ}
    (hfault : s.status.fault = false) (hconf : s.configured = true) (hrate : s.cfg.inputRate ≠ 0)
    (hacc : s.rc.acc = accAfter Config.params.internalRate s.cfg.inputRate.toNat m) :
    ∃ t, performAll (xs.map fun x => .sample x.1 x.2) s = .next t ∧
      t.rc.acc = accAfter Config.params.internalRate s.cfg.inputRate.toNat (m + xs.length) := by
  induction xs generalizing s m with
  | nil => exact ⟨s, rfl, hacc⟩
  | cons x xs ih =>
    obtain ⟨hle, hnext⟩ := accAfter_succ (fo := Config.params.internalRate)
      (fi := s.cfg.inputRate.toNat) m
    rw [← hacc] at hle hnext
    have hexec : exec (.sample x.1 x.2) s = .next (feed Config.params (inputSample x.1 x.2) s) :=
      sampleOn_of_configured _ x.1 x.2 hfault hconf hrate
    have hacc' := (feed_acc_eq _ (inputSample x.1 x.2) hrate hle).trans hnext
    obtain ⟨-, hcfg, hconf', -, hstatus, -, -⟩ :=
      feed_fields Config.params (inputSample x.1 x.2) s hrate
    rw [← hcfg] at hacc' hrate ⊢
    obtain ⟨t, hperform, ht⟩ := ih (hstatus ▸ hfault) (hconf' ▸ hconf) hrate hacc'
    refine ⟨t, ?_, ?_⟩
    · rw [← hperform, List.map_cons, performAll, hexec]
    · rw [ht, List.length_cons, Nat.add_right_comm, Nat.add_assoc]

/-- Settles O26: `accAfter` from 0 SAMPLEs on, by the number of outputs. -/
theorem outputTimingNeverDrifts : Obligations.OutputTimingNeverDrifts := by
  intro xs s hxs hfault hconf hrate hacc
  obtain ⟨t, hperform, ht⟩ := performAll_samples xs (m := 0) hfault hconf hrate hacc
  have hlen : xs.length ≠ 0 := mt List.length_eq_zero_iff.1 hxs
  rw [Nat.zero_add, accAfter_eq_outputs _ _ hlen] at ht
  exact ⟨t, hperform, ht⟩

/-! ### Systems -/

/-- Settles O53: a step writes its own block's place in the list and no other. -/
theorem instancesShareNothing : Obligations.InstancesShareNothing := by
  intro sys sys' n hstep
  unfold System.stepAt at hstep
  cases hb : sys[n]? with
  | none =>
    rw [hb] at hstep
    cases hstep
    exact ⟨fun _ _ => rfl, nofun⟩
  | some b =>
    simp only [hb] at hstep
    cases hs : stepOn b.params b.state with
    | next s =>
      simp only [hs] at hstep
      cases hstep
      refine ⟨fun m hm => List.getElem?_set_ne hm.symm, fun c hc => ?_⟩
      cases hc
      obtain ⟨hn, -⟩ := List.getElem?_eq_some_iff.1 hb
      exact ⟨s, hs, List.getElem?_set_self hn⟩
    | fault f => simp [hs] at hstep
    | refused r => simp [hs] at hstep

end Sys2Proof.Machine

namespace Sys2Proof

/-! ### The test instance -/

/-- Settles O56: the parameter set of TI is that of the instance TI, from which every instance is
elaborated. -/
theorem testInstanceElaborates : Obligations.TestInstanceElaborates := fun u ts =>
  ⟨elaborate_raw (tiParams u ts), rfl, rfl, rfl, fun _ => trivial⟩

end Sys2Proof
end

section
/-!
PROOF. The tone tables (R120), and which internal samples are correlator updates and what the others
leave alone (R104, R124, R125).
-/

namespace Sys2Proof.Machine

/-! ### The tone tables -/

/-- R120: an entry is the phasor of its tone. -/
theorem complex_toneEntry (P : Params) (f : Val) (n : ℕ) :
    P.complex (toneEntry f P.internalRate n) =
      Complex.exp (2 * Real.pi * P.real f * n / P.internalRate * Complex.I) := by
  rw [toneEntry, Params.complex, CVal.toComplex_expTurn, Val.toReal_times, Val.toReal_rat]
  congr 2
  push_cast
  ring

/-- R120: a phasor has magnitude 1. -/
theorem norm_complex_toneEntry (P : Params) (f : Val) (n : ℕ) :
    ‖P.complex (toneEntry f P.internalRate n)‖ = 1 := by
  have hangle : (2 * Real.pi * P.real f * n / P.internalRate * Complex.I : ℂ) =
      ((2 * Real.pi * P.real f * n / P.internalRate : ℝ) : ℂ) * Complex.I := by push_cast; rfl
  rw [complex_toneEntry, hangle, Complex.norm_exp_ofReal_mul_I]

theorem length_toneTable (P : Params) (f : Val) : (toneTable P f).length = P.corrLen := by
  simp only [toneTable, List.length_map, List.length_range]

theorem getElem?_toneTable (P : Params) (f : Val) {n : ℕ} (hn : n < P.corrLen) :
    (toneTable P f)[n]? = some (toneEntry f P.internalRate n) := by
  simp only [toneTable, List.getElem?_map, List.getElem?_range hn, Option.map_some]

/-- Settles O36: TONEBUILD fills both tables with the phasors of their tones. -/
theorem toneTablesHoldUnitPhasors : Obligations.ToneTablesHoldUnitPhasors := fun P _ n hn =>
  ⟨length_toneTable P P.tone0, length_toneTable P P.tone1, _, _, getElem?_toneTable P P.tone0 hn,
    getElem?_toneTable P P.tone1 hn, complex_toneEntry P P.tone0 n, complex_toneEntry P P.tone1 n,
    norm_complex_toneEntry P P.tone0 n, norm_complex_toneEntry P P.tone1 n⟩

/-! ### Updates -/

/-- R124: after any number of internal samples the fill counter counts them, up to `L - 1`. -/
theorem processAll_cnt (P : Params) (cis : List CVal) {s : State} (hs : s.corr.cnt < P.corrLen) :
    (processAll P cis s).corr.cnt = min (s.corr.cnt + cis.length) (P.corrLen - 1) := by
  induction cis generalizing s with
  | nil =>
    show s.corr.cnt = min (s.corr.cnt + 0) (P.corrLen - 1)
    omega
  | cons ci cis ih =>
    have hstep : (process P ci s).corr.cnt = min (s.corr.cnt + 1) (P.corrLen - 1) := by
      simp only [process_fields, corrUpdate_cnt]
    have hrest := ih (s := process P ci s) (by omega)
    rw [hstep] at hrest
    rw [List.length_cons]
    show (processAll P cis (process P ci s)).corr.cnt = _
    omega

/-- Settles O39: the counter is the number of samples, up to `L - 1`. -/
theorem updatesStartWhenTheRingIsFull : Obligations.UpdatesStartWhenTheRingIsFull := by
  intro P cis fm s hs
  have hL := Params.corrLen_pos P
  rw [isUpdate_iff, processAll_cnt P cis (hs.trans_lt hL), hs]
  omega

/-- Settles O42: the second case of `process_decision`. -/
theorem onlyUpdatesReachTheDecision : Obligations.OnlyUpdatesReachTheDecision := by
  intro P ci s hupdate
  obtain ⟨h, -⟩ | ⟨-, hlpf, hsync, hframe, hdraws, hpackets⟩ := process_decision P ci s
  · exact absurd (h.symm.trans hupdate) Bool.noConfusion
  · exact ⟨hlpf, hsync, hframe, hpackets, hdraws⟩

end Sys2Proof.Machine
end

section
/-!
PROOF. The bit synchroniser (R141 to R147): one step, that its decision is exact, and the distance
between two bits, which the countdown fixes.
-/

namespace Sys2Proof.Machine

/-! ### One step -/

theorem isEdge_iff (sample prev : Bool) : isEdge sample prev = true ↔ sample ≠ prev := bne_iff_ne

/-- R142: a boundary is a step without an edge whose countdown runs out. -/
theorem isBoundary_iff (sample : Bool) (b : BitSync) :
    isBoundary sample b = true ↔ sample = b.samplePrev ∧ b.syncCount ≤ 1 := by
  rw [isBoundary, Bool.and_eq_true, Bool.not_eq_true', ← Bool.not_eq_true, isEdge_iff, not_not,
    decide_eq_true_iff]
  exact and_congr_right fun _ => by omega

section Update
variable {P : Params} {d : Val} {b : BitSync}

/-- R142: an edge. -/
theorem syncUpdate_of_edge (hedge : decisionBit P d ≠ b.samplePrev) :
    isBoundary (decisionBit P d) b = false ∧
      syncUpdate P d b = { b with
        diff := d, curSample := decisionBit P d, samplePrev := decisionBit P d
        syncCount := (P.corrLen / 2 : ℕ) } := by
  have hboundary : isBoundary (decisionBit P d) b = false :=
    Bool.eq_false_iff.2 fun h => hedge ((isBoundary_iff _ b).1 h).1
  simp [syncUpdate, nextCount, hboundary, (isEdge_iff _ _).2 hedge]

/-- R142: no edge, and the countdown goes on. -/
theorem syncUpdate_of_countdown (hsame : decisionBit P d = b.samplePrev) (hcount : 1 < b.syncCount) :
    isBoundary (decisionBit P d) b = false ∧
      syncUpdate P d b = { b with
        diff := d, curSample := decisionBit P d, samplePrev := decisionBit P d
        syncCount := b.syncCount - 1 } := by
  have hboundary : isBoundary (decisionBit P d) b = false :=
    Bool.eq_false_iff.2 fun h => not_le.2 hcount ((isBoundary_iff _ b).1 h).2
  have hedge : isEdge (decisionBit P d) b.samplePrev = false :=
    Bool.eq_false_iff.2 fun h => (isEdge_iff _ _).1 h hsame
  simp [syncUpdate, nextCount, hboundary, hedge]

/-- R142, R144: no edge, and the countdown runs out: a bit. -/
theorem syncUpdate_of_boundary (hsame : decisionBit P d = b.samplePrev) (hcount : b.syncCount ≤ 1) :
    isBoundary (decisionBit P d) b = true ∧
      syncUpdate P d b =
        { diff := d, curSample := decisionBit P d, samplePrev := decisionBit P d
          syncCount := P.corrLen, lastBit := decisionBit P d, bitStrobe := true } := by
  have hboundary : isBoundary (decisionBit P d) b = true := (isBoundary_iff _ b).2 ⟨hsame, hcount⟩
  have hedge : isEdge (decisionBit P d) b.samplePrev = false :=
    Bool.eq_false_iff.2 fun h => (isEdge_iff _ _).1 h hsame
  simp [syncUpdate, nextCount, hboundary, hedge]

end Update

/-- R142: BITSYNC without a boundary writes the synchroniser only. -/
theorem bitSyncStage_of_not_boundary {P : Params} {s : State}
    (h : isBoundary (decisionBit P (decisionDiff s.lpf)) s.sync = false) :
    bitSyncStage P s = { s with sync := syncUpdate P (decisionDiff s.lpf) s.sync } :=
  if_neg (Bool.eq_false_iff.1 h)

/-- R144: at a boundary it sends FRAME its decision. -/
theorem bitSyncStage_of_boundary {P : Params} {s : State}
    (h : isBoundary (decisionBit P (decisionDiff s.lpf)) s.sync = true) :
    bitSyncStage P s = frameStage P (decisionBit P (decisionDiff s.lpf))
      { s with sync := syncUpdate P (decisionDiff s.lpf) s.sync } :=
  if_pos h

/-- Settles O43: the exact decision, and the three cases of `syncUpdate`. -/
theorem bitSynchroniserStep : Obligations.BitSynchroniserStep := by
  intro P s d bit
  refine ⟨decisionBit_diff P, fun hedge => ?_, fun hsame hcount => ?_, fun hsame hcount => ?_⟩
  · obtain ⟨hboundary, hsync⟩ := syncUpdate_of_edge hedge
    exact (bitSyncStage_of_not_boundary hboundary).trans (by rw [← hsync]; rfl)
  · obtain ⟨hboundary, hsync⟩ := syncUpdate_of_countdown hsame hcount
    exact (bitSyncStage_of_not_boundary hboundary).trans (by rw [← hsync]; rfl)
  · obtain ⟨hboundary, hsync⟩ := syncUpdate_of_boundary hsame hcount
    exact (bitSyncStage_of_boundary hboundary).trans (by rw [← hsync]; rfl)

/-! ### The decision at an update -/

/-- R104: at a correlator update the filters take the new magnitudes, and the synchroniser their
difference. -/
theorem process_of_update {P : Params} {ci : CVal} {s : State}
    (h : isUpdate P (discFreq P s ci) s.corr = true) :
    (∃ mag0 mag1, (process P ci s).lpf = lpfUpdate P mag0 mag1 s.lpf) ∧
      (process P ci s).sync = syncUpdate P (decisionDiff (process P ci s).lpf)
        { s.sync with bitStrobe := false } := by
  obtain ⟨-, hlpf, hsync, -⟩ | ⟨hno, -⟩ := process_decision P ci s
  · rw [hlpf, hsync]
    simp only [onUpdate, bitSyncStage_fields, lpfStage_fields]
    exact ⟨⟨_, _, rfl⟩, trivial⟩
  · exact absurd (h.symm.trans hno) Bool.noConfusion

/-- Settles O59: both filter outputs are numbers of the instance, on which the decision is exact. -/
theorem decisionIsExactInEveryInstance : Obligations.DecisionIsExactInEveryInstance := by
  refine fun P ci s => ⟨fun h => ?_, decisionBit_negZero P⟩
  obtain ⟨⟨mag0, mag1, hlpf⟩, hsync⟩ := process_of_update h
  obtain ⟨hfilt0, hfilt1⟩ := lpfUpdate_isNumber P mag0 mag1 s.lpf
  rw [← hlpf] at hfilt0 hfilt1
  dsimp only
  rw [hsync]
  exact ⟨rfl, Val.toReal_minus _ _ _, decisionBit_diff P hfilt0 hfilt1⟩

/-! ### The countdown -/

/-- R142 to R144: one correlator update as the bit-interval law reads it. -/
inductive SyncStep (len : ℕ) (b c : BitSync) : Prop
  | edge (hedge : c.curSample ≠ b.samplePrev) (hstrobe : c.bitStrobe ≠ true)
      (hcount : c.syncCount = (len / 2 : ℕ))
  | countdown (hsame : c.curSample = b.samplePrev) (hstrobe : c.bitStrobe ≠ true)
      (hpos : 1 < b.syncCount) (hcount : c.syncCount = b.syncCount - 1)
  | boundary (hsame : c.curSample = b.samplePrev) (hstrobe : c.bitStrobe = true)
      (hout : b.syncCount ≤ 1) (hcount : c.syncCount = len)

theorem syncStep_process {P : Params} {ci : CVal} {s : State}
    (h : isUpdate P (discFreq P s ci) s.corr = true) :
    SyncStep P.corrLen s.sync (process P ci s).sync := by
  obtain ⟨-, hsync⟩ := process_of_update h
  generalize decisionDiff (process P ci s).lpf = d at hsync
  rw [hsync]
  by_cases hedge : decisionBit P d = s.sync.samplePrev
  · obtain hout | hpos := le_or_gt s.sync.syncCount 1
    · obtain ⟨-, e⟩ := syncUpdate_of_boundary (b := { s.sync with bitStrobe := false }) hedge hout
      rw [e]
      exact .boundary hedge rfl hout rfl
    · obtain ⟨-, e⟩ := syncUpdate_of_countdown (b := { s.sync with bitStrobe := false }) hedge hpos
      rw [e]
      exact .countdown hedge Bool.false_ne_true hpos rfl
  · obtain ⟨-, e⟩ := syncUpdate_of_edge (b := { s.sync with bitStrobe := false }) hedge
    rw [e]
    exact .edge hedge Bool.false_ne_true rfl

section Run
variable {len : ℕ} {b : ℕ → BitSync} {m n : ℕ}

/-- Neither a bit nor an edge at step `n`. -/
def Quiet (b : ℕ → BitSync) (n : ℕ) : Prop :=
  (b (n + 1)).bitStrobe ≠ true ∧ (b (n + 1)).curSample = (b n).samplePrev

/-- R142: without a bit or an edge the countdown goes down by one a step, and stays above 0. -/
theorem syncCount_of_quiet (hstep : ∀ k, m ≤ k → SyncStep len (b k) (b (k + 1))) (hmn : m ≤ n)
    (hquiet : ∀ k, m ≤ k → k < n → Quiet b k) :
    (b n).syncCount = (b m).syncCount - (n - m : ℕ) ∧ (n = m ∨ 1 ≤ (b n).syncCount) := by
  induction n, hmn using Nat.le_induction with
  | base => exact ⟨by simp, .inl rfl⟩
  | succ n hmn ih =>
    obtain ⟨hcount, -⟩ := ih fun k hk hkn => hquiet k hk (Nat.lt_succ_of_lt hkn)
    obtain ⟨hsilent, hsame⟩ := hquiet n hmn (Nat.lt_succ_self n)
    cases hstep n hmn with
    | edge hedge => exact absurd hsame hedge
    | countdown _ _ hpos hnext => exact ⟨by omega, .inr (by omega)⟩
    | boundary _ hstrobe => exact absurd hstrobe hsilent

/-- R142: the first bit after step `m`, when no edge comes before it. -/
theorem bit_of_quiet {x : ℕ} (hstep : ∀ k, m ≤ k → SyncStep len (b k) (b (k + 1))) (hmn : m ≤ n)
    (hcount : (b m).syncCount = x) (hquiet : ∀ k, m ≤ k → k < n → Quiet b k)
    (hbit : (b (n + 1)).bitStrobe = true) : n + 1 = m + max x 1 := by
  obtain ⟨hn, hlow⟩ := syncCount_of_quiet hstep hmn hquiet
  cases hstep n hmn with
  | edge _ hstrobe => exact absurd hbit hstrobe
  | countdown _ hstrobe => exact absurd hbit hstrobe
  | boundary _ _ hout => omega

/-- A bit leaves the countdown at `L`. -/
theorem syncCount_of_bit (h : SyncStep len (b n) (b (n + 1)))
    (hbit : (b (n + 1)).bitStrobe = true) : (b (n + 1)).syncCount = len := by
  cases h with
  | edge _ hstrobe => exact absurd hbit hstrobe
  | countdown _ hstrobe => exact absurd hbit hstrobe
  | boundary _ _ _ hcount => exact hcount

/-- An edge leaves the countdown at `L div 2`. -/
theorem syncCount_of_edge (h : SyncStep len (b n) (b (n + 1)))
    (hedge : (b (n + 1)).curSample ≠ (b n).samplePrev) :
    (b (n + 1)).syncCount = (len / 2 : ℕ) := by
  cases h with
  | edge _ _ hcount => exact hcount
  | countdown hsame => exact absurd hsame hedge
  | boundary hsame => exact absurd hsame hedge

/-- R147: the distance from one bit to the next. -/
theorem bit_interval {u v : ℕ} (hlen : 0 < len)
    (hstep : ∀ k, u ≤ k → SyncStep len (b k) (b (k + 1))) (huv : u < v)
    (hu : (b (u + 1)).bitStrobe = true) (hv : (b (v + 1)).bitStrobe = true)
    (hnone : ∀ n, u < n → n < v → ¬(b (n + 1)).bitStrobe = true) :
    let edge (n : ℕ) : Prop := (b (n + 1)).curSample ≠ (b n).samplePrev
    ((∀ n, u < n → n < v → ¬edge n) → v - u = len) ∧
    (∀ e, u < e → e < v → edge e → (∀ n, e < n → n < v → ¬edge n) →
      v = e + max (len / 2) 1 ∧ max (len / 2) 1 + 1 ≤ v - u ∧
        ((∀ n, u < n → n < e → ¬edge n) → v - u ≤ len + max (len / 2) 1)) := by
  intro edge
  have hstart := syncCount_of_bit (hstep u le_rfl) hu
  refine ⟨fun hno => ?_, fun e hue hev he hafter => ?_⟩
  · have := bit_of_quiet (fun k hk => hstep k (by omega)) huv hstart
      (fun k hk hkv => ⟨hnone k hk hkv, not_not.1 (hno k hk hkv)⟩) hv
    omega
  · have hhalf := syncCount_of_edge (hstep e hue.le) he
    have hlast := bit_of_quiet (fun k hk => hstep k (by omega)) hev hhalf
      (fun k hk hkv => ⟨hnone k (by omega) hkv, not_not.1 (hafter k hk hkv)⟩) hv
    refine ⟨by omega, by omega, fun hbefore => ?_⟩
    have hcount := syncCount_of_quiet (m := u + 1) (fun k hk => hstep k (by omega)) hue
      fun k hk hke => ⟨hnone k hk (hke.trans hev), not_not.1 (hbefore k hk hke)⟩
    omega

end Run

/-! ### Runs of the block -/

/-- R39, R124: a bit is emitted at a correlator update only. -/
theorem isUpdate_of_bit {P : Params} {ci : CVal} {s : State}
    (h : (process P ci s).sync.bitStrobe = true) : isUpdate P (discFreq P s ci) s.corr = true := by
  obtain ⟨hupdate, -⟩ | ⟨-, -, hsync, -⟩ := process_decision P ci s
  · exact hupdate
  · rw [hsync] at h
    exact absurd h Bool.false_ne_true

/-- R124, R125: the sample after a correlator update is one. -/
theorem isUpdate_after_update {P : Params} {ci : CVal} {s t : State} {fm : Val}
    (ht : t.corr = (process P ci s).corr) (h : isUpdate P (discFreq P s ci) s.corr = true) :
    isUpdate P fm t.corr = true := by
  rw [isUpdate_iff] at h ⊢
  have hcnt := corrUpdate_cnt P s.derived (discFreq P s ci) s.corr
  rw [ht]
  simp only [process_fields]
  omega

/-- Settles O44: from a bit on every sample is an update, so one step of the countdown. -/
theorem bitIntervalLaw : Obligations.BitIntervalLaw := by
  intro P ci s u v hrun huv emits edge hu hv hnone
  have hcorr (n : ℕ) : (s (n + 1)).corr = (process P (ci n) (s n)).corr := (hrun n).1
  have hsync (n : ℕ) : (s (n + 1)).sync = (process P (ci n) (s n)).sync := (hrun n).2
  have hupdate (n : ℕ) (hn : u ≤ n) : isUpdate P (discFreq P (s n) (ci n)) (s n).corr = true := by
    induction n, hn using Nat.le_induction with
    | base => exact isUpdate_of_bit (hsync u ▸ hu)
    | succ n _ ih => exact isUpdate_after_update (hcorr n) ih
  have hstep (n : ℕ) (hn : u ≤ n) : SyncStep P.corrLen (s n).sync (s (n + 1)).sync :=
    hsync n ▸ syncStep_process (hupdate n hn)
  exact ⟨hupdate, bit_interval (b := fun n => (s n).sync) (Params.corrLen_pos P) hstep huv hu hv hnone⟩

end Sys2Proof.Machine
end

section
/-!
PROOF. The packet of a frame (R155 to R158, R163): the bits received since the match are whole bytes,
which are stored, and a rest of fewer than 8, which the accumulator holds.
-/

namespace Sys2Proof.Machine

/-! ### The bytes of a list of bits -/

/-- R163: byte `k`, the number that bits `8k+1` to `8k+8` write. -/
def byteAt (ws : List Bool) (k : ℕ) : Byte := BitVec.ofNat 8 (lsbFirst ((ws.drop (8 * k)).take 8))

/-- The bytes that `ws` completes. -/
def wholeBytes (ws : List Bool) : List Byte := (List.range (ws.length / 8)).map (byteAt ws)

/-- The bits after the last whole byte. -/
def openBits (ws : List Bool) : List Bool := ws.drop (8 * (ws.length / 8))

theorem length_wholeBytes (ws : List Bool) : (wholeBytes ws).length = ws.length / 8 := by
  simp only [wholeBytes, List.length_map, List.length_range]

theorem length_openBits (ws : List Bool) : (openBits ws).length = ws.length % 8 := by
  rw [openBits, List.length_drop]
  omega

/-- A byte that is complete is not changed by the bits after it. -/
theorem byteAt_append {ws : List Bool} {k : ℕ} (hk : k < ws.length / 8) (vs : List Bool) :
    byteAt (ws ++ vs) k = byteAt ws k := by
  have hroom : 8 ≤ (ws.drop (8 * k)).length := by
    rw [List.length_drop]
    omega
  rw [byteAt, byteAt, List.drop_append_of_le_length (by omega), List.take_append_of_le_length hroom]

theorem map_byteAt_append {ws : List Bool} {n : ℕ} (hn : n ≤ ws.length / 8) (vs : List Bool) :
    (List.range n).map (byteAt (ws ++ vs)) = (List.range n).map (byteAt ws) :=
  List.map_congr_left fun _ hk => byteAt_append ((List.mem_range.1 hk).trans_le hn) vs

/-- The bit after `ws` is appended to the open bits. -/
theorem drop_concat_eq_openBits (ws : List Bool) (b : Bool) :
    (ws ++ [b]).drop (8 * (ws.length / 8)) = openBits ws ++ [b] :=
  List.drop_append_of_le_length (by omega)

/-- Within a byte. -/
theorem bytes_concat_of_open {ws : List Bool} (b : Bool) (h : ws.length % 8 ≠ 7) :
    wholeBytes (ws ++ [b]) = wholeBytes ws ∧ openBits (ws ++ [b]) = openBits ws ++ [b] := by
  have hcount : (ws ++ [b]).length / 8 = ws.length / 8 := by
    rw [List.length_append, List.length_singleton]
    omega
  rw [wholeBytes, openBits, hcount, map_byteAt_append le_rfl, drop_concat_eq_openBits]
  exact ⟨rfl, rfl⟩

/-- At the end of a byte. -/
theorem bytes_concat_of_full {ws : List Bool} (b : Bool) (h : ws.length % 8 = 7) :
    wholeBytes (ws ++ [b]) = wholeBytes ws ++ [BitVec.ofNat 8 (lsbFirst (openBits ws ++ [b]))] ∧
      openBits (ws ++ [b]) = [] := by
  have hcount : (ws ++ [b]).length / 8 = ws.length / 8 + 1 := by
    rw [List.length_append, List.length_singleton]
    omega
  have hlen : (openBits ws ++ [b]).length = 8 := by
    rw [List.length_append, length_openBits, List.length_singleton, h]
  have hlast : byteAt (ws ++ [b]) (ws.length / 8) =
      BitVec.ofNat 8 (lsbFirst (openBits ws ++ [b])) := by
    rw [byteAt, drop_concat_eq_openBits, List.take_of_length_le hlen.le]
  refine ⟨?_, ?_⟩
  · rw [wholeBytes, hcount, List.range_succ, List.map_append, map_byteAt_append le_rfl,
      List.map_singleton, hlast]
    rfl
  · rw [← List.length_eq_zero_iff, length_openBits, List.length_append, List.length_singleton]
    omega

/-! ### The assembler in RECEIVING -/

/-- The assembler `f` after the bits `ws` of a frame that is not complete. -/
def Framer.receiving (f : Framer) (ws : List Bool) : Framer :=
  { f with
    bytes := wholeBytes ws ++ f.bytes.drop (wholeBytes ws).length
    byteCount := (wholeBytes ws).length }.holding (openBits ws)

theorem receiving_nil {f : Framer} (hbits : f.bits = 0) (hcount : f.bitCount = 0)
    (hbyte : f.byteCount = 0) : f.receiving [] = f := by
  cases f
  cases hbits
  cases hcount
  cases hbyte
  rfl

/-- R155: the byte formed is the number the 8 bits held write. -/
theorem formedByte_holding (f : Framer) (w : List Bool) :
    formedByte (f.holding w) = BitVec.ofNat 8 (lsbFirst w) := by
  apply BitVec.eq_of_toNat_eq
  rw [formedByte, Framer.holding, BitVec.extractLsb'_toNat, BitVec.toNat_ofNat, BitVec.toNat_ofNat,
    Nat.shiftRight_zero]
  omega

/-- R151, R155, R156: one more bit of a frame that it does not complete. -/
theorem frameUpdate_receiving (P : Params) (b : Bool) {f : Framer} {ws : List Bool}
    (hf : f.gotSOP = true) (hbytes : f.bytes.length = 8) (hlen : ws.length < 71) :
    frameUpdate P b (f.receiving ws) = f.receiving (ws ++ [b]) := by
  have hwhole := length_wholeBytes ws
  have hopen := length_openBits ws
  have hshift : shiftIn b (f.receiving ws) = _ :=
    shiftIn_holding b _ (by rw [hopen]; omega)
  have hcount : (f.receiving ws).bitCount = ws.length % 8 := hopen
  obtain ⟨-, h8, hpay, -⟩ | ⟨-, h8, -, e⟩ | ⟨-, h8, e⟩ | ⟨hs, -⟩ | ⟨hs, -⟩ | ⟨hs, -⟩ :=
    frameUpdate_cases P b (f.receiving ws)
  · have hstored : (wholeBytes ws).length = 8 := hpay
    omega
  · obtain ⟨hnew, hrest⟩ := bytes_concat_of_full b (ws := ws) (by omega)
    have hroom : (wholeBytes ws).length < f.bytes.length := by omega
    have hset := set_append_drop_length (BitVec.ofNat 8 (lsbFirst (openBits ws ++ [b]))) hroom
    rw [e, hshift, storeByte, formedByte_holding, Framer.receiving, hnew, hrest]
    simp only [Framer.holding, hset, List.length_append, List.length_singleton]
    rfl
  · obtain ⟨hnew, hrest⟩ := bytes_concat_of_open b (ws := ws) (by omega)
    rw [e, hshift, Framer.receiving, hnew, hrest]
  all_goals exact absurd (hf.symm.trans hs) Bool.noConfusion

/-- R157: a bit that is not the last of its frame completes no packet. -/
theorem not_isComplete_receiving (b : Bool) (f : Framer) {ws : List Bool} (hlen : ws.length < 71) :
    ¬isComplete (shiftIn b (f.receiving ws)) = true := by
  rw [isComplete_shiftIn_iff]
  rintro ⟨-, h8, hpay⟩
  have hcount : (f.receiving ws).bitCount = ws.length % 8 := length_openBits ws
  have hstored : ws.length / 8 = 8 := (length_wholeBytes ws).symm.trans hpay
  omega

/-- R163: fewer than 72 bits of a frame. -/
theorem frameAll_receiving (P : Params) {s : State} {ws : List Bool} (hgot : s.frame.gotSOP = true)
    (hbits : s.frame.bits = 0) (hcount : s.frame.bitCount = 0) (hbyte : s.frame.byteCount = 0)
    (hbytes : s.frame.bytes.length = 8) (hlen : ws.length < 72) :
    (frameAll P ws s).frame = s.frame.receiving ws ∧
      (frameAll P ws s).packetOut = s.packetOut ∧ (frameAll P ws s).tsDraws = s.tsDraws := by
  induction ws using List.reverseRecOn with
  | nil =>
    exact ⟨(receiving_nil hbits hcount hbyte).symm, rfl, rfl⟩
  | append_singleton ws b ih =>
    rw [List.length_append, List.length_singleton] at hlen
    obtain ⟨hframe, hout, hdraws⟩ := ih (by omega)
    rw [frameAll_concat]
    obtain ⟨hcomplete, -⟩ | ⟨-, hdraws', hout'⟩ := frameStage_emits P b (frameAll P ws s)
    · rw [hframe] at hcomplete
      exact absurd hcomplete (not_isComplete_receiving b _ (by omega))
    · refine ⟨?_, hout'.trans hout, hdraws'.trans hdraws⟩
      simp only [frameStage_fields, hframe]
      exact frameUpdate_receiving P b hgot hbytes (by omega)

/-- Settles O46: 71 bits leave eight bytes stored and 7 bits held, so bit 72 completes the frame. -/
theorem packetHoldsTheEightBytes : Obligations.PacketHoldsTheEightBytes := by
  intro P ws s hgot hbits hcount hbyte hbytes
  have hpartial {vs : List Bool} := frameAll_receiving P (ws := vs) hgot hbits hcount hbyte hbytes
  refine ⟨fun hlen => ?_, fun hlen => ?_⟩
  · obtain ⟨hframe, hout, -⟩ := hpartial hlen
    exact ⟨hout, by rw [hframe]; exact hgot⟩
  obtain rfl | ⟨vs, b, rfl⟩ := ws.eq_nil_or_concat'
  · exact absurd hlen (by decide)
  rw [List.length_append, List.length_singleton] at hlen
  have hvs : vs.length = 71 := by omega
  obtain ⟨hframe, hout, hdraws⟩ := hpartial (vs := vs) (by omega)
  have hstored : (wholeBytes vs).length = 8 := by rw [length_wholeBytes, hvs]
  have hheld : (openBits vs).length + 1 = 8 := by rw [length_openBits, hvs]
  have hpayload : (s.frame.receiving vs).bytes = (List.range 8).map (byteAt (vs ++ [b])) := by
    show wholeBytes vs ++ s.frame.bytes.drop (wholeBytes vs).length = _
    rw [hstored, ← hbytes, List.drop_length, List.append_nil, hbytes, map_byteAt_append (by omega),
      wholeBytes, hvs]
  have hcomplete : isComplete (shiftIn b (s.frame.receiving vs)) = true :=
    (isComplete_shiftIn_iff b _).2 ⟨hgot, hheld, hstored⟩
  have hdone : frameUpdate P b (s.frame.receiving vs) =
      completeFrame (shiftIn b (s.frame.receiving vs)) := by
    have hreceiving : (shiftIn b (s.frame.receiving vs)).gotSOP = true := hgot
    simp only [frameUpdate, hreceiving, hcomplete, if_true]
  rw [frameAll_concat]
  obtain ⟨-, hdraws', hout'⟩ | ⟨hno, -⟩ := frameStage_emits P b (frameAll P vs s)
  · rw [hframe, hpayload, hdraws, hout] at hout'
    rw [hdraws] at hdraws'
    simp only [frameStage_fields, hframe, hdone]
    exact ⟨hout', hdraws', rfl, rfl, rfl, rfl⟩
  · rw [hframe, hcomplete] at hno
    cases hno

end Sys2Proof.Machine
end
